-- ==== Sys2Proof/Word.lean ====
section
/-! DEFINITION. The words of the block: a byte is the atom of the bus and of every memory (rules R5, R7), a half word is what
a host descriptor gives a coordinate, a size, a scale or a colour (rule R94). -/

namespace Sys2Proof

/-- A byte, 8 bits (rule R7). -/
abbrev Byte := BitVec 8

/-- A 16-bit operand or colour (rule R94). -/
abbrev Half := BitVec 16

end Sys2Proof
end

