-- ==== Sys2Proof/Config.lean ====
section
/-! DEFINITION. The parameters of rule R6. What the spec fixes is a number here; what it leaves OPEN is an `opaque`
constant without a body, so that no proof can see it. `Params` is the record a `State` carries: constant over a run
(rule R35), and quantified over by every statement about all states. -/

namespace Sys2Proof

/-- `PANEL_W` and `PANEL_H` (rule R6). -/
abbrev Config.panelW : Nat := 240
abbrev Config.panelH : Nat := 240
/-- `BPP`, bytes per pixel on the bus (rule R6). -/
abbrev Config.bpp : Nat := 2
/-- `GLYPH_COLS`, `GLYPH_ROWS` (rule R6). -/
abbrev Config.glyphCols : Nat := 5
abbrev Config.glyphRows : Nat := 8
/-- `CELL_ADV` and `LINE_ADV`, in units of the scale (rule R6). -/
abbrev Config.cellAdv : Nat := 6
abbrev Config.lineAdv : Nat := 8
/-- `RIGHT_MARGIN`, not scaled (rules R6, R211). -/
abbrev Config.rightMargin : Nat := 234
/-- `CTRL_LIMIT` and `LEAD_LIMIT` (rule R6). -/
abbrev Config.ctrlLimit : Nat := 32
abbrev Config.leadLimit : Nat := 127
/-- The three command bytes the source gives (rules R6, R81). -/
abbrev Config.cmdColAddrSet : Byte := 0x2A
abbrev Config.cmdRowAddrSet : Byte := 0x2B
abbrev Config.cmdMemWrite : Byte := 0x2C

/-- `WRAP_X_MODE` (rules R6, R212; decision D23). -/
inductive WrapMode where
  | zero
  | initialX
  deriving DecidableEq, Repr

/-- One (command-byte, parameter-bytes) pair of `INIT_CFG` (rule R6). -/
structure CfgEntry where
  cmd : Byte
  params : List Byte
  deriving DecidableEq, Repr

/-- One entry of the remap table (rule R87). -/
structure RemapEntry where
  lead : Byte
  trail : Byte
  glyph : Byte
  deriving DecidableEq, Repr

/-- The parameters of rule R6 that are OPEN or that a model takes as an argument. -/
structure Params where
  /-- `CMD_SLEEP_IN` -/
  cmdSleepIn : Byte
  /-- `CMD_SLEEP_OUT` -/
  cmdSleepOut : Byte
  /-- `CMD_DISPLAY_ON` -/
  cmdDisplayOn : Byte
  /-- `CMD_DISPLAY_OFF` -/
  cmdDisplayOff : Byte
  /-- `INIT_CFG` -/
  initCfg : List CfgEntry
  /-- `T_RST_ASSERT`, a duration in an unnamed unit -/
  tRstAssert : Nat
  /-- `T_RST_RELEASE`, a duration in an unnamed unit -/
  tRstRelease : Nat
  /-- `PWR_ON_CMDS` -/
  pwrOnCmds : List Byte
  /-- `PWR_OFF_CMDS` -/
  pwrOffCmds : List Byte
  /-- `TXBUF_CAP` -/
  txbufCap : Nat
  /-- `GLYPH_BIT0_IS_TOP` -/
  glyphBit0IsTop : Bool
  /-- `WRAP_X_MODE` -/
  wrapXMode : WrapMode
  /-- Whether the panel keeps its frame memory across the sleep and display commands: not in the source, an explicit assumption
  a panel-side model may take (note N14, decision D27; log entry 14). Not a parameter of rule R6. -/
  frameKept : Bool
  deriving DecidableEq, Repr

/-- The constraint column of rule R6. -/
abbrev Params.ok (p : Params) : Prop :=
  p.txbufCap % 2 = 0 ∧ 2 ≤ p.txbufCap ∧ 0 < p.tRstAssert ∧ 0 < p.tRstRelease ∧
  (p.pwrOnCmds = [p.cmdSleepOut, p.cmdDisplayOn] ∨ p.pwrOnCmds = [p.cmdDisplayOn, p.cmdSleepOut]) ∧
  (p.pwrOffCmds = [p.cmdSleepIn, p.cmdDisplayOff] ∨ p.pwrOffCmds = [p.cmdDisplayOff, p.cmdSleepIn])

/-- The four OPEN command bytes differ from one another and from the three fixed ones. The spec does NOT promise this (note N3);
a statement that tells the controller's commands apart takes it as a premise. -/
abbrev Params.distinctCmds (p : Params) : Prop :=
  [Config.cmdColAddrSet, Config.cmdRowAddrSet, Config.cmdMemWrite, p.cmdSleepIn, p.cmdSleepOut, p.cmdDisplayOn,
    p.cmdDisplayOff].Nodup

/-! The OPEN values of this hardware (log entry 7). No body: nothing proves what they are. -/

opaque Config.cmdSleepIn : Byte
opaque Config.cmdSleepOut : Byte
opaque Config.cmdDisplayOn : Byte
opaque Config.cmdDisplayOff : Byte
opaque Config.initCfg : List CfgEntry
/-- One less than `T_RST_ASSERT`, so that the duration is positive whatever it is. -/
opaque Config.tRstAssertLess1 : Nat
opaque Config.tRstReleaseLess1 : Nat
/-- Whether SETPOWER(on) sends sleep-out before display-on (note N6). -/
opaque Config.pwrOnSleepFirst : Bool
/-- Whether SETPOWER(off) sends sleep-in before display-off (note N6). -/
opaque Config.pwrOffSleepFirst : Bool
/-- Whether the panel keeps its picture across SETPOWER (note N14). -/
opaque Config.frameKept : Bool
/-- `GLYPH`, by ROM address `5 × g + c` (rules R26, R51; note N7). -/
opaque Config.glyphByte : Nat → Byte
/-- The entries of `REMAP` (rule R198; note N8): a lead byte is given by how far it is above 126. -/
opaque Config.remapFirst : Fin 129 × Byte × Byte
opaque Config.remapRest : List (Fin 129 × Byte × Byte)

/-- An entry of the remap table from its OPEN description: its lead byte is at least 127 (rule R198). -/
def Config.remapEntry (e : Fin 129 × Byte × Byte) : RemapEntry :=
  { lead := BitVec.ofNat 8 (Config.leadLimit + e.1.val), trail := e.2.1, glyph := e.2.2 }

/-- `REMAP`: finite, not empty, every lead byte at least 127 (rule R198; decision D21). -/
def Config.remap : List RemapEntry :=
  Config.remapEntry Config.remapFirst :: Config.remapRest.map Config.remapEntry

/-! Free values (log entries 5, 14, 17, 18). -/

/-- What an address of `TXBUF` holds before anything was written there (rule R34). -/
opaque Config.txbufByte : Nat → Byte
/-- What a byte of the panel's frame memory holds where the spec leaves it unspecified: the first argument tells one
unspecified content from another. -/
opaque Config.panelByte : Nat → Nat → Byte
/-- A fresh free byte for each number. -/
opaque Config.freeByte : Nat → Byte
/-- A fresh free column or row address for each number. -/
opaque Config.freeAddr : Nat → Half

/-- The parameters of this hardware: rule R6's values where it gives one, the OPEN constants elsewhere. -/
def Config.params : Params :=
  { cmdSleepIn := Config.cmdSleepIn
    cmdSleepOut := Config.cmdSleepOut
    cmdDisplayOn := Config.cmdDisplayOn
    cmdDisplayOff := Config.cmdDisplayOff
    initCfg := Config.initCfg
    tRstAssert := Config.tRstAssertLess1 + 1
    tRstRelease := Config.tRstReleaseLess1 + 1
    pwrOnCmds :=
      if Config.pwrOnSleepFirst then [Config.cmdSleepOut, Config.cmdDisplayOn]
      else [Config.cmdDisplayOn, Config.cmdSleepOut]
    pwrOffCmds :=
      if Config.pwrOffSleepFirst then [Config.cmdSleepIn, Config.cmdDisplayOff]
      else [Config.cmdDisplayOff, Config.cmdSleepIn]
    txbufCap := 15000
    glyphBit0IsTop := true
    wrapXMode := .zero
    frameKept := Config.frameKept }

end Sys2Proof
end

