-- ==== Sys2Proof/Syntax.lean ====
section
/-! DEFINITION. The operation set (rule R95) and the bus commands (rule R81): one constructor per row of the opcode table.
Operands stand as the descriptor carries them; field values that rule R94 refuses are kept, and refused by the meaning. -/

namespace Sys2Proof

/-- The operations of the block and the command frames of its bus. -/
inductive Instr where
  /-- `INIT`, 0x01 (rule R134) -/
  | init
  /-- `SETPOWER on`, 0x02 (rule R143) -/
  | setPower (on : Byte)
  /-- `FILLRECT x, y, w, h, color`, 0x03 (rule R157) -/
  | fillRect (x y w h color : Half)
  /-- `BLITIMAGE x, y, w, h, buffer`, 0x04 (rule R158) -/
  | blitImage (x y w h : Half) (data : List Byte)
  /-- `DRAWCHAR x, y, g, fg, bg, scale`, 0x05 (rule R178) -/
  | drawChar (x y : Half) (g : Byte) (fg bg scale : Half)
  /-- `PRINTLINE x, y, text, fg, bg, scale`, 0x06 (rule R212) -/
  | printLine (x y fg bg scale : Half) (text : List Byte)
  /-- `BEGIN`, 0x10 (rule R111) -/
  | beginTx
  /-- `END`, 0x11 (rule R112) -/
  | endTx
  /-- `WRITE dc, bytes`, 0x12 (rule R113) -/
  | write (dc : Byte) (bytes : List Byte)
  /-- `SETWINDOW x, y, w, h`, 0x13 (rule R140) -/
  | setWindow (x y w h : Half)
  /-- `FILL color`, 0x14 (rule R152) -/
  | fill (color : Half)
  /-- `BLIT buffer`, 0x15 (rule R154) -/
  | blit (data : List Byte)
  /-- `DECODE b`, 0x16 (rule R197) -/
  | decode (b : Byte)
  /-- `GLYPHCOL g, c`, 0x17 (rule R176) -/
  | glyphCol (g c : Byte)
  /-- `COL_ADDR_SET`, bus command 0x2A with its four parameter bytes (rules R82, R144) -/
  | colAddrSet (sh sl eh el : Byte)
  /-- `ROW_ADDR_SET`, bus command 0x2B with its four parameter bytes (rules R83, R145) -/
  | rowAddrSet (sh sl eh el : Byte)
  /-- `MEM_WRITE`, bus command 0x2C (rules R84, R146) -/
  | memWrite
  /-- `SLEEP_IN`, bus command `CMD_SLEEP_IN` (rule R147) -/
  | sleepIn
  /-- `SLEEP_OUT`, bus command `CMD_SLEEP_OUT` (rule R147) -/
  | sleepOut
  /-- `DISPLAY_ON`, bus command `CMD_DISPLAY_ON` (rule R147) -/
  | displayOn
  /-- `DISPLAY_OFF`, bus command `CMD_DISPLAY_OFF` (rule R147) -/
  | displayOff
  /-- `CFG[i]`, the frame of entry `i` of `INIT_CFG` (rule R148) -/
  | cfg (i : Nat)
  deriving DecidableEq, Repr

/-- The operations of rule R95 the host can spell as descriptors; the others are frames of the bus. -/
def Instr.isOperation : Instr → Bool
  | .init | .setPower _ | .fillRect .. | .blitImage .. | .drawChar .. | .printLine .. => true
  | .beginTx | .endTx | .write .. | .setWindow .. | .fill _ | .blit _ | .decode _ | .glyphCol .. => true
  | .colAddrSet .. | .rowAddrSet .. | .memWrite | .sleepIn | .sleepOut | .displayOn | .displayOff | .cfg _ => false

/-- The six operations of the block's public surface (rule R95). -/
def Instr.isPublic : Instr → Bool
  | .init | .setPower _ | .fillRect .. | .blitImage .. | .drawChar .. | .printLine .. => true
  | .beginTx | .endTx | .write .. | .setWindow .. | .fill _ | .blit _ | .decode _ | .glyphCol .. => false
  | .colAddrSet .. | .rowAddrSet .. | .memWrite | .sleepIn | .sleepOut | .displayOn | .displayOff | .cfg _ => false

end Sys2Proof
end

