-- ==== Sys2Proof/Machine/State.lean ====
section
/-! DEFINITION. The state of the block (rule R20), the external controller it drives (rules R32, R33), the reasons a step can
stop, and the state after reset (rule R34). Everything is plain data. -/

namespace Sys2Proof.Machine

/-- The tag of a bus write: a command byte, or parameter and pixel bytes (rules R9, R113). -/
inductive DC where
  | cmd
  | dat
  deriving DecidableEq, Repr

/-- The event alphabet of the output trace (rule R9). -/
inductive Event where
  /-- `Rst(1)` or `Rst(0)`: the panel's reset line asserted or released -/
  | rst (level : Bool)
  /-- `Wait(t)`: at least `t` passes before the next event -/
  | wait (t : Nat)
  /-- `Sel(1)` or `Sel(0)`: bus select asserted or released -/
  | sel (level : Bool)
  /-- `Wr(dc, bs)`: the bytes of one bus write, in order -/
  | wr (dc : DC) (bs : List Byte)
  deriving DecidableEq, Repr

/-- The decoder, as the tagged value rule R21 recommends: `DEC.lead` exists while `DEC.state = Await`. -/
inductive DecState where
  | idle
  | await (lead : Byte)
  deriving DecidableEq, Repr

/-- The addressing window `WIN.x, WIN.y, WIN.w, WIN.h` and the flag `WIN.open` (rule R22). -/
structure Window where
  x : Nat
  y : Nat
  w : Nat
  h : Nat
  isOpen : Bool
  deriving DecidableEq, Repr

/-- A memory: the cells that hold a known byte, by strictly rising address. An unlisted address holds no known byte; what it
reads as is `Space.unlisted`. -/
abbrev Memory := List Host.Cell

/-- The canonical form of a memory. -/
abbrev Memory.wf (m : Memory) : Prop := m.Pairwise (fun a b => a.1 < b.1)

/-- What the last completed operation returned (rules R30, R242). The model's own observation, not hardware. -/
inductive Result where
  /-- an operation without a result -/
  | none
  /-- the bit `drawn` of DRAWCHAR -/
  | drawn (b : Bool)
  /-- `Some g` or `None` of DECODE -/
  | glyph (g : Option Byte)
  /-- the byte of GLYPHCOL -/
  | column (b : Byte)
  deriving DecidableEq, Repr

/-- How far the spec determines the controller's reactions (rules R255, R134). -/
inductive PanelPhase where
  /-- before the first INIT, or after a byte to which the spec gives no reaction: every reaction is unspecified -/
  | unknown
  /-- the reset line is asserted -/
  | inReset
  /-- INIT's configuration frames are being received -/
  | configuring
  /-- an INIT has completed -/
  | ready
  /-- a window outside 240 × 240 was declared: the refusal `OffPanel` of the panel side (rules R63, R229; decisions D16, D27). The
  block goes on; of the panel nothing more is said for the rest of the run, and the mark is kept (log entry 11) -/
  | offPanel
  deriving DecidableEq, Repr

/-- What the controller takes the next data bytes for (rules R144 to R146). -/
inductive PanelMode where
  /-- no data byte is expected -/
  | idle
  /-- parameters of `COL_ADDR_SET`, those received so far -/
  | colParams (got : List Byte)
  /-- parameters of `ROW_ADDR_SET`, those received so far -/
  | rowParams (got : List Byte)
  /-- the pixel stream after `MEM_WRITE`: how many of its bytes were received (the write pointer, rule R33 (a)) -/
  | stream (count : Nat)
  /-- parameters of a command of `INIT_CFG` (rule R148) -/
  | config
  deriving DecidableEq, Repr

/-- A column or row address register of the controller: the first and the last address of the window, 16 bits each (rules R32, R144,
R145). -/
structure AddrReg where
  first : Half
  last : Half
  /-- whether a command has declared it since the last INIT (the model's own) -/
  declared : Bool
  deriving DecidableEq, Repr

/-- The external controller (rules R32, R33, R55, R144 to R148). Its registers mean something only in the phase `ready`. -/
structure Panel where
  phase : PanelPhase
  mode : PanelMode
  /-- the column address register -/
  cols : AddrReg
  /-- the row address register -/
  rows : AddrReg
  asleep : Bool
  displayOn : Bool
  /-- the configuration frames received since the reset pulse: the content of the gamma, voltage, frame-rate and color-order
  registers, as far as the spec gives it (rule R148) -/
  config : List CfgEntry
  /-- `PANEL`: the byte `b` (0 high, 1 low) of the pixel at column `px`, row `py` is at `2 × (240 × py + px) + b` -/
  frame : Memory
  /-- which unspecified content the unlisted bytes of `frame` have (the model's own) -/
  epoch : Nat
  /-- the next unused number of a free value (the model's own) -/
  free : Nat
  deriving DecidableEq, Repr

/-- The state. -/
structure State where
  /-- the parameters of rule R6: configuration, constant over a run (rule R35) -/
  params : Params
  /-- `GLYPHROM`, as the cells that differ from the parameter `GLYPH` of this hardware; never written (rule R26) -/
  glyphRom : Memory
  /-- `REMAPROM`; never written (rule R27) -/
  remapRom : List RemapEntry
  /-- `DEC.state` and `DEC.lead` (rule R21) -/
  dec : DecState
  /-- `WIN` (rule R22) -/
  win : Window
  /-- `TXBUF` (rule R23) -/
  txbuf : Memory
  /-- `BUS.sel` (rule R24) -/
  busSel : Bool
  /-- `RSTL` (rule R25) -/
  rstl : Bool
  /-- the sequencer registers (rule R28) -/
  rem : Nat
  off : Nat
  col : Nat
  row : Nat
  idx : Nat
  curX : Nat
  curY : Nat
  pos : Nat
  /-- `TRACE` (rule R31) -/
  trace : List Event
  /-- the external controller (rule R33) -/
  panel : Panel
  /-- what the last completed operation returned (the model's own) -/
  result : Result
  /-- the descriptors the host has still to hand over (rule R93) -/
  prog : List Byte
  /-- one bus command presented at the bus side (the model's own port, log entry 2) -/
  busPort : Option Instr
  deriving DecidableEq, Repr

/-- The block has no fault, no trap and no error return (rules R10, R225): there is no reason to fault. -/
inductive Fault where
  deriving DecidableEq, Repr

/-- The refusals of rule R229 that stop the block. Each is SAFE: it stops where the spec gives the operation no behaviour. The
list's `OffPanel` is none of them: the block neither clips nor refuses, and only the panel is marked (`PanelPhase.offPanel`). -/
inductive Refusal where
  /-- an instruction without a meaning in exec; SAFE. No arm raises it. -/
  | notModelled (mnemonic : String)
  /-- raised by BEGIN and every public operation inside an open bracket; SAFE (rules R111, R229) -/
  | nestedBegin
  /-- raised by END when no bracket is open; SAFE (rules R112, R229) -/
  | endWithoutBegin
  /-- raised by WRITE, SETWINDOW, FILL, BLIT and the bus commands outside a bracket; SAFE (rules R113, R229) -/
  | writeUnselected
  /-- raised by FILL and BLIT when no window is open; SAFE (rules R152, R154, R229) -/
  | noOpenWindow
  /-- raised by BLIT and BLITIMAGE when the buffer has fewer bytes than the window needs; SAFE (rules R154, R158, R229) -/
  | shortSource
  /-- raised by SETWINDOW, FILLRECT and BLITIMAGE for an empty rectangle; SAFE (rules R140, R229) -/
  | zeroArea
  /-- raised by DRAWCHAR and PRINTLINE for a scale of 0; SAFE (rules R178, R212, R229) -/
  | zeroScale
  /-- raised by SETPOWER, WRITE, GLYPHCOL for a field value outside its range, and by CFG[i] for an entry that `INIT_CFG` does
  not have; SAFE (rules R94, R97, R229) -/
  | badOperand
  /-- raised by the fetch for an operation code with no operation; SAFE (rules R97, R229) -/
  | reservedOp
  /-- raised by the fetch for a descriptor that runs past the end of the program; SAFE (rules R96, R229) -/
  | truncatedDescriptor
  deriving DecidableEq, Repr

/-- What the fetch finds (rules R93, R97, R253). -/
inductive Fetched where
  /-- the program is exhausted: the block is idle -/
  | nothing
  /-- the instruction to run, and the state it runs in -/
  | run (i : Instr) (s : State)
  /-- no instruction can be read -/
  | reject (r : Refusal)
  deriving Repr

/-- The controller after power-on: every reaction of it is unspecified until an INIT has run (rules R34, R255); its registers
hold named values that mean nothing before that (log entry 18). -/
def Panel.powerUp : Panel :=
  { phase := .unknown, mode := .idle, cols := { first := 0, last := 0, declared := false },
    rows := { first := 0, last := 0, declared := false }, asleep := true, displayOn := false, config := [], frame := [], epoch := 0,
    free := 1 }

/-- The panel of a run in which a window outside it was declared: one value, of which only the mark means something (rules R63,
R229; log entry 11). -/
def Panel.refused : Panel := { Panel.powerUp with phase := .offPanel }

/-- The state after reset (rule R34; log entries 3, 4, 5, 7, 12, 18 for the values it leaves unspecified). -/
def State.reset : State :=
  { params := Config.params
    glyphRom := []
    remapRom := Config.remap
    dec := .idle
    win := { x := 0, y := 0, w := 0, h := 0, isOpen := false }
    txbuf := []
    busSel := false
    rstl := false
    rem := 0
    off := 0
    col := 0
    row := 0
    idx := 0
    curX := 0
    curY := 0
    pos := 0
    trace := []
    panel := Panel.powerUp
    result := .none
    prog := []
    busPort := none }

end Sys2Proof.Machine
end

