-- ==== Sys2Proof/Machine/Flags.lean ====
section
/-! DEFINITION. The predicates of the block (rule R30): it keeps no status register and no condition codes; two one-bit values
act as flags. -/

namespace Sys2Proof.Machine

/-- `transparent = (bg = fg)` (rules R30, R177). -/
def transparent (fg bg : Half) : Bool := bg == fg

/-- The result `drawn` of DRAWCHAR: every index that is not a control character (rule R178; decision D19). -/
def drawnGlyph (g : Byte) : Bool := decide (Config.ctrlLimit ≤ g.toNat)

/-- The wrap test of PRINTLINE: the cursor is at or beyond the fixed right margin (rule R212). -/
def atMargin (curX : Nat) : Bool := decide (Config.rightMargin ≤ curX)

/-- A window is on-panel (rule R63). -/
def onPanel (x y w h : Nat) : Bool :=
  decide (1 ≤ w ∧ 1 ≤ h ∧ x + w ≤ Config.panelW ∧ y + h ≤ Config.panelH)

end Sys2Proof.Machine
end

