-- ==== Sys2Proof/Machine/Operands.lean ====
section
/-! DEFINITION. How each value that goes on the bus is assembled from operands (rule R89), and the addresses of the memories
(rule R223). All arithmetic is on naturals; only `lo8` and `hi8` narrow (rules R7, R224). -/

namespace Sys2Proof.Machine

/-- `lo8(v) = v & 0xFF` (rule R7). -/
def lo8 (v : Nat) : Byte := BitVec.ofNat 8 v

/-- `hi8(v)`, bits 15 to 8 (rule R7). -/
def hi8 (v : Nat) : Byte := BitVec.ofNat 8 (v / 256)

/-- A pixel on the bus: high byte, then low byte (rule R85). -/
def pixelBytes (color : Half) : List Byte := [hi8 color.toNat, lo8 color.toNat]

/-- Byte `i` of a chunk that FILL packs (rule R152). -/
def patternByte (color : Half) (i : Nat) : Byte := if i % 2 = 0 then hi8 color.toNat else lo8 color.toNat

/-- A chunk of `size` bytes as FILL packs it, starting at a high byte (rule R152). -/
def fillChunk (color : Half) (size : Nat) : List Byte := (List.range size).map (patternByte color)

/-- The bytes `off .. off + size - 1` of a source buffer (rule R53). -/
def sourceChunk (data : List Byte) (off size : Nat) : List Byte := (data.drop off).take size

/-- The parameter bytes of an address pair that starts at `a` and has `n` columns or rows (rules R82, R83). -/
def addrParams (a n : Nat) : List Byte := [0x00, lo8 a, 0x00, lo8 (a + n - 1)]

/-- The address a controller reads from a pair of parameter bytes (rules R144, R145). -/
def addrOf (hi lo : Byte) : Half := BitVec.ofNat 16 (256 * hi.toNat + lo.toNat)

/-- The number of bytes of the pixel stream of a `w × h` window (rule R151). -/
def streamBytes (w h : Nat) : Nat := Config.bpp * w * h

/-- The address of column `c` of glyph `g` in `GLYPHROM` (rule R51). -/
def glyphAddr (g : Byte) (c : Nat) : Nat := Config.glyphCols * g.toNat + c

/-- Row `r` of a column byte: bit `r` when bit 0 is the top row, bit `7 - r` otherwise (rules R57, R178; decision D17). -/
def rowBit (bit0IsTop : Bool) (column : Byte) (r : Nat) : Bool :=
  if bit0IsTop then column.getLsbD r else column.getLsbD (Config.glyphRows - 1 - r)

/-- The address in `PANEL` of the byte number `k` of a pixel stream into the window whose top-left corner is `(x, y)` and whose
rows hold `w` pixels: pixel `k / 2` is at column `x + (k / 2) mod w`, row `y + (k / 2) div w` (rule R58). -/
def streamAddr (x y w k : Nat) : Nat :=
  Config.bpp * (Config.panelW * (y + k / (Config.bpp * w)) + x) + k % (Config.bpp * w)

/-- The address in `PANEL` of the high byte of the pixel at column `px`, row `py`; the low byte follows it. -/
def pixelAddr (px py : Nat) : Nat := Config.bpp * (Config.panelW * py + px)

end Sys2Proof.Machine
end

