-- ==== Sys2Proof/Machine/Memories.lean ====
section
/-! DEFINITION. The named operations over a memory: reading a byte, reading a run, writing a run. A run is written in one
piece, which keeps the canonical form; bytes outside the run stay as they are. -/

namespace Sys2Proof.Machine

/-- The address spaces that are memories (rule R50); the panel's unspecified content goes by its epoch. -/
inductive Space where
  | glyphRom
  | txBuf
  | panel (epoch : Nat)
  deriving DecidableEq, Repr

/-- What an unlisted address reads as: in `GLYPHROM` the OPEN parameter `GLYPH`, elsewhere a free value (rule R34). -/
def Space.unlisted : Space → Nat → Byte
  | .glyphRom, a => Config.glyphByte a
  | .txBuf, a => Config.txbufByte a
  | .panel e, a => Config.panelByte e a

/-- The byte listed at an address. -/
def Memory.read : Memory → Nat → Option Byte
  | [], _ => none
  | (a, b) :: m, x => if a = x then some b else Memory.read m x

/-- `MemRead(space, a, 1)` (rule R8). -/
def Memory.byte (sp : Space) (m : Memory) (a : Nat) : Byte := (m.read a).getD (sp.unlisted a)

/-- The `n` bytes from `a` on, of a memory none of whose cells lies below `a`. -/
def Memory.collect (sp : Space) : Nat → Nat → Memory → List Byte
  | 0, _, _ => []
  | n + 1, a, [] => sp.unlisted a :: Memory.collect sp n (a + 1) []
  | n + 1, a, (x, b) :: m =>
    if x = a then b :: Memory.collect sp n (a + 1) m
    else sp.unlisted a :: Memory.collect sp n (a + 1) ((x, b) :: m)

/-- `MemRead(space, a, n)` (rule R8). -/
def Memory.readRun (sp : Space) (m : Memory) (a n : Nat) : List Byte :=
  Memory.collect sp n a (m.filter (fun c => decide (a ≤ c.1)))

/-- The cells of a run of bytes at consecutive addresses from `a` on. -/
def runCells : Nat → List Byte → Memory
  | _, [] => []
  | a, b :: bs => (a, b) :: runCells (a + 1) bs

/-- `MemWrite(space, a, len bs, bs)` (rule R8). -/
def Memory.writeRun (m : Memory) (a : Nat) (bs : List Byte) : Memory :=
  m.filter (fun c => decide (c.1 < a)) ++ (runCells a bs ++ m.filter (fun c => decide (a + bs.length ≤ c.1)))

end Sys2Proof.Machine
end

