-- ==== Sys2Proof/Machine/Panel.lean ====
section
/-! DEFINITION. The external controller's reaction to one event of the trace (rules R58, R144 to R148, R255; decision D27). It
never answers, and nothing the block does depends on it. Where the spec gives no reaction, its frame memory becomes free, and
where that leaves even its later reactions open, its phase becomes `unknown` until the next INIT. Once the panel is marked
`offPanel` it takes no event any more (log entry 11). -/

namespace Sys2Proof.Machine

/-- The frame memory takes an unspecified content, different from any before (notes N12, N14). -/
def Panel.blur (p : Panel) : Panel := { p with frame := [], epoch := p.free, free := p.free + 1 }

/-- The spec gives no reaction: every later reaction is unspecified too, until an INIT (rules R99, R255). -/
def Panel.lose (p : Panel) : Panel := { p.blur with phase := .unknown, mode := .idle }

/-- The meanings of the four OPEN command bytes (rule R147). -/
def openCommands (q : Params) : List (Byte × Instr) :=
  [(q.cmdSleepIn, .sleepIn), (q.cmdSleepOut, .sleepOut), (q.cmdDisplayOn, .displayOn), (q.cmdDisplayOff, .displayOff)]

/-- The sleep or display command an OPEN byte means, when it means exactly one (log entry 16). -/
def openCommand (q : Params) (c : Byte) : Option Instr :=
  match (openCommands q).filter (fun m => m.1 == c) with
  | [m] => some m.2
  | _ => none

/-- Both address registers were declared since the last INIT. -/
def Panel.declared (p : Panel) : Bool := p.cols.declared && p.rows.declared

/-- The declared window as its top-left corner and size, when it is a window on the panel (rules R58, R63, R144, R145). -/
def Panel.window (p : Panel) : Option (Nat × Nat × Nat × Nat) :=
  if p.declared = true ∧ p.cols.first.toNat ≤ p.cols.last.toNat ∧ p.rows.first.toNat ≤ p.rows.last.toNat ∧
      p.cols.last.toNat < Config.panelW ∧ p.rows.last.toNat < Config.panelH then
    some (p.cols.first.toNat, p.rows.first.toNat, p.cols.last.toNat + 1 - p.cols.first.toNat,
      p.rows.last.toNat + 1 - p.rows.first.toNat)
  else none

/-- The bytes `bs` of a pixel stream, of which `k` were received before, stored into the window `(x, y)` with `w` pixels a row: a
row of the window is one run of addresses (rule R58). -/
def storeStream (x y w : Nat) : Nat → Nat → List Byte → Memory → Memory
  | 0, _, _, m => m
  | fuel + 1, k, bs, m =>
    if bs = [] then m
    else
      let room := Config.bpp * w - k % (Config.bpp * w)
      storeStream x y w fuel (k + room) (bs.drop room) (m.writeRun (streamAddr x y w k) (bs.take room))

/-- The current command ends: a pixel of which only the high byte came is unspecified, and so is a parameter list cut short (log
entry 17). DESIGN CHOICE (log entry 28): a pixel stream cut short leaves the pixels it stored, and the pixels of the window it did not
reach keep their value; rule R58 says only that fewer pixels than the window has never arise. -/
def Panel.endCommand (p : Panel) : Panel :=
  match p.mode with
  | .idle => p
  | .colParams _ => p.lose
  | .rowParams _ => p.lose
  | .config => { p with mode := .idle }
  | .stream k =>
    if k % 2 = 0 then { p with mode := .idle }
    else
      match p.window with
      | some (x, y, w, _) =>
        { p with
          mode := .idle
          frame := p.frame.writeRun (streamAddr x y w (k - 1)) [Config.freeByte p.free, Config.freeByte (p.free + 1)]
          free := p.free + 2 }
      | none => { p with mode := .idle }

/-- What a sleep or display command does to the frame memory: kept only under the explicit assumption `frameKept` (note N14). -/
def Panel.carry (q : Params) (p : Panel) : Panel := if q.frameKept then p else p.blur

/-- The command of an entry of `INIT_CFG` opens a configuration frame, which writes a configuration register (rules R32, R148); the
content of the frame memory after it is not stated. A byte that several of the four OPEN commands share, or that no command of rule R81
has, has no stated reaction (rule R99; log entry 16). -/
def Panel.configure (q : Params) (p : Panel) (c : Byte) : Panel :=
  if q.initCfg.any (fun e => e.cmd == c) && (openCommands q).all (fun m => m.1 != c) then
    { p.blur with mode := .config, config := p.config ++ [{ cmd := c, params := [] }] }
  else p.lose

/-- A sleep or display command changes its register of rule R32 (rule R147); a byte that means none of them may be the command of a
configuration frame. -/
def Panel.power (q : Params) (p : Panel) (c : Byte) : Option Instr → Panel
  | some .sleepIn => { Panel.carry q p with asleep := true }
  | some .sleepOut => { Panel.carry q p with asleep := false }
  | some .displayOn => { Panel.carry q p with displayOn := true }
  | some .displayOff => { Panel.carry q p with displayOn := false }
  | _ => p.configure q c

/-- MEM_WRITE: the pixels of the declared window follow (rule R146). A declared window that is not on the panel is refused (rules
R63, R229). -/
def Panel.memWrite (p : Panel) : Panel :=
  if p.declared = true ∧ p.window = none then Panel.refused else { p with mode := .stream 0 }

/-- A command byte reaches a controller that is ready (rules R144 to R148). -/
def Panel.command (q : Params) (p : Panel) (c : Byte) : Panel :=
  let p := p.endCommand
  if p.phase = .ready then
    if c = Config.cmdColAddrSet then { p with mode := .colParams [] }
    else if c = Config.cmdRowAddrSet then { p with mode := .rowParams [] }
    else if c = Config.cmdMemWrite then p.memWrite
    else p.power q c (openCommand q c)
  else if p.phase = .offPanel then p
  else p.blur

/-- The parameter bytes of an address command are complete when four have come (rules R144, R145). -/
def Panel.params (p : Panel) (again : List Byte → PanelMode) (declare : AddrReg → Panel) (all : List Byte) : Panel :=
  match all with
  | [sh, sl, eh, el] => declare { first := addrOf sh sl, last := addrOf eh el, declared := true }
  | [] | [_] | [_, _] | [_, _, _] => { p with mode := again all }
  | _ => p.lose

/-- A configuration data byte belongs to the frame received last. -/
def addParams (bs : List Byte) : List CfgEntry → List CfgEntry
  | [] => []
  | [e] => [{ e with params := e.params ++ bs }]
  | e :: es => e :: addParams bs es

/-- Data bytes reach a controller that is ready (rules R58, R144 to R146, R148). DESIGN CHOICE (log entry 30): each byte of a stream is
stored as it comes, so that between two writes a pixel of which only the high byte came has that byte and its old low byte; rule R58
says only where a whole pixel is stored. -/
def Panel.data (p : Panel) (bs : List Byte) : Panel :=
  match p.mode with
  | .idle => p.lose
  | .colParams got => p.params .colParams (fun a => { p with mode := .idle, cols := a }) (got ++ bs)
  | .rowParams got => p.params .rowParams (fun a => { p with mode := .idle, rows := a }) (got ++ bs)
  | .config => { p with config := addParams bs p.config }
  | .stream k =>
    match p.window with
    | some (x, y, w, h) =>
      if p.asleep = false ∧ k + bs.length ≤ streamBytes w h then
        { p with mode := .stream (k + bs.length), frame := storeStream x y w bs.length k bs p.frame }
      else { p.blur with mode := .stream (k + bs.length) }
    | none => { p.blur with mode := .stream (k + bs.length) }

/-- An address register of unspecified content, which no command has declared. -/
def freeReg (n : Nat) : AddrReg := { first := Config.freeAddr n, last := Config.freeAddr (n + 1), declared := false }

/-- INIT has completed: out of sleep, display on, no window declared, address registers and frame memory unspecified (rule R241; note
N14; log entry 18). -/
def Panel.configured (p : Panel) : Panel :=
  { p.blur with
    phase := .ready
    mode := .idle
    cols := freeReg (p.free + 1)
    rows := freeReg (p.free + 3)
    asleep := false
    displayOn := true
    free := p.free + 5 }

/-- The controller's reaction to one event (rule R11: it only consumes the trace). DESIGN CHOICE (log entry 27): the release of select
ends the command in progress, be it a pixel stream or a parameter list, so that data bytes in a later bracket belong to no command;
the spec says only what END does to the block. -/
def Panel.observe (q : Params) (p : Panel) : Event → Panel
  | .rst true => if p.phase = .offPanel then p else { p.blur with phase := .inReset, mode := .idle }
  | .rst false => if p.phase = .offPanel then p else { p with phase := .configuring, mode := .idle, config := [] }
  | .wait _ => p
  | .sel true => p
  | .sel false =>
    match p.phase with
    | .configuring => p.configured
    | .ready => p.endCommand
    | .unknown | .inReset | .offPanel => p
  | .wr dc bs =>
    match p.phase, dc with
    | .configuring, .cmd => { p with config := p.config ++ bs.map (fun c => { cmd := c, params := [] }) }
    | .configuring, .dat => { p with config := addParams bs p.config }
    | .ready, .cmd => bs.foldl (Panel.command q) p
    | .ready, .dat => p.data bs
    | .unknown, _ => p.blur
    | .inReset, _ => p.blur
    | .offPanel, _ => p

/-- The controller after a whole trace. -/
def Panel.replay (q : Params) (t : List Event) : Panel := t.foldl (Panel.observe q) Panel.powerUp

/-- The content of a pixel of the frame memory, high byte first (rule R58). -/
def Panel.pixel (p : Panel) (px py : Nat) : Byte × Byte :=
  (p.frame.byte (.panel p.epoch) (pixelAddr px py), p.frame.byte (.panel p.epoch) (pixelAddr px py + 1))

end Sys2Proof.Machine
end

