-- ==== Sys2Proof/Machine/Ops.lean ====
section
/-! DEFINITION. The operations every family is built from (rules R8, R9, R101): emitting an event, the select bracket, the bus
write and its two helpers, and the end of an operation. They are the EFFECTS; the refusals of rule R229 are tested by the
meanings before the first effect (rule R8). The block has no exception to take and none to return from (rules R225, R228,
R232). -/

namespace Sys2Proof.Machine

/-- `Emit(ev)`: the event is appended to the trace, and the controller reacts (rules R8, R31). -/
def emit (e : Event) (s : State) : State :=
  { s with trace := s.trace ++ [e], panel := s.panel.observe s.params e }

/-- The bus enabled and select asserted (rules R24, R111). -/
def beginOp (s : State) : State := emit (.sel true) { s with busSel := true }

/-- The open window is closed; its origin and size stay (rule R22). -/
def closeWindow (s : State) : State := { s with win := { s.win with isOpen := false } }

/-- Select released, the window closed (rule R112). -/
def endOp (s : State) : State := emit (.sel false) (closeWindow { s with busSel := false })

/-- One bus write; a write of length 0 leaves no event (rule R113; decision D29). -/
def writeOp (dc : DC) (bs : List Byte) (s : State) : State := if bs = [] then s else emit (.wr dc bs) s

/-- `SendCmd(c)` (rule R131). -/
def sendCmd (c : Byte) (s : State) : State := closeWindow (writeOp .cmd [c] s)

/-- `SendData(p)` (rule R132). -/
def sendData (bs : List Byte) (s : State) : State := writeOp .dat bs s

/-- A command frame (rule R80). -/
def sendFrame (c : Byte) (ps : List Byte) (s : State) : State := sendData ps (sendCmd c s)

/-- A declared window that is not on the panel: the block goes on, the panel is marked refused (rules R63, R229; decisions D16, D27;
log entry 11). The window is the one of the operands, not what is left of it in the 8-bit parameters. -/
def judgeWindow (x y w h : Nat) (s : State) : State :=
  { s with panel := if onPanel x y w h then s.panel else Panel.refused }

/-- The operation ends and returns `r` (rules R8, R10). -/
def finish (r : Result) (s : State) : Host.Outcome State Fault Refusal := .next { s with result := r }

/-- `MemRead(GLYPHROM, 5 × g + c, 1)` (rules R51, R176). -/
def glyphColumn (g : Byte) (c : Nat) (s : State) : Byte := s.glyphRom.byte .glyphRom (glyphAddr g c)

/-- `REMAP(l, t)` (rule R198). -/
def remapLookup (l t : Byte) (s : State) : Option Byte :=
  (s.remapRom.find? (fun e => e.lead == l && e.trail == t)).map RemapEntry.glyph

/-- A chunk placed in `TXBUF` and read back from it (rules R52, R151). -/
def loadTxbuf (chunk : List Byte) (s : State) : State := { s with txbuf := s.txbuf.writeRun 0 chunk }

/-- One chunk of a pixel stream: placed at address 0 of `TXBUF`, then sent by one write of exactly its size (rule R151). -/
def sendChunk (chunk : List Byte) (s : State) : State :=
  let s := loadTxbuf chunk s
  writeOp .dat (s.txbuf.readRun .txBuf 0 chunk.length) s

end Sys2Proof.Machine
end

