-- ==== Sys2Proof/Machine/BusCommands.lean ====
section
/-! DEFINITION. The bus commands of rule R81, each one command frame of the bus (rules R80 to R84, R131, R132); what it means to
the controller (rules R144 to R148) is the reaction of `Panel.observe`. A frame goes out only inside a bracket, and its command
byte closes an open window (rule R22). -/

namespace Sys2Proof.Machine

/-- One command frame, refused outside a bracket (rules R80, R131). -/
def frameOp (c : Byte) (ps : List Byte) (s : State) : Host.Outcome State Fault Refusal :=
  if s.busSel then finish .none (sendFrame c ps s) else .refused .writeUnselected

/-- COL_ADDR_SET (rules R82, R144). -/
def execColAddrSet (sh sl eh el : Byte) (s : State) : Host.Outcome State Fault Refusal :=
  frameOp Config.cmdColAddrSet [sh, sl, eh, el] s

/-- ROW_ADDR_SET (rules R83, R145). -/
def execRowAddrSet (sh sl eh el : Byte) (s : State) : Host.Outcome State Fault Refusal :=
  frameOp Config.cmdRowAddrSet [sh, sl, eh, el] s

/-- MEM_WRITE (rules R84, R146). -/
def execMemWrite (s : State) : Host.Outcome State Fault Refusal := frameOp Config.cmdMemWrite [] s

/-- SLEEP_IN (rule R147). -/
def execSleepIn (s : State) : Host.Outcome State Fault Refusal := frameOp s.params.cmdSleepIn [] s

/-- SLEEP_OUT (rule R147). -/
def execSleepOut (s : State) : Host.Outcome State Fault Refusal := frameOp s.params.cmdSleepOut [] s

/-- DISPLAY_ON (rule R147). -/
def execDisplayOn (s : State) : Host.Outcome State Fault Refusal := frameOp s.params.cmdDisplayOn [] s

/-- DISPLAY_OFF (rule R147). -/
def execDisplayOff (s : State) : Host.Outcome State Fault Refusal := frameOp s.params.cmdDisplayOff [] s

/-- CFG[i] (rule R148): the frame of entry `i` of `INIT_CFG`; an entry that is not there is a bad operand. -/
def execCfg (i : Nat) (s : State) : Host.Outcome State Fault Refusal :=
  match s.params.initCfg[i]? with
  | some e => frameOp e.cmd e.params s
  | none => if s.busSel then .refused .badOperand else .refused .writeUnselected

end Sys2Proof.Machine
end

