-- ==== Sys2Proof/Machine/BusTransport.lean ====
section
/-! DEFINITION. The Bus Transport: BEGIN, END, WRITE (rules R110 to R116). -/

namespace Sys2Proof.Machine

/-- BEGIN (rule R111). -/
def execBeginTx (s : State) : Host.Outcome State Fault Refusal :=
  if s.busSel then .refused .nestedBegin else finish .none (beginOp s)

/-- END (rule R112). -/
def execEndTx (s : State) : Host.Outcome State Fault Refusal :=
  if s.busSel then finish .none (endOp s) else .refused .endWithoutBegin

/-- The write tag a descriptor's byte stands for: 0 is `CMD`, 1 is `DAT` (rule R94). -/
def tagOf (dc : Byte) : Option DC := if dc = 0 then some .cmd else if dc = 1 then some .dat else none

/-- WRITE (rule R113): the bracket is tested before the tag (rule R230). It does not touch `WIN.open`. -/
def execWrite (dc : Byte) (bytes : List Byte) (s : State) : Host.Outcome State Fault Refusal :=
  if s.busSel then
    match tagOf dc with
    | some d => finish .none (writeOp d bytes s)
    | none => .refused .badOperand
  else .refused .writeUnselected

end Sys2Proof.Machine
end

