-- ==== Sys2Proof/Machine/CharDecoder.lean ====
section
/-! DEFINITION. The Character Decoder: DECODE (rules R195 to R202). -/

namespace Sys2Proof.Machine

/-- The glyph one step of the decoder reports (rules R196, R197). -/
def decodeGlyph (b : Byte) (s : State) : Option Byte :=
  match s.dec with
  | .idle => if b.toNat < Config.ctrlLimit then none else if b.toNat < Config.leadLimit then some b else none
  | .await lead => remapLookup lead b s

/-- The state one step of the decoder goes to (rules R196, R197). -/
def decodeNext (b : Byte) (d : DecState) : DecState :=
  match d with
  | .idle => if b.toNat < Config.leadLimit then .idle else .await b
  | .await _ => .idle

/-- The effect of DECODE (rule R197). -/
def decodeOp (b : Byte) (s : State) : State := { s with dec := decodeNext b s.dec }

/-- DECODE (rule R197): never refused. -/
def execDecode (b : Byte) (s : State) : Host.Outcome State Fault Refusal :=
  finish (.glyph (decodeGlyph b s)) (decodeOp b s)

end Sys2Proof.Machine
end

