-- ==== Sys2Proof/Machine/ControllerProtocol.lean ====
section
/-! DEFINITION. The Controller Protocol: INIT, SETPOWER, SETWINDOW (rules R130 to R143). -/

namespace Sys2Proof.Machine

/-- `RSTL` driven to a level, and the event that says so (rules R25, R134). -/
def driveReset (level : Bool) (s : State) : State := emit (.rst level) { s with rstl := level }

/-- The reset pulse with its two minimum delays, outside any bracket (rule R134; decision D8). -/
def resetPulse (s : State) : State :=
  emit (.wait s.params.tRstRelease) (driveReset false (emit (.wait s.params.tRstAssert) (driveReset true s)))

/-- The entries of `INIT_CFG`, from index `i` on, each as a command frame (rule R134). -/
def sendConfig : Nat → List CfgEntry → State → State
  | _, [], s => s
  | i, e :: es, s => sendConfig (i + 1) es (sendFrame e.cmd e.params { s with idx := i })

/-- The effect of INIT (rule R134). -/
def initOp (s : State) : State :=
  let s := sendConfig 0 s.params.initCfg (beginOp (resetPulse s))
  endOp (sendCmd s.params.cmdDisplayOn (sendCmd s.params.cmdSleepOut s))

/-- INIT (rule R134). -/
def execInit (s : State) : Host.Outcome State Fault Refusal :=
  if s.busSel then .refused .nestedBegin else finish .none (initOp s)

/-- A list of command bytes, each by `SendCmd`, in order (rule R143). -/
def sendCmds (cs : List Byte) (s : State) : State := cs.foldl (fun s c => sendCmd c s) s

/-- The effect of SETPOWER (rule R143). -/
def setPowerOp (on : Bool) (s : State) : State :=
  endOp (sendCmds (if on then s.params.pwrOnCmds else s.params.pwrOffCmds) (beginOp s))

/-- SETPOWER (rule R143): the bracket is tested before the operand (rule R230). -/
def execSetPower (on : Byte) (s : State) : Host.Outcome State Fault Refusal :=
  if s.busSel then .refused .nestedBegin
  else if on = 0 then finish .none (setPowerOp false s)
  else if on = 1 then finish .none (setPowerOp true s)
  else .refused .badOperand

/-- The window recorded and opened (rules R22, R140). -/
def openWindow (x y w h : Nat) (s : State) : State := { s with win := { x := x, y := y, w := w, h := h, isOpen := true } }

/-- The effect of SETWINDOW: three frames, then the window recorded and opened (rule R140). The block does not look whether the
window is on the panel and does not clip (rule R63); the panel's side of it is `judgeWindow`. -/
def setWindowOp (x y w h : Nat) (s : State) : State :=
  openWindow x y w h
    (sendCmd Config.cmdMemWrite
      (sendFrame Config.cmdRowAddrSet (addrParams y h) (sendFrame Config.cmdColAddrSet (addrParams x w) (judgeWindow x y w h s))))

/-- SETWINDOW (rule R140). -/
def execSetWindow (x y w h : Half) (s : State) : Host.Outcome State Fault Refusal :=
  if s.busSel then
    if w = 0 ∨ h = 0 then .refused .zeroArea else finish .none (setWindowOp x.toNat y.toNat w.toNat h.toNat s)
  else .refused .writeUnselected

end Sys2Proof.Machine
end

