-- ==== Sys2Proof/Machine/PixelStreamer.lean ====
section
/-! DEFINITION. The Pixel Streamer: FILL, BLIT, FILLRECT, BLITIMAGE (rules R150 to R160). -/

namespace Sys2Proof.Machine

/-- `while REM > 0`: the turns of a stream. The fuel is the byte count, and every turn sends at least one byte (rule R152). -/
def whileRem (turn : State → State) : Nat → State → State
  | 0, s => s
  | fuel + 1, s => if s.rem = 0 then s else whileRem turn fuel (turn s)

/-- The size of the next chunk, `min(TXBUF_CAP, REM)` (rule R151). -/
def chunkSize (s : State) : Nat := min s.params.txbufCap s.rem

/-- One turn of FILL: a chunk packed with the colour pattern and sent (rule R152). -/
def fillTurn (color : Half) (s : State) : State :=
  { sendChunk (fillChunk color (chunkSize s)) s with rem := s.rem - chunkSize s }

/-- The effect of FILL (rule R152). -/
def fillOp (color : Half) (s : State) : State :=
  let n := streamBytes s.win.w s.win.h
  closeWindow (whileRem (fillTurn color) n { s with rem := n })

/-- FILL (rule R152). -/
def execFill (color : Half) (s : State) : Host.Outcome State Fault Refusal :=
  if s.busSel then
    if s.win.isOpen then finish .none (fillOp color s) else .refused .noOpenWindow
  else .refused .writeUnselected

/-- One turn of BLIT: the next chunk of the source copied to `TXBUF` and sent (rule R154). -/
def blitTurn (data : List Byte) (s : State) : State :=
  { sendChunk (sourceChunk data s.off (chunkSize s)) s with off := s.off + chunkSize s, rem := s.rem - chunkSize s }

/-- The effect of BLIT (rule R154). -/
def blitOp (data : List Byte) (s : State) : State :=
  let n := streamBytes s.win.w s.win.h
  closeWindow (whileRem (blitTurn data) n { s with rem := n, off := 0 })

/-- BLIT (rule R154). -/
def execBlit (data : List Byte) (s : State) : Host.Outcome State Fault Refusal :=
  if s.busSel then
    if s.win.isOpen then
      if data.length < streamBytes s.win.w s.win.h then .refused .shortSource else finish .none (blitOp data s)
    else .refused .noOpenWindow
  else .refused .writeUnselected

/-- The effect of FILLRECT, also for the exact naturals DRAWCHAR supplies (rules R157, R180). -/
def fillRectOp (x y w h : Nat) (color : Half) (s : State) : State :=
  endOp (fillOp color (setWindowOp x y w h (beginOp s)))

/-- FILLRECT (rule R157). -/
def execFillRect (x y w h color : Half) (s : State) : Host.Outcome State Fault Refusal :=
  if s.busSel then .refused .nestedBegin
  else if w = 0 ∨ h = 0 then .refused .zeroArea
  else finish .none (fillRectOp x.toNat y.toNat w.toNat h.toNat color s)

/-- The effect of BLITIMAGE (rule R158). -/
def blitImageOp (x y w h : Nat) (data : List Byte) (s : State) : State :=
  endOp (blitOp data (setWindowOp x y w h (beginOp s)))

/-- BLITIMAGE (rule R158). -/
def execBlitImage (x y w h : Half) (data : List Byte) (s : State) : Host.Outcome State Fault Refusal :=
  if s.busSel then .refused .nestedBegin
  else if w = 0 ∨ h = 0 then .refused .zeroArea
  else if data.length < streamBytes w.toNat h.toNat then .refused .shortSource
  else finish .none (blitImageOp x.toNat y.toNat w.toNat h.toNat data s)

end Sys2Proof.Machine
end

