-- ==== Sys2Proof/Machine/GlyphRasterizer.lean ====
section
/-! DEFINITION. The font table lookup and the Glyph Rasterizer: GLYPHCOL, DRAWCHAR (rules R175 to R180). -/

namespace Sys2Proof.Machine

/-- GLYPHCOL (rule R176). -/
def execGlyphCol (g c : Byte) (s : State) : Host.Outcome State Fault Refusal :=
  if c.toNat < Config.glyphCols then finish (.column (glyphColumn g c.toNat s)) s else .refused .badOperand

/-- The operands of one DRAWCHAR; the corner is an exact natural when PRINTLINE supplies it (rule R180). -/
structure CharArgs where
  x : Nat
  y : Nat
  g : Byte
  fg : Half
  bg : Half
  scale : Nat
  deriving DecidableEq, Repr

/-- Whether cell `(c, r)` of the glyph is foreground (rules R86, R178). -/
def cellSet (a : CharArgs) (c r : Nat) (s : State) : Bool :=
  rowBit s.params.glyphBit0IsTop (glyphColumn a.g c s) r

/-- The cell `(c, r)`: a `scale × scale` rectangle in the foreground colour where the bit is set, in the background colour where
it is not, unless the background is transparent (rule R178). -/
def drawCell (a : CharArgs) (c r : Nat) (s : State) : State :=
  let s := { s with col := c, row := r }
  if cellSet a c r s then fillRectOp (a.x + c * a.scale) (a.y + r * a.scale) a.scale a.scale a.fg s
  else if transparent a.fg a.bg then s
  else fillRectOp (a.x + c * a.scale) (a.y + r * a.scale) a.scale a.scale a.bg s

/-- The 40 cells in the order they are drawn: columns outside, rows inside, top to bottom (rule R178; decision D18). -/
def cellOrder : List (Nat × Nat) :=
  (List.range Config.glyphCols).flatMap (fun c => (List.range Config.glyphRows).map (fun r => (c, r)))

/-- The grid of cells (rule R178). -/
def drawGrid (a : CharArgs) (s : State) : State := cellOrder.foldl (fun s cr => drawCell a cr.1 cr.2 s) s

/-- The spacing column to the right of the glyph, when the background is not transparent (rule R178). -/
def drawSpacing (a : CharArgs) (s : State) : State :=
  if transparent a.fg a.bg then s
  else fillRectOp (a.x + Config.glyphCols * a.scale) a.y a.scale (Config.glyphRows * a.scale) a.bg s

/-- The effect of DRAWCHAR: nothing at all for a control character (rule R178). -/
def drawCharOp (a : CharArgs) (s : State) : State := if drawnGlyph a.g then drawSpacing a (drawGrid a s) else s

/-- DRAWCHAR (rule R178). -/
def execDrawChar (x y : Half) (g : Byte) (fg bg scale : Half) (s : State) : Host.Outcome State Fault Refusal :=
  if s.busSel then .refused .nestedBegin
  else if scale = 0 then .refused .zeroScale
  else
    finish (.drawn (drawnGlyph g))
      (drawCharOp { x := x.toNat, y := y.toNat, g := g, fg := fg, bg := bg, scale := scale.toNat } s)

end Sys2Proof.Machine
end

