-- ==== Sys2Proof/Machine/LineComposer.lean ====
section
/-! DEFINITION. The Line Composer: PRINTLINE (rules R210 to R216). -/

namespace Sys2Proof.Machine

/-- The operands of one PRINTLINE but its text. -/
structure LineArgs where
  x : Nat
  y : Nat
  fg : Half
  bg : Half
  scale : Nat
  deriving DecidableEq, Repr

/-- The column where the cursor restarts after a wrap (rule R212; decision D23). -/
def restartX (x : Nat) : WrapMode → Nat
  | .zero => 0
  | .initialX => x

/-- The wrap, tested just before a glyph is drawn (rule R212). -/
def wrapCursor (a : LineArgs) (s : State) : State :=
  if atMargin s.curX then
    { s with curX := restartX a.x s.params.wrapXMode, curY := s.curY + Config.lineAdv * a.scale }
  else s

/-- A glyph drawn at the cursor, which advances if it was drawn (rule R212). -/
def placeGlyph (a : LineArgs) (g : Byte) (s : State) : State :=
  let s := wrapCursor a s
  let s := drawCharOp { x := s.curX, y := s.curY, g := g, fg := a.fg, bg := a.bg, scale := a.scale } s
  if drawnGlyph g then { s with curX := s.curX + Config.cellAdv * a.scale } else s

/-- One byte of the text, at index `i` (rule R212). -/
def printByte (a : LineArgs) (i : Nat) (b : Byte) (s : State) : State :=
  let s := { s with pos := i }
  match decodeGlyph b s with
  | some g => placeGlyph a g (decodeOp b s)
  | none => decodeOp b s

/-- The bytes of the text from index `i` on (rule R212). -/
def printText (a : LineArgs) : Nat → List Byte → State → State
  | _, [], s => s
  | i, b :: bs, s => printText a (i + 1) bs (printByte a i b s)

/-- The effect of PRINTLINE (rule R212). -/
def printLineOp (a : LineArgs) (text : List Byte) (s : State) : State :=
  printText a 0 text { s with curX := a.x, curY := a.y }

/-- PRINTLINE (rule R212). -/
def execPrintLine (x y fg bg scale : Half) (text : List Byte) (s : State) : Host.Outcome State Fault Refusal :=
  if s.busSel then .refused .nestedBegin
  else if scale = 0 then .refused .zeroScale
  else finish .none (printLineOp { x := x.toNat, y := y.toNat, fg := fg, bg := bg, scale := scale.toNat } text s)

end Sys2Proof.Machine
end

