-- ==== Sys2Proof/Machine/Dispatch.lean ====
section
/-! DEFINITION. One arm per row of the opcode table (rules R81, R95). -/

namespace Sys2Proof.Machine

def exec (i : Instr) (s : State) : Host.Outcome State Fault Refusal :=
  match i with
  | .init => Sys2Proof.Machine.execInit s
  | .setPower on => Sys2Proof.Machine.execSetPower on s
  | .fillRect x y w h color => Sys2Proof.Machine.execFillRect x y w h color s
  | .blitImage x y w h data => Sys2Proof.Machine.execBlitImage x y w h data s
  | .drawChar x y g fg bg scale => Sys2Proof.Machine.execDrawChar x y g fg bg scale s
  | .printLine x y fg bg scale text => Sys2Proof.Machine.execPrintLine x y fg bg scale text s
  | .beginTx => Sys2Proof.Machine.execBeginTx s
  | .endTx => Sys2Proof.Machine.execEndTx s
  | .write dc bytes => Sys2Proof.Machine.execWrite dc bytes s
  | .setWindow x y w h => Sys2Proof.Machine.execSetWindow x y w h s
  | .fill color => Sys2Proof.Machine.execFill color s
  | .blit data => Sys2Proof.Machine.execBlit data s
  | .decode b => Sys2Proof.Machine.execDecode b s
  | .glyphCol g c => Sys2Proof.Machine.execGlyphCol g c s
  | .colAddrSet sh sl eh el => Sys2Proof.Machine.execColAddrSet sh sl eh el s
  | .rowAddrSet sh sl eh el => Sys2Proof.Machine.execRowAddrSet sh sl eh el s
  | .memWrite => Sys2Proof.Machine.execMemWrite s
  | .sleepIn => Sys2Proof.Machine.execSleepIn s
  | .sleepOut => Sys2Proof.Machine.execSleepOut s
  | .displayOn => Sys2Proof.Machine.execDisplayOn s
  | .displayOff => Sys2Proof.Machine.execDisplayOff s
  | .cfg n => Sys2Proof.Machine.execCfg n s

end Sys2Proof.Machine
end

