-- ==== Sys2Proof/WellFormed.lean ====
section
/-! DEFINITION. Which instructions have an encoding: a payload fits its length field (rules R94, R96), and `CFG[i]` names an
entry that `INIT_CFG` has (rule R148). Field values that rule R94 lists as refused are well formed: a descriptor can carry
them, and the operation that meets them answers `BadOperand`, `ZeroArea` or `ZeroScale`. -/

namespace Sys2Proof

/-- The payload of `write` and `printLine` is counted in 2 bytes, that of `blit` and `blitImage` in 4 (rule R94). -/
def Instr.wf (p : Params) : Instr → Bool
  | .blitImage _ _ _ _ data => decide (data.length < 2 ^ 32)
  | .blit data => decide (data.length < 2 ^ 32)
  | .printLine _ _ _ _ _ text => decide (text.length < 2 ^ 16)
  | .write _ bytes => decide (bytes.length < 2 ^ 16)
  | .cfg i => decide (i < p.initCfg.length)
  | .init | .setPower _ | .fillRect .. | .drawChar .. => true
  | .beginTx | .endTx | .setWindow .. | .fill _ | .decode _ | .glyphCol .. => true
  | .colAddrSet .. | .rowAddrSet .. | .memWrite | .sleepIn | .sleepOut | .displayOn | .displayOff => true

end Sys2Proof
end

