-- ==== Sys2Proof/Decode.lean ====
section
/-! DEFINITION. The descriptor decoder and encoder (rules R93 to R97), and the reading and spelling of a bus command frame
(rules R80 to R83). Multi-byte fields are big-endian (rule R93). The decoder cuts one descriptor off the program and gives
the rest back. -/

namespace Sys2Proof

/-- Why the descriptor decoder refuses (rules R96, R97). -/
inductive DecodeError where
  /-- an operation code with no operation -/
  | reservedOp
  /-- a descriptor that runs past the end of the program -/
  | truncated
  deriving DecidableEq, Repr

/-- A 2-byte field, high byte first (rule R93). -/
def be16 (hi lo : Byte) : Half := BitVec.ofNat 16 (256 * hi.toNat + lo.toNat)

/-- The value of a 4-byte length field, high byte first (rules R93, R94). -/
def be32 (b3 b2 b1 b0 : Byte) : Nat := 256 * (256 * (256 * b3.toNat + b2.toNat) + b1.toNat) + b0.toNat

/-- The two bytes of a 2-byte field, high byte first. -/
def bytes16 (n : Nat) : List Byte := [BitVec.ofNat 8 (n / 256), BitVec.ofNat 8 n]

/-- The four bytes of a 4-byte length field, high byte first. -/
def bytes32 (n : Nat) : List Byte :=
  [BitVec.ofNat 8 (n / 16777216), BitVec.ofNat 8 (n / 65536), BitVec.ofNat 8 (n / 256), BitVec.ofNat 8 n]

/-- A payload of `n` bytes cut off the front of `bs`, handed to `f`; refused when `bs` is shorter (rule R96). -/
def takePayload (f : List Byte → Instr) (n : Nat) (bs : List Byte) : Except DecodeError (Instr × List Byte) :=
  if n ≤ bs.length then .ok (f (bs.take n), bs.drop n) else .error .truncated

/-- The operand fields of the operation code `op`, in the layout of rule R96. -/
def decodeFields (op : Byte) (bs : List Byte) : Except DecodeError (Instr × List Byte) :=
  match op.toNat with
  | 0x01 => .ok (.init, bs)
  | 0x02 =>
    match bs with
    | on :: r => .ok (.setPower on, r)
    | _ => .error .truncated
  | 0x03 =>
    match bs with
    | x1 :: x0 :: y1 :: y0 :: w1 :: w0 :: h1 :: h0 :: c1 :: c0 :: r =>
      .ok (.fillRect (be16 x1 x0) (be16 y1 y0) (be16 w1 w0) (be16 h1 h0) (be16 c1 c0), r)
    | _ => .error .truncated
  | 0x04 =>
    match bs with
    | x1 :: x0 :: y1 :: y0 :: w1 :: w0 :: h1 :: h0 :: n3 :: n2 :: n1 :: n0 :: r =>
      takePayload (.blitImage (be16 x1 x0) (be16 y1 y0) (be16 w1 w0) (be16 h1 h0)) (be32 n3 n2 n1 n0) r
    | _ => .error .truncated
  | 0x05 =>
    match bs with
    | x1 :: x0 :: y1 :: y0 :: g :: f1 :: f0 :: b1 :: b0 :: s1 :: s0 :: r =>
      .ok (.drawChar (be16 x1 x0) (be16 y1 y0) g (be16 f1 f0) (be16 b1 b0) (be16 s1 s0), r)
    | _ => .error .truncated
  | 0x06 =>
    match bs with
    | x1 :: x0 :: y1 :: y0 :: f1 :: f0 :: b1 :: b0 :: s1 :: s0 :: n1 :: n0 :: r =>
      takePayload (.printLine (be16 x1 x0) (be16 y1 y0) (be16 f1 f0) (be16 b1 b0) (be16 s1 s0))
        (be16 n1 n0).toNat r
    | _ => .error .truncated
  | 0x10 => .ok (.beginTx, bs)
  | 0x11 => .ok (.endTx, bs)
  | 0x12 =>
    match bs with
    | dc :: n1 :: n0 :: r => takePayload (.write dc) (be16 n1 n0).toNat r
    | _ => .error .truncated
  | 0x13 =>
    match bs with
    | x1 :: x0 :: y1 :: y0 :: w1 :: w0 :: h1 :: h0 :: r =>
      .ok (.setWindow (be16 x1 x0) (be16 y1 y0) (be16 w1 w0) (be16 h1 h0), r)
    | _ => .error .truncated
  | 0x14 =>
    match bs with
    | c1 :: c0 :: r => .ok (.fill (be16 c1 c0), r)
    | _ => .error .truncated
  | 0x15 =>
    match bs with
    | n3 :: n2 :: n1 :: n0 :: r => takePayload .blit (be32 n3 n2 n1 n0) r
    | _ => .error .truncated
  | 0x16 =>
    match bs with
    | b :: r => .ok (.decode b, r)
    | _ => .error .truncated
  | 0x17 =>
    match bs with
    | g :: c :: r => .ok (.glyphCol g c, r)
    | _ => .error .truncated
  | _ => .error .reservedOp

/-- The descriptor at the start of a program, and what is left after it (rules R93, R97). -/
def decode : List Byte → Except DecodeError (Instr × List Byte)
  | [] => .error .truncated
  | op :: bs => decodeFields op bs

/-- The bus command frames of the three fixed rows (rules R82 to R84). -/
def decodeFixed (c : Byte) (ps : List Byte) : Option Instr :=
  if c = Config.cmdColAddrSet then
    match ps with
    | [sh, sl, eh, el] => some (.colAddrSet sh sl eh el)
    | _ => none
  else if c = Config.cmdRowAddrSet then
    match ps with
    | [sh, sl, eh, el] => some (.rowAddrSet sh sl eh el)
    | _ => none
  else if c = Config.cmdMemWrite ∧ ps = [] then some .memWrite
  else none

/-- The bus command frame `c` with parameters `ps` (rule R81): the fixed rows first, then the OPEN ones, then `INIT_CFG`, whose
entries may open with any byte (note N4). -/
def decodeCommand (p : Params) (c : Byte) (ps : List Byte) : Option Instr :=
  match decodeFixed c ps with
  | some i => some i
  | none =>
    if c = p.cmdSleepIn ∧ ps = [] then some .sleepIn
    else if c = p.cmdSleepOut ∧ ps = [] then some .sleepOut
    else if c = p.cmdDisplayOn ∧ ps = [] then some .displayOn
    else if c = p.cmdDisplayOff ∧ ps = [] then some .displayOff
    else (p.initCfg.findIdx? (fun e => decide (e = { cmd := c, params := ps }))).map .cfg

/-- A bus command frame as bytes: the command byte, then its parameter bytes (rule R80). -/
def decodeFrame (p : Params) : List Byte → Option Instr
  | [] => none
  | c :: ps => decodeCommand p c ps

/-- The bytes of a well-formed instruction: the descriptor of an operation (rule R96), the frame of a bus command (rules R80 to
R83). -/
def encode (p : Params) : Instr → List Byte
  | .init => [0x01]
  | .setPower on => [0x02, on]
  | .fillRect x y w h color =>
    0x03 :: (bytes16 x.toNat ++ bytes16 y.toNat ++ bytes16 w.toNat ++ bytes16 h.toNat ++ bytes16 color.toNat)
  | .blitImage x y w h data =>
    0x04 :: (bytes16 x.toNat ++ bytes16 y.toNat ++ bytes16 w.toNat ++ bytes16 h.toNat ++ bytes32 data.length ++ data)
  | .drawChar x y g fg bg scale =>
    0x05 :: (bytes16 x.toNat ++ bytes16 y.toNat ++ g :: (bytes16 fg.toNat ++ bytes16 bg.toNat ++ bytes16 scale.toNat))
  | .printLine x y fg bg scale text =>
    0x06 :: (bytes16 x.toNat ++ bytes16 y.toNat ++ bytes16 fg.toNat ++ bytes16 bg.toNat ++ bytes16 scale.toNat ++
      bytes16 text.length ++ text)
  | .beginTx => [0x10]
  | .endTx => [0x11]
  | .write dc bytes => 0x12 :: dc :: (bytes16 bytes.length ++ bytes)
  | .setWindow x y w h => 0x13 :: (bytes16 x.toNat ++ bytes16 y.toNat ++ bytes16 w.toNat ++ bytes16 h.toNat)
  | .fill color => 0x14 :: bytes16 color.toNat
  | .blit data => 0x15 :: (bytes32 data.length ++ data)
  | .decode b => [0x16, b]
  | .glyphCol g c => [0x17, g, c]
  | .colAddrSet sh sl eh el => [Config.cmdColAddrSet, sh, sl, eh, el]
  | .rowAddrSet sh sl eh el => [Config.cmdRowAddrSet, sh, sl, eh, el]
  | .memWrite => [Config.cmdMemWrite]
  | .sleepIn => [p.cmdSleepIn]
  | .sleepOut => [p.cmdSleepOut]
  | .displayOn => [p.cmdDisplayOn]
  | .displayOff => [p.cmdDisplayOff]
  | .cfg i =>
    match p.initCfg[i]? with
    | some e => e.cmd :: e.params
    | none => []

/-- The bytes of a table word, the first at its least significant end, followed by zeros up to the longest descriptor without
payload (13 bytes, rule R96). -/
def tableBytes (nbits w : Nat) : List Byte :=
  (List.range (nbits / 8)).map (fun i => BitVec.ofNat 8 (w / 256 ^ i)) ++ List.replicate 13 0

/-- The bytes of a bus command frame at the front of `bs`: four parameter bytes after 0x2A and 0x2B, none after the others (rule
R81). DESIGN CHOICE (log entry 29): bytes carry no end of a frame and the lengths in `INIT_CFG` are open, so a frame of `CFG[i]` that
has parameters is not recognised from bytes; it stands at the bus port as an instruction. -/
def frameOf : List Byte → List Byte
  | [] => []
  | c :: bs => if c = Config.cmdColAddrSet ∨ c = Config.cmdRowAddrSet then c :: bs.take 4 else [c]

/-- The instruction a table word stands for: a descriptor, or, for a byte that is no operation code, a bus command. -/
def decodeTableWord (nbits w : Nat) : Option Instr :=
  match decode (tableBytes nbits w) with
  | .ok (i, _) => some i
  | .error _ => decodeFrame Config.params (frameOf (tableBytes nbits w))

end Sys2Proof
end

