-- ==== Sys2Proof/Machine/Fetch.lean ====
section
/-! DEFINITION. Where the next instruction comes from: the bus command at the bus port if one stands there (log entry 2),
otherwise the descriptor at the start of the remaining program (rules R29, R93, R220). -/

namespace Sys2Proof.Machine

/-- The reason of rule R229 for what the descriptor decoder refuses. -/
def refusalOf : DecodeError → Refusal
  | .reservedOp => .reservedOp
  | .truncated => .truncatedDescriptor

/-- The descriptor at the start of the program; an exhausted program leaves the block idle (rules R241, R253). -/
def fetchProgram (s : State) : Fetched :=
  if s.prog = [] then .nothing
  else
    match decode s.prog with
    | .ok (i, rest) => .run i { s with prog := rest }
    | .error e => .reject (refusalOf e)

/-- The next instruction. -/
def fetch (s : State) : Fetched :=
  match s.busPort with
  | some i => .run i { s with busPort := none }
  | none => fetchProgram s

/-- The state with the instruction of these bytes placed where `fetch` looks next: a descriptor as the whole program, and the bus
command a frame stands for at the bus port. What is neither is placed as a program, where rule R97 refuses it. -/
def placeInstr (bytes : List Byte) (s : State) : State :=
  match decode bytes with
  | .ok (_, rest) => { s with prog := bytes.take (bytes.length - rest.length), busPort := none }
  | .error .reservedOp =>
    match decodeFrame s.params (frameOf bytes) with
    | some i => { s with busPort := some i }
    | none => { s with prog := bytes, busPort := none }
  | .error .truncated => { s with prog := bytes, busPort := none }

end Sys2Proof.Machine
end

