-- ==== Sys2Proof/Machine/Step.lean ====
section
/-! DEFINITION. One step: the next operation of the host run to completion (rules R29, R220). When the program is exhausted the
block is idle and keeps all its state (rule R241). -/

namespace Sys2Proof.Machine

/-- One step of the block. -/
def step (s : State) : Host.Outcome State Fault Refusal :=
  match fetch s with
  | .nothing => .next s
  | .run i t => exec i t
  | .reject r => .refused r

/-- The state with a table word placed as the next instruction (log entry 1). -/
def State.withFetchWord (s : State) (nbits w : Nat) : State := placeInstr (tableBytes nbits w) s

end Sys2Proof.Machine
end

