-- ==== Sys2Proof/Safety.lean ====
section
/-! DEFINITION. The terms claims are stated in: the projections of a trace (rule R9), the events each operation is to append,
what counts as a good state, and the laws of the spec as predicates. -/

namespace Sys2Proof.Machine

/-! ## Projections of a trace (rule R9) -/

/-- The tagged bytes of one event. -/
def eventBytes : Event → List (DC × Byte)
  | .wr dc bs => bs.map (fun b => (dc, b))
  | .rst _ | .wait _ | .sel _ => []

/-- `Bytes(T)` (rule R9). -/
def traceBytes (t : List Event) : List (DC × Byte) := t.flatMap eventBytes

/-- Whether an event is a bus write. -/
def isWrite : Event → Bool
  | .wr _ _ => true
  | .rst _ | .wait _ | .sel _ => false

/-- `Writes(T)` (rule R9). -/
def traceWrites (t : List Event) : List Event := t.filter isWrite

/-- The select level after one event, from the level before it; none when the event breaks the bracket law (rule R114). -/
def selAfter (level : Bool) : Event → Option Bool
  | .sel b => if b = level then none else some b
  | .wr _ _ => if level then some level else none
  | .rst _ | .wait _ => some level

/-- The select level after a trace that keeps the bracket law from the released level on; none when it breaks it. -/
def traceSel (t : List Event) : Option Bool := t.foldl (fun l e => l.bind (fun b => selAfter b e)) (some false)

/-- The block appends the events `es`, in order, and the controller reacts to each. -/
def emitAll (es : List Event) (s : State) : State :=
  { s with trace := s.trace ++ es, panel := es.foldl (Panel.observe s.params) s.panel }

/-! ## The events the rules say an operation appends -/

/-- The events of one command frame (rule R80). -/
def frameEvents (c : Byte) (ps : List Byte) : List Event := .wr .cmd [c] :: if ps = [] then [] else [.wr .dat ps]

/-- The events of INIT (rules R134, R256). -/
def initEvents (q : Params) : List Event :=
  [.rst true, .wait q.tRstAssert, .rst false, .wait q.tRstRelease, .sel true] ++
    q.initCfg.flatMap (fun e => frameEvents e.cmd e.params) ++
    [.wr .cmd [q.cmdSleepOut], .wr .cmd [q.cmdDisplayOn], .sel false]

/-- The events of SETPOWER with the command list `cs` (rule R143). -/
def powerEvents (cs : List Byte) : List Event := .sel true :: (cs.map (fun c => Event.wr .cmd [c]) ++ [.sel false])

/-- The events of SETWINDOW (rule R140). -/
def windowEvents (x y w h : Nat) : List Event :=
  [.wr .cmd [0x2A], .wr .dat [0x00, lo8 x, 0x00, lo8 (x + w - 1)], .wr .cmd [0x2B],
    .wr .dat [0x00, lo8 y, 0x00, lo8 (y + h - 1)], .wr .cmd [0x2C]]

/-- A stream cut into chunks of `cap` bytes, the last one what is left (rule R151); the fuel is the stream's length. -/
def cutChunks (cap : Nat) : Nat → List Byte → List (List Byte)
  | 0, _ => []
  | fuel + 1, bs => if bs = [] then [] else bs.take cap :: cutChunks cap fuel (bs.drop cap)

/-- The chunks of a stream (rule R151). -/
def chunksOf (cap : Nat) (bs : List Byte) : List (List Byte) := cutChunks cap bs.length bs

/-- The events of a pixel stream (rules R84, R151). -/
def streamEvents (cap : Nat) (bs : List Byte) : List Event := (chunksOf cap bs).map (fun c => Event.wr .dat c)

/-- A memory after a list of chunks was placed in it one after the other, each from address 0 on (rule R151). -/
def loadChunks (cs : List (List Byte)) (m : Memory) : Memory := cs.foldl (fun m c => m.writeRun 0 c) m

/-- `rep(n, [hi8(color), lo8(color)])` (rules R89, R153). -/
def colorStream (n : Nat) (color : Half) : List Byte := (List.replicate n (pixelBytes color)).flatten

/-- The events of FILLRECT (rule R157). -/
def rectEvents (cap x y w h : Nat) (color : Half) : List Event :=
  .sel true :: (windowEvents x y w h ++ streamEvents cap (colorStream (w * h) color) ++ [.sel false])

/-- The events of BLITIMAGE (rule R158). -/
def imageEvents (cap x y w h : Nat) (data : List Byte) : List Event :=
  .sel true :: (windowEvents x y w h ++ streamEvents cap (data.take (2 * w * h)) ++ [.sel false])

/-- A filled rectangle. -/
structure Rect where
  x : Nat
  y : Nat
  w : Nat
  h : Nat
  color : Half
  deriving DecidableEq, Repr

/-- The rectangle of the cell `cr` of a glyph, if it is drawn (rule R178). -/
def cellRect (a : CharArgs) (s : State) (cr : Nat × Nat) : Option Rect :=
  if cellSet a cr.1 cr.2 s then some { x := a.x + cr.1 * a.scale, y := a.y + cr.2 * a.scale, w := a.scale, h := a.scale, color := a.fg }
  else if a.bg = a.fg then none
  else some { x := a.x + cr.1 * a.scale, y := a.y + cr.2 * a.scale, w := a.scale, h := a.scale, color := a.bg }

/-- The rectangles of one DRAWCHAR, in order (rule R178). -/
def charRects (a : CharArgs) (s : State) : List Rect :=
  if a.g.toNat < 32 then []
  else
    cellOrder.filterMap (cellRect a s) ++
      if a.bg = a.fg then [] else [{ x := a.x + 5 * a.scale, y := a.y, w := a.scale, h := 8 * a.scale, color := a.bg }]

/-- Declared rectangles, one of which is not on the panel: the panel is marked refused (rules R63, R229; log entry 11). -/
def judgeRects (rs : List Rect) (s : State) : State :=
  { s with panel := if rs.all (fun r => onPanel r.x r.y r.w r.h) then s.panel else Panel.refused }

/-- Rectangles filled one after the other, each by its own FILLRECT. -/
def drawRects (rs : List Rect) (s : State) : State := rs.foldl (fun s r => fillRectOp r.x r.y r.w r.h r.color s) s

/-- Characters drawn one after the other, each by its own DRAWCHAR. -/
def drawCalls (cs : List CharArgs) (s : State) : State := cs.foldl (fun s a => drawCharOp a s) s

/-- Bit `b` of byte `c` of glyph `g` in `GLYPHROM`, read off the ROM (rules R51, R86). -/
def romBit (s : State) (g : Byte) (c b : Nat) : Bool := (s.glyphRom.byte .glyphRom (5 * g.toNat + c)).getLsbD b

/-- The number of set bits in the five bytes of a glyph (rule R178 (d)). -/
def glyphPopcount (s : State) (g : Byte) : Nat :=
  ((List.range 5).map (fun c => (List.range 8).countP (fun b => romBit s g c b))).sum

/-! ## The decoder and the composer over a whole text -/

/-- The decoder after a text (rule R199). -/
def decAfter (d : DecState) (text : List Byte) : DecState := text.foldl (fun d b => decodeNext b d) d

/-- The glyphs of the logical characters of a text that starts with a fresh character (rule R199): a byte below 127 is a character
by itself, a byte of 127 or more forms one with the byte after it. -/
def textGlyphs (remap : Byte → Byte → Option Byte) : List Byte → List Byte
  | [] => []
  | b :: rest =>
    if b.toNat < 127 then (if b.toNat < 32 then [] else [b]) ++ textGlyphs remap rest
    else
      match rest with
      | [] => []
      | c :: rest => (remap b c).toList ++ textGlyphs remap rest

/-- The glyphs a text resolves to from a decoder state: a pending lead byte takes the first byte as its trail (rule R214). -/
def glyphsFrom (remap : Byte → Byte → Option Byte) : DecState → List Byte → List Byte
  | .idle, text => textGlyphs remap text
  | .await _, [] => []
  | .await lead, b :: text => (remap lead b).toList ++ textGlyphs remap text

/-- DECODE for every byte of a text, one operation after the other: the glyphs reported, in order, and the last state. -/
def decodeAll : List Byte → State → Option (List Byte × State)
  | [], s => some ([], s)
  | b :: text, s =>
    match exec (.decode b) s with
    | .next t =>
      match t.result with
      | .glyph g => (decodeAll text t).map (fun r => (g.toList ++ r.1, r.2))
      | .none | .drawn _ | .column _ => none
    | .fault _ | .refused _ => none

/-- The DRAWCHAR calls of PRINTLINE for the resolved glyphs, with the cursor at `(x, y)` (rule R212). -/
def lineCalls (a : LineArgs) (mode : WrapMode) : Nat → Nat → List Byte → List CharArgs
  | _, _, [] => []
  | x, y, g :: gs =>
    let x' := if 234 ≤ x then restartX a.x mode else x
    let y' := if 234 ≤ x then y + 8 * a.scale else y
    { x := x', y := y', g := g, fg := a.fg, bg := a.bg, scale := a.scale } ::
      lineCalls a mode (if g.toNat < 32 then x' else x' + 6 * a.scale) y' gs

/-- The cursor after PRINTLINE has gone through the resolved glyphs (rule R212). -/
def lineEnd (a : LineArgs) (mode : WrapMode) : Nat → Nat → List Byte → Nat × Nat
  | x, y, [] => (x, y)
  | x, y, g :: gs =>
    let x' := if 234 ≤ x then restartX a.x mode else x
    let y' := if 234 ≤ x then y + 8 * a.scale else y
    lineEnd a mode (if g.toNat < 32 then x' else x' + 6 * a.scale) y' gs

/-- The position `(X_k, Y_k)` of the layout law (rule R213), `WRAP_X_MODE = ZERO`. -/
def layoutPos (x y scale : Nat) : Nat → Nat × Nat
  | 0 => if x < 234 then (x, y) else (0, y + 8 * scale)
  | k + 1 =>
    let p := layoutPos x y scale k
    if p.1 + 6 * scale < 234 then (p.1 + 6 * scale, p.2) else (0, p.2 + 8 * scale)

/-! ## Refusals -/

/-- The reason of rule R229 for which an instruction is refused, tested in the order of rule R230; none when it is done. -/
def refusalReason (i : Instr) (s : State) : Option Refusal :=
  match i with
  | .init => if s.busSel then some .nestedBegin else none
  | .setPower on => if s.busSel then some .nestedBegin else if 2 ≤ on.toNat then some .badOperand else none
  | .fillRect _ _ w h _ =>
    if s.busSel then some .nestedBegin else if w.toNat = 0 ∨ h.toNat = 0 then some .zeroArea else none
  | .blitImage _ _ w h data =>
    if s.busSel then some .nestedBegin
    else if w.toNat = 0 ∨ h.toNat = 0 then some .zeroArea
    else if data.length < 2 * w.toNat * h.toNat then some .shortSource
    else none
  | .drawChar _ _ _ _ _ scale => if s.busSel then some .nestedBegin else if scale.toNat = 0 then some .zeroScale else none
  | .printLine _ _ _ _ scale _ => if s.busSel then some .nestedBegin else if scale.toNat = 0 then some .zeroScale else none
  | .beginTx => if s.busSel then some .nestedBegin else none
  | .endTx => if s.busSel then none else some .endWithoutBegin
  | .write dc _ => if s.busSel then (if 2 ≤ dc.toNat then some .badOperand else none) else some .writeUnselected
  | .setWindow _ _ w h =>
    if s.busSel then (if w.toNat = 0 ∨ h.toNat = 0 then some .zeroArea else none) else some .writeUnselected
  | .fill _ => if s.busSel then (if s.win.isOpen then none else some .noOpenWindow) else some .writeUnselected
  | .blit data =>
    if s.busSel then
      if s.win.isOpen then (if data.length < 2 * s.win.w * s.win.h then some .shortSource else none) else some .noOpenWindow
    else some .writeUnselected
  | .decode _ => none
  | .glyphCol _ c => if 4 < c.toNat then some .badOperand else none
  | .colAddrSet .. | .rowAddrSet .. | .memWrite | .sleepIn | .sleepOut | .displayOn | .displayOff =>
    if s.busSel then none else some .writeUnselected
  | .cfg n => if s.busSel then (if n < s.params.initCfg.length then none else some .badOperand) else some .writeUnselected

/-! ## Good states -/

/-- Every memory is in its canonical form. -/
abbrev State.memoriesWf (s : State) : Prop := s.glyphRom.wf ∧ s.txbuf.wf ∧ s.panel.frame.wf

/-- Every register fits the width rules R20 and R28 give it, between operations; `IDX` has room for `len(INIT_CFG)`. -/
abbrev State.fits (s : State) : Prop :=
  s.win.x < 2 ^ 40 ∧ s.win.y < 2 ^ 40 ∧ s.win.w < 2 ^ 40 ∧ s.win.h < 2 ^ 40 ∧ streamBytes s.win.w s.win.h < 2 ^ 37 ∧
  s.rem < 2 ^ 40 ∧ s.off < 2 ^ 40 ∧ s.col < 2 ^ 3 ∧ s.row < 2 ^ 3 ∧ s.curX < 2 ^ 40 ∧ s.curY < 2 ^ 40 ∧
  s.pos < 2 ^ 16 ∧ s.idx ≤ s.params.initCfg.length

/-- The bus port holds a bus command, if anything (log entry 2). -/
abbrev State.portOk (s : State) : Prop := ∀ i, s.busPort = some i → i.isOperation = false

/-- The bracket law (rule R114): the trace keeps it, and its level is `BUS.sel`. -/
abbrev State.bracketLaw (s : State) : Prop := traceSel s.trace = some s.busSel

/-- While a window is open, a bracket is open and the last byte sent is the command 0x2C (rule R141). -/
abbrev State.windowLaw (s : State) : Prop :=
  s.win.isOpen = true → s.busSel = true ∧ (traceBytes s.trace).getLast? = some (.cmd, 0x2C)

/-- A pending lead byte is at least 127 (rules R197, R198). -/
abbrev State.leadOk (s : State) : Prop := ∀ l, s.dec = .await l → 127 ≤ l.toNat

/-- The controller is a function of the trace (rule R11; log entry 13), unless a window outside the panel was declared, which marks it
refused (log entry 11). -/
abbrev State.panelReplays (s : State) : Prop := s.panel = Panel.refused ∨ s.panel = Panel.replay s.params s.trace

/-- The controller takes pixels as rule R58 says: an INIT has completed, it is out of sleep, and no command is in progress. -/
abbrev Panel.accepts (p : Panel) : Prop := p.phase = .ready ∧ p.mode = .idle ∧ p.asleep = false

end Sys2Proof.Machine
end

