-- ==== Sys2Proof/Certificates/Slice0/Obligations.lean ====
section
/-! DEFINITION. The statements for the provers. Each docstring names the rules of spec/ it formalises. -/

open Sys2Proof Sys2Proof.Machine

/-! ## Encoding and fetching -/

/-- R93, R96: the descriptor of every well-formed operation, whatever follows it in the program, decodes to that operation and
leaves what follows. Every operand at every value. -/
def Obligations.DescriptorsRoundTrip : Prop :=
  ∀ (p : Params) (i : Instr) (rest : List Byte), i.isOperation = true → i.wf p = true →
    decode (encode p i ++ rest) = .ok (i, rest)

/-- R93, R96: a descriptor has one reading and one spelling: what decodes is the encoding of what it decodes to. -/
def Obligations.DescriptorsHaveOneSpelling : Prop :=
  ∀ (p : Params) (bs rest : List Byte) (i : Instr), decode bs = .ok (i, rest) →
    bs = encode p i ++ rest ∧ i.isOperation = true ∧ i.wf p = true

/-- R80 to R84, R148: the frame of every well-formed bus command is read back as a bus command with the same frame, whatever the OPEN
bytes are; as the same one when the seven command bytes differ; and an entry of `INIT_CFG` whose frame is no other row's frame as an
entry with that content. Which row a frame that several rows share is read as is the model's: the first in the table's order, so a
named row also where an entry of `INIT_CFG` has that very frame (log entry 2). -/
def Obligations.FramesRoundTrip : Prop :=
  ∀ (p : Params) (i : Instr), i.isOperation = false → i.wf p = true →
    (∃ j, decodeFrame p (encode p i) = some j ∧ j.isOperation = false ∧ j.wf p = true ∧ encode p j = encode p i) ∧
    (p.distinctCmds → (∀ n, i ≠ .cfg n) → decodeFrame p (encode p i) = some i) ∧
    (∀ (n : Nat) (e : CfgEntry), i = .cfg n → p.initCfg[n]? = some e →
      (∀ j : Instr, j.isOperation = false → (∀ m, j ≠ .cfg m) → encode p j ≠ encode p i) →
      ∃ m, decodeFrame p (encode p i) = some (.cfg m) ∧ p.initCfg[m]? = some e)

/-- R97: the operation codes 0x00, 0x07 to 0x0F and 0x18 to 0xFF are reserved, and a step that meets one is refused `ReservedOp`; the
field values above the range of `on`, `dc` and `c` are refused `BadOperand`. -/
def Obligations.ReservedEncodingsAreRefused : Prop :=
  (∀ (s : State) (op : Byte) (bs : List Byte), s.busPort = none → s.prog = op :: bs →
    (op.toNat = 0 ∨ 7 ≤ op.toNat ∧ op.toNat ≤ 0x0F ∨ 0x18 ≤ op.toNat) → step s = .refused .reservedOp) ∧
  (∀ (s : State) (v : Byte), s.busSel = false → 2 ≤ v.toNat → exec (.setPower v) s = .refused .badOperand) ∧
  (∀ (s : State) (v : Byte) (bs : List Byte), s.busSel = true → 2 ≤ v.toNat → exec (.write v bs) s = .refused .badOperand) ∧
  (∀ (s : State) (g v : Byte), 5 ≤ v.toNat → exec (.glyphCol g v) s = .refused .badOperand)

/-- R96: a descriptor that runs past the end of the program is refused `TruncatedDescriptor`, however much of it is there. -/
def Obligations.CutDescriptorsAreRefused : Prop :=
  ∀ (s : State) (i : Instr) (n : Nat), i.isOperation = true → i.wf s.params = true → 0 < n →
    n < (encode s.params i).length → s.busPort = none → s.prog = (encode s.params i).take n →
    step s = .refused .truncatedDescriptor

/-- R96 (layout), `95_test_vectors.md` section 9: a few descriptors spelled byte by byte, and the two address commands of the bus. -/
def Obligations.SpelledWordsDecode : Prop :=
  decode [0x01] = .ok (.init, []) ∧ decode [0x02, 0x01] = .ok (.setPower 1, []) ∧
  decode [0x03, 0x00, 0x0A, 0x00, 0x14, 0x00, 0x03, 0x00, 0x02, 0xF8, 0x00] = .ok (.fillRect 10 20 3 2 0xF800, []) ∧
  decode [0x05, 0x00, 0x64, 0x00, 0x32, 0x41, 0xFF, 0xFF, 0x00, 0x00, 0x00, 0x01] =
    .ok (.drawChar 100 50 65 0xFFFF 0 1, []) ∧
  decode [0x06, 0x00, 0x0A, 0x00, 0x14, 0xFF, 0xFF, 0x00, 0x00, 0x00, 0x01, 0x00, 0x01, 0x41] =
    .ok (.printLine 10 20 0xFFFF 0 1 [0x41], []) ∧
  decode [0x12, 0x01, 0x00, 0x02, 0xDE, 0xAD] = .ok (.write 1 [0xDE, 0xAD], []) ∧
  decode [0x16, 0xC3] = .ok (.decode 0xC3, []) ∧ decode [0x17, 0x41, 0x02] = .ok (.glyphCol 65 2, []) ∧
  (∀ p : Params, decodeFrame p [0x2A, 0, 10, 0, 12] = some (.colAddrSet 0 10 0 12) ∧
    decodeFrame p [0x2B, 0, 20, 0, 21] = some (.rowAddrSet 0 20 0 21))

/-- R29, R93, R220: a step runs the instruction the bytes at the head of the program decode to, on the state whose program is what
follows them. Around it the model's own: a bus command at the bus port goes first and is taken from the port, where placing its frame
puts it (log entry 2), and an exhausted program leaves the state as it is (log entry 1). -/
def Obligations.StepRunsTheDecodedInstruction : Prop :=
  (∀ (s : State) (i : Instr) (rest : List Byte), s.busPort = none → decode s.prog = .ok (i, rest) →
    step s = exec i { s with prog := rest }) ∧
  (∀ (s : State) (i : Instr), s.busPort = some i → step s = exec i { s with busPort := none }) ∧
  (∀ (s : State) (i : Instr) (bytes : List Byte), decode bytes = .error .reservedOp →
    decodeFrame s.params (frameOf bytes) = some i → step (placeInstr bytes s) = exec i { s with busPort := none }) ∧
  (∀ s : State, s.busPort = none → s.prog = [] → step s = .next s)

/-! ## What each instruction does -/

/-- R229, R230: an operation is refused exactly when a condition of rule R229 holds, with that reason, tested in the order of rule
R230; in every other case it is done, and nothing else can happen. The model's own: the order of `BadOperand` (log entry 23), and the
clauses of the bus commands, which rule R229 does not name: refused outside a bracket (log entry 26), and for an index that `INIT_CFG`
does not have (log entry 24). -/
def Obligations.RefusedExactlyAsListed : Prop :=
  ∀ (i : Instr) (s : State),
    (∀ r, refusalReason i s = some r → exec i s = .refused r) ∧
    (refusalReason i s = none → ∃ t, exec i s = .next t)

/-- R111: BEGIN, its encoding, its effect and its refusal. Nothing but `BUS.sel`, the trace and what the controller makes of it (and
the model's result field) changes. -/
def Obligations.BeginOpensTheBracket : Prop :=
  ∀ s : State,
    (∀ rest, decode (0x10 :: rest) = .ok (.beginTx, rest)) ∧
    (s.busSel = false → exec .beginTx s = .next { emitAll [.sel true] s with busSel := true, result := .none }) ∧
    (s.busSel = true → exec .beginTx s = .refused .nestedBegin)

/-- R112: END, its encoding, its effect and its refusal; the window is closed, its origin and size stay. -/
def Obligations.EndClosesTheBracket : Prop :=
  ∀ s : State,
    (∀ rest, decode (0x11 :: rest) = .ok (.endTx, rest)) ∧
    (s.busSel = true → exec .endTx s =
      .next { emitAll [.sel false] s with busSel := false, win := { s.win with isOpen := false }, result := .none }) ∧
    (s.busSel = false → exec .endTx s = .refused .endWithoutBegin)

/-- R113: WRITE sends exactly its bytes, in order, with its tag (0 `CMD`, 1 `DAT`); a write of length 0 leaves no event; `WIN.open` is
not touched; outside a bracket it is refused. -/
def Obligations.WriteSendsItsBytes : Prop :=
  ∀ (s : State) (bs : List Byte),
    (s.busSel = true → exec (.write 0 bs) s = .next { emitAll (if bs = [] then [] else [.wr .cmd bs]) s with result := .none }) ∧
    (s.busSel = true → exec (.write 1 bs) s = .next { emitAll (if bs = [] then [] else [.wr .dat bs]) s with result := .none }) ∧
    (∀ dc, s.busSel = false → exec (.write dc bs) s = .refused .writeUnselected)

/-- R134: INIT, its encoding, its effect and its refusal: the reset pulse with its delays, the bracket, the configuration frames in
order, sleep-out, display-on. `RSTL` and `BUS.sel` end 0 and `WIN.open` is cleared; the dead
register `IDX` keeps the last index (log entry 4). -/
def Obligations.InitCompletes : Prop :=
  ∀ s : State,
    (∀ rest, decode (0x01 :: rest) = .ok (.init, rest)) ∧
    (s.busSel = false → exec .init s =
      .next { emitAll (initEvents s.params) s with
        busSel := false
        rstl := false
        win := { s.win with isOpen := false }
        idx := if s.params.initCfg = [] then s.idx else s.params.initCfg.length - 1
        result := .none }) ∧
    (s.busSel = true → exec .init s = .refused .nestedBegin)

/-- R135: the golden sequence. The bytes one INIT sends are, in order, the command and the parameters of every entry of `INIT_CFG`,
then sleep-out, then display-on; nothing is added, dropped or reordered. -/
def Obligations.InitSendsTheGoldenSequence : Prop :=
  ∀ s : State, s.busSel = false →
    ∃ (t : State) (es : List Event), exec .init s = .next t ∧ t.trace = s.trace ++ es ∧
      traceBytes es =
        s.params.initCfg.flatMap (fun e => (DC.cmd, e.cmd) :: e.params.map (fun b => (DC.dat, b))) ++
          [(.cmd, s.params.cmdSleepOut), (.cmd, s.params.cmdDisplayOn)]

/-- R136, R252: INIT leaves the decoder, every byte of `TXBUF` and the recorded window alone; it only closes the window. -/
def Obligations.InitLeavesTheBlockAlone : Prop :=
  ∀ s : State, s.busSel = false →
    ∃ t : State, exec .init s = .next t ∧ t.dec = s.dec ∧ (∀ a, t.txbuf.read a = s.txbuf.read a) ∧
      t.win = { s.win with isOpen := false }

/-- R143: SETPOWER, its effect and its refusals: one bracket with the commands of the list for `on`. -/
def Obligations.SetPowerCompletes : Prop :=
  ∀ s : State,
    (s.busSel = false → exec (.setPower 1) s =
      .next { emitAll (powerEvents s.params.pwrOnCmds) s with
        busSel := false, win := { s.win with isOpen := false }, result := .none }) ∧
    (s.busSel = false → exec (.setPower 0) s =
      .next { emitAll (powerEvents s.params.pwrOffCmds) s with
        busSel := false, win := { s.win with isOpen := false }, result := .none }) ∧
    (∀ on, s.busSel = true → exec (.setPower on) s = .refused .nestedBegin) ∧
    (∀ on : Byte, s.busSel = false → 2 ≤ on.toNat → exec (.setPower on) s = .refused .badOperand)

/-- R140, R141: SETWINDOW, its effect and its refusals: the last bytes sent are the eleven of rule R141, in five writes, each address
byte truncated to 8 bits; the recorded window is the exact one, and open. The block sends an off-panel window like any other; the panel is
marked refused (R63; log entry 11). -/
def Obligations.SetWindowCompletes : Prop :=
  ∀ (s : State) (x y w h : Half),
    (s.busSel = true → w ≠ 0 → h ≠ 0 →
      exec (.setWindow x y w h) s =
        .next { emitAll (windowEvents x.toNat y.toNat w.toNat h.toNat) (judgeWindow x.toNat y.toNat w.toNat h.toNat s) with
          win := { x := x.toNat, y := y.toNat, w := w.toNat, h := h.toNat, isOpen := true }, result := .none } ∧
      traceBytes (windowEvents x.toNat y.toNat w.toNat h.toNat) =
        [(.cmd, 0x2A), (.dat, 0x00), (.dat, BitVec.ofNat 8 x.toNat), (.dat, 0x00),
          (.dat, BitVec.ofNat 8 (x.toNat + w.toNat - 1)), (.cmd, 0x2B), (.dat, 0x00), (.dat, BitVec.ofNat 8 y.toNat),
          (.dat, 0x00), (.dat, BitVec.ofNat 8 (y.toNat + h.toNat - 1)), (.cmd, 0x2C)]) ∧
    (s.busSel = false → exec (.setWindow x y w h) s = .refused .writeUnselected) ∧
    (s.busSel = true → w = 0 ∨ h = 0 → exec (.setWindow x y w h) s = .refused .zeroArea)

/-- R80, R81, R131, R132: each of the eight bus commands sends its frame inside a bracket and closes the window; outside a bracket it
is refused. As an instruction of its own a bus command is the model's (log entries 2, 26). -/
def Obligations.BusCommandsComplete : Prop :=
  ∀ (s : State) (i : Instr) (c : Byte) (ps : List Byte),
    ((∃ sh sl eh el, i = .colAddrSet sh sl eh el ∧ c = 0x2A ∧ ps = [sh, sl, eh, el]) ∨
      (∃ sh sl eh el, i = .rowAddrSet sh sl eh el ∧ c = 0x2B ∧ ps = [sh, sl, eh, el]) ∨
      (i = .memWrite ∧ c = 0x2C ∧ ps = []) ∨ (i = .sleepIn ∧ c = s.params.cmdSleepIn ∧ ps = []) ∨
      (i = .sleepOut ∧ c = s.params.cmdSleepOut ∧ ps = []) ∨ (i = .displayOn ∧ c = s.params.cmdDisplayOn ∧ ps = []) ∨
      (i = .displayOff ∧ c = s.params.cmdDisplayOff ∧ ps = []) ∨
      (∃ n, i = .cfg n ∧ s.params.initCfg[n]? = some { cmd := c, params := ps })) →
    (s.busSel = true → exec i s =
      .next { emitAll (frameEvents c ps) s with win := { s.win with isOpen := false }, result := .none }) ∧
    (s.busSel = false → exec i s = .refused .writeUnselected)

/-- R151: a stream is cut into chunks in order: their number is the ceiling of the byte count over the capacity, each but the last has
exactly the capacity, the last what is left, and together they are the stream. -/
def Obligations.ChunksCutTheStream : Prop :=
  ∀ (cap : Nat) (bs : List Byte), 1 ≤ cap →
    (chunksOf cap bs).flatten = bs ∧ (chunksOf cap bs).length = (bs.length + cap - 1) / cap ∧
    ∀ k c, (chunksOf cap bs)[k]? = some c →
      (k + 1 < (chunksOf cap bs).length → c.length = cap) ∧
      (k + 1 = (chunksOf cap bs).length → c.length = bs.length - cap * k ∧ 1 ≤ c.length ∧ c.length ≤ cap)

/-- R152: FILL and its refusals: the chunks of the colour stream of the declared window; `REM` ends 0, the window is closed and its
origin and size stay. The content of the dead registers and of `TXBUF` is the model's observation (log entries 4, 5). -/
def Obligations.FillCompletes : Prop :=
  ∀ (s : State) (color : Half), s.params.ok →
    (s.busSel = true → s.win.isOpen = true →
      exec (.fill color) s =
        .next { emitAll (streamEvents s.params.txbufCap (colorStream (s.win.w * s.win.h) color)) s with
          win := { s.win with isOpen := false }
          rem := 0
          txbuf := loadChunks (chunksOf s.params.txbufCap (colorStream (s.win.w * s.win.h) color)) s.txbuf
          result := .none }) ∧
    (s.busSel = false → exec (.fill color) s = .refused .writeUnselected) ∧
    (s.busSel = true → s.win.isOpen = false → exec (.fill color) s = .refused .noOpenWindow)

/-- R153: the events one FILL appends send the colour, high byte first, once for every pixel of the window, in
`ceil(2 × WIN.w × WIN.h / TXBUF_CAP)` events. -/
def Obligations.FillStreamLaw : Prop :=
  ∀ (s : State) (color : Half), s.params.ok → s.busSel = true → s.win.isOpen = true →
    ∃ (t : State) (es : List Event), exec (.fill color) s = .next t ∧ t.trace = s.trace ++ es ∧
      traceBytes es =
        (List.replicate (s.win.w * s.win.h)
          [(DC.dat, BitVec.ofNat 8 (color.toNat / 256)), (DC.dat, BitVec.ofNat 8 color.toNat)]).flatten ∧
      es.length = (2 * s.win.w * s.win.h + s.params.txbufCap - 1) / s.params.txbufCap

/-- R154: BLIT and its refusals: the chunks of the first `2 × WIN.w × WIN.h` bytes of the buffer; the dead register `OFF` keeps what
the stream left (log entry 4). -/
def Obligations.BlitCompletes : Prop :=
  ∀ (s : State) (data : List Byte), s.params.ok →
    (s.busSel = true → s.win.isOpen = true → 2 * s.win.w * s.win.h ≤ data.length →
      exec (.blit data) s =
        .next { emitAll (streamEvents s.params.txbufCap (data.take (2 * s.win.w * s.win.h))) s with
          win := { s.win with isOpen := false }
          rem := 0
          off := 2 * s.win.w * s.win.h
          txbuf := loadChunks (chunksOf s.params.txbufCap (data.take (2 * s.win.w * s.win.h))) s.txbuf
          result := .none }) ∧
    (s.busSel = false → exec (.blit data) s = .refused .writeUnselected) ∧
    (s.busSel = true → s.win.isOpen = false → exec (.blit data) s = .refused .noOpenWindow) ∧
    (s.busSel = true → s.win.isOpen = true → data.length < 2 * s.win.w * s.win.h →
      exec (.blit data) s = .refused .shortSource)

/-- R155: the round trip. BLIT of an `N`-pixel buffer issues `ceil(2N / TXBUF_CAP)` writes tagged `DAT` whose bytes, concatenated, are
the buffer. -/
def Obligations.BlitRoundTrip : Prop :=
  ∀ (s : State) (data : List Byte), s.params.ok → s.busSel = true → s.win.isOpen = true →
    data.length = 2 * (s.win.w * s.win.h) →
    ∃ (t : State) (cs : List (List Byte)), exec (.blit data) s = .next t ∧
      t.trace = s.trace ++ cs.map (fun c => Event.wr .dat c) ∧ cs.flatten = data ∧
      cs.length = (2 * (s.win.w * s.win.h) + s.params.txbufCap - 1) / s.params.txbufCap

/-- R156: the content of `TXBUF` after a stream `bs` of `n` bytes: the last chunk at the front, the tail of the chunk before it after
it, and every byte at or above `min(C, n)` as before. -/
def Obligations.TxbufAfterAStream : Prop :=
  ∀ (cap : Nat) (bs : List Byte) (m : Memory), 1 ≤ cap → bs ≠ [] →
    let k := (bs.length + cap - 1) / cap
    let last := bs.length - cap * (k - 1)
    (∀ a, a < last → (loadChunks (chunksOf cap bs) m).read a = bs[cap * (k - 1) + a]?) ∧
    (∀ a, last ≤ a → a < min cap bs.length → (loadChunks (chunksOf cap bs) m).read a = bs[cap * (k - 2) + a]?) ∧
    (∀ a, min cap bs.length ≤ a → (loadChunks (chunksOf cap bs) m).read a = m.read a)

/-- R157, R63: FILLRECT and its refusals, with the number of bytes it puts on the bus. An off-panel window marks the panel refused (log
entry 11); the dead register `REM` and the content of `TXBUF` afterwards are the model's observation (log entries 4, 5). -/
def Obligations.FillRectCompletes : Prop :=
  ∀ (s : State) (x y w h color : Half), s.params.ok →
    (s.busSel = false → w ≠ 0 → h ≠ 0 →
      exec (.fillRect x y w h color) s =
        .next { emitAll (rectEvents s.params.txbufCap x.toNat y.toNat w.toNat h.toNat color)
            (judgeWindow x.toNat y.toNat w.toNat h.toNat s) with
          busSel := false
          win := { x := x.toNat, y := y.toNat, w := w.toNat, h := h.toNat, isOpen := false }
          rem := 0
          txbuf := loadChunks (chunksOf s.params.txbufCap (colorStream (w.toNat * h.toNat) color)) s.txbuf
          result := .none } ∧
      (traceBytes (rectEvents s.params.txbufCap x.toNat y.toNat w.toNat h.toNat color)).length =
        11 + 2 * w.toNat * h.toNat) ∧
    (s.busSel = true → exec (.fillRect x y w h color) s = .refused .nestedBegin) ∧
    (s.busSel = false → w = 0 ∨ h = 0 → exec (.fillRect x y w h color) s = .refused .zeroArea)

/-- R101, R157: FILLRECT is BEGIN, SETWINDOW, FILL, END, one operation after the other; none of the four refuses. -/
def Obligations.FillRectIsItsExpansion : Prop :=
  ∀ (s : State) (x y w h color : Half), s.params.ok → s.busSel = false → w ≠ 0 → h ≠ 0 →
    ∃ s1 s2 s3 s4 : State, exec .beginTx s = .next s1 ∧ exec (.setWindow x y w h) s1 = .next s2 ∧
      exec (.fill color) s2 = .next s3 ∧ exec .endTx s3 = .next s4 ∧ exec (.fillRect x y w h color) s = .next s4

/-- R158, R63: BLITIMAGE and its refusals, with the number of bytes it puts on the bus. An off-panel window marks the panel refused (log
entry 11); the dead registers `REM` and `OFF` and the content of `TXBUF` afterwards are the model's observation (log entries 4, 5). -/
def Obligations.BlitImageCompletes : Prop :=
  ∀ (s : State) (x y w h : Half) (data : List Byte), s.params.ok →
    (s.busSel = false → w ≠ 0 → h ≠ 0 → 2 * w.toNat * h.toNat ≤ data.length →
      exec (.blitImage x y w h data) s =
        .next { emitAll (imageEvents s.params.txbufCap x.toNat y.toNat w.toNat h.toNat data)
            (judgeWindow x.toNat y.toNat w.toNat h.toNat s) with
          busSel := false
          win := { x := x.toNat, y := y.toNat, w := w.toNat, h := h.toNat, isOpen := false }
          rem := 0
          off := 2 * w.toNat * h.toNat
          txbuf := loadChunks (chunksOf s.params.txbufCap (data.take (2 * w.toNat * h.toNat))) s.txbuf
          result := .none } ∧
      (traceBytes (imageEvents s.params.txbufCap x.toNat y.toNat w.toNat h.toNat data)).length =
        11 + 2 * w.toNat * h.toNat) ∧
    (s.busSel = true → exec (.blitImage x y w h data) s = .refused .nestedBegin) ∧
    (s.busSel = false → w = 0 ∨ h = 0 → exec (.blitImage x y w h data) s = .refused .zeroArea) ∧
    (s.busSel = false → w ≠ 0 → h ≠ 0 → data.length < 2 * w.toNat * h.toNat →
      exec (.blitImage x y w h data) s = .refused .shortSource)

/-- R101, R158: BLITIMAGE is BEGIN, SETWINDOW, BLIT, END, one operation after the other; none of the four refuses. -/
def Obligations.BlitImageIsItsExpansion : Prop :=
  ∀ (s : State) (x y w h : Half) (data : List Byte), s.params.ok → s.busSel = false → w ≠ 0 → h ≠ 0 →
    2 * w.toNat * h.toNat ≤ data.length →
    ∃ s1 s2 s3 s4 : State, exec .beginTx s = .next s1 ∧ exec (.setWindow x y w h) s1 = .next s2 ∧
      exec (.blit data) s2 = .next s3 ∧ exec .endTx s3 = .next s4 ∧ exec (.blitImage x y w h data) s = .next s4

/-- R176: GLYPHCOL returns the ROM byte at `5 × g + c` and changes nothing; a column above 4 is refused. -/
def Obligations.GlyphColReadsTheRom : Prop :=
  ∀ (s : State) (g c : Byte),
    (∀ rest, decode (0x17 :: g :: c :: rest) = .ok (.glyphCol g c, rest)) ∧
    (c.toNat ≤ 4 → exec (.glyphCol g c) s =
      .next { s with result := .column (s.glyphRom.byte .glyphRom (5 * g.toNat + c.toNat)) }) ∧
    (4 < c.toNat → exec (.glyphCol g c) s = .refused .badOperand)

/-- R178: DRAWCHAR and its refusals. For a control index nothing is drawn and the result is false; for every other index the cells and
the spacing column are drawn, each as one FILLRECT, in the order `DrawCharCounts` says in numbers, and the result is true. The dead registers `COL` and `ROW` keep the
last cell (log entry 4). -/
def Obligations.DrawCharCompletes : Prop :=
  ∀ (s : State) (x y : Half) (g : Byte) (fg bg scale : Half), s.params.ok →
    let a : CharArgs := { x := x.toNat, y := y.toNat, g := g, fg := fg, bg := bg, scale := scale.toNat }
    (s.busSel = false → scale ≠ 0 → g.toNat < 32 →
      exec (.drawChar x y g fg bg scale) s = .next { s with result := .drawn false }) ∧
    (s.busSel = false → scale ≠ 0 → 32 ≤ g.toNat →
      exec (.drawChar x y g fg bg scale) s =
        .next { drawRects (charRects a s) s with col := 4, row := 7, result := .drawn true }) ∧
    (s.busSel = true → exec (.drawChar x y g fg bg scale) s = .refused .nestedBegin) ∧
    (s.busSel = false → scale = 0 → exec (.drawChar x y g fg bg scale) s = .refused .zeroScale)

/-- R178, R180: what one DRAWCHAR appends to the trace, at any corner and scale, also one that PRINTLINE supplies and that
exceeds 16 bits. The events are those of one rectangle after the other, each in its own bracket, each address byte the low 8 bits of
the exact coordinate: 41 of them when opaque, one for every set bit of the glyph's five bytes when transparent; so many bytes go out,
and the recorded window ends as the last rectangle, exactly. The rectangles are drawn column by column, each column top to bottom:
when opaque, number `8 × c + r` is the cell of column `c` and row `r`, foreground where its bit is set, and number 40 the spacing
column; when transparent, those of the set bits in the same order. DRAWCHAR as an instruction appends the same. -/
def Obligations.DrawCharCounts : Prop :=
  ∀ (a : CharArgs) (s : State), s.params.ok → 32 ≤ a.g.toNat →
    let isSet : Nat → Nat → Bool := fun c r => romBit s a.g c (if s.params.glyphBit0IsTop then r else 7 - r)
    (∃ es, (drawCharOp a s).trace = s.trace ++ es ∧
      es = (charRects a s).flatMap (fun r => rectEvents s.params.txbufCap r.x r.y r.w r.h r.color) ∧
      es.count (.sel true) = es.count (.sel false) ∧
      (a.bg ≠ a.fg → es.count (.sel true) = 41 ∧
        (traceBytes es).length = 40 * (11 + 2 * a.scale ^ 2) + (11 + 16 * a.scale ^ 2) ∧
        (drawCharOp a s).win = { x := a.x + 5 * a.scale, y := a.y, w := a.scale, h := 8 * a.scale, isOpen := false }) ∧
      (a.bg = a.fg → es.count (.sel true) = glyphPopcount s a.g ∧
        (traceBytes es).length = glyphPopcount s a.g * (11 + 2 * a.scale ^ 2))) ∧
    (a.bg ≠ a.fg → (charRects a s).length = 41 ∧
      (∀ c r : Nat, c < 5 → r < 8 → (charRects a s)[8 * c + r]? =
        some { x := a.x + c * a.scale, y := a.y + r * a.scale, w := a.scale, h := a.scale,
               color := if isSet c r then a.fg else a.bg }) ∧
      (charRects a s)[40]? =
        some { x := a.x + 5 * a.scale, y := a.y, w := a.scale, h := 8 * a.scale, color := a.bg }) ∧
    (a.bg = a.fg → charRects a s =
      ((List.range 40).filter (fun k => isSet (k / 8) (k % 8))).map (fun k =>
        { x := a.x + k / 8 * a.scale, y := a.y + k % 8 * a.scale, w := a.scale, h := a.scale, color := a.fg })) ∧
    (∀ r, (charRects a s).getLast? = some r →
      (drawCharOp a s).win = { x := r.x, y := r.y, w := r.w, h := r.h, isOpen := false }) ∧
    ((charRects a s).getLast? = none → (drawCharOp a s).win = s.win) ∧
    (∀ x y scale : Half, a.x = x.toNat → a.y = y.toNat → a.scale = scale.toNat → s.busSel = false → scale ≠ 0 →
      ∃ t, exec (.drawChar x y a.g a.fg a.bg scale) s = .next t ∧ t.trace = (drawCharOp a s).trace ∧
        t.win = (drawCharOp a s).win)

/-- R196, R197: DECODE is never refused, and does what the row of the table for its state and byte says. -/
def Obligations.DecodeFollowsTheTable : Prop :=
  ∀ (s : State) (b : Byte),
    (s.dec = .idle → b.toNat < 32 → exec (.decode b) s = .next { s with result := .glyph none }) ∧
    (s.dec = .idle → 32 ≤ b.toNat → b.toNat < 127 → exec (.decode b) s = .next { s with result := .glyph (some b) }) ∧
    (s.dec = .idle → 127 ≤ b.toNat → exec (.decode b) s = .next { s with dec := .await b, result := .glyph none }) ∧
    (∀ lead, s.dec = .await lead →
      exec (.decode b) s = .next { s with dec := .idle, result := .glyph (remapLookup lead b s) })

/-- R200: the source's three properties of the decoder. -/
def Obligations.DecoderProperties : Prop :=
  ∀ s : State, s.dec = .idle →
    (∀ b : Byte, 32 ≤ b.toNat → b.toNat < 127 →
      ∃ t, exec (.decode b) s = .next t ∧ t.result = .glyph (some b) ∧ t.dec = .idle) ∧
    (∀ b : Byte, b.toNat < 32 → ∃ t, exec (.decode b) s = .next t ∧ t.result = .glyph none ∧ t.dec = .idle) ∧
    (∀ lead trail : Byte, 127 ≤ lead.toNat →
      ∃ t u, exec (.decode lead) s = .next t ∧ exec (.decode trail) t = .next u ∧ u.dec = .idle ∧
        (∀ e, s.remapRom.find? (fun e => e.lead == lead && e.trail == trail) = some e → u.result = .glyph (some e.glyph)) ∧
        (s.remapRom.find? (fun e => e.lead == lead && e.trail == trail) = none → u.result = .glyph none))

/-- R199, R201: the decoder cuts any text into characters of one or two bytes, left to right, and reports exactly their glyphs; from
`Idle` it waits at the end only when the text ends after a lead byte. -/
def Obligations.DecoderCutsTheText : Prop :=
  ∀ (text : List Byte) (s : State),
    ∃ t, decodeAll text s = some (glyphsFrom (fun l c => remapLookup l c s) s.dec text, t) ∧
      t.dec = decAfter s.dec text ∧ t.trace = s.trace ∧
      (∀ lead, s.dec = .idle → t.dec = .await lead → text.getLast? = some lead ∧ 127 ≤ lead.toNat)

/-- R212: PRINTLINE and its refusals. It is the DRAWCHAR calls of the glyphs its text resolves to, at the cursors of rule R212; the
decoder has taken every byte; the cursor and the dead register `POS` hold what the last byte left (log entry 4). -/
def Obligations.PrintLineCompletes : Prop :=
  ∀ (s : State) (x y fg bg scale : Half) (text : List Byte), s.params.ok →
    let a : LineArgs := { x := x.toNat, y := y.toNat, fg := fg, bg := bg, scale := scale.toNat }
    let gs := glyphsFrom (fun l c => remapLookup l c s) s.dec text
    (s.busSel = false → scale ≠ 0 →
      exec (.printLine x y fg bg scale text) s =
        .next { drawCalls (lineCalls a s.params.wrapXMode x.toNat y.toNat gs) s with
          dec := decAfter s.dec text
          pos := if text = [] then s.pos else text.length - 1
          curX := (lineEnd a s.params.wrapXMode x.toNat y.toNat gs).1
          curY := (lineEnd a s.params.wrapXMode x.toNat y.toNat gs).2
          result := .none }) ∧
    (s.busSel = true → exec (.printLine x y fg bg scale text) s = .refused .nestedBegin) ∧
    (s.busSel = false → scale = 0 → exec (.printLine x y fg bg scale text) s = .refused .zeroScale)

/-- R213: the layout law. With `WRAP_X_MODE = ZERO` and every resolved glyph of index 32 or more, PRINTLINE makes one DRAWCHAR call per
glyph, the `k`-th at `(X_k, Y_k)`. -/
def Obligations.PrintLineLayoutLaw : Prop :=
  ∀ (a : LineArgs) (x y : Nat) (gs : List Byte), (∀ g ∈ gs, 32 ≤ g.toNat) →
    (lineCalls a .zero x y gs).length = gs.length ∧
    ∀ k c, (lineCalls a .zero x y gs)[k]? = some c →
      (c.x, c.y) = layoutPos x y a.scale k ∧ gs[k]? = some c.g ∧ c.fg = a.fg ∧ c.bg = a.bg ∧ c.scale = a.scale

/-- R214, R262: the decoder across calls. Two PRINTLINEs, one after the other, leave the decoder as the concatenated text would, and
no INIT or SETPOWER between them changes that. -/
def Obligations.DecoderRemembersAcrossCalls : Prop :=
  ∀ (s t u v w : State) (x y fg bg scale x' y' fg' bg' scale' : Half) (text text' : List Byte) (on : Byte),
    s.params.ok →
    exec (.printLine x y fg bg scale text) s = .next t → exec .init t = .next u → exec (.setPower on) u = .next v →
    exec (.printLine x' y' fg' bg' scale' text') v = .next w →
    t.dec = decAfter s.dec text ∧ w.dec = decAfter s.dec (text ++ text')

/-! ## What the whole machine keeps -/

/-- R34, R250, R251: the state after reset, where the spec states it: decoder `Idle`, no window open, no bracket open, the reset line
released, the ROMs at their parameters, the trace empty. -/
def Obligations.ResetLeaves : Prop :=
  State.reset.dec = .idle ∧ State.reset.win.isOpen = false ∧ State.reset.busSel = false ∧ State.reset.rstl = false ∧
  State.reset.trace = [] ∧ State.reset.remapRom = Config.remap ∧
  (∀ g c : Nat, g < 256 → c < 5 → State.reset.glyphRom.byte .glyphRom (5 * g + c) = Config.glyphByte (5 * g + c)) ∧
  State.reset.panel.phase = .unknown

/-- R20, R28, R34, R114, R141, R197: the reset state meets every invariant below. The widths rest on the zeros the model chose where rule
R34 leaves the window and R28 the sequencer registers without a value (log entries 3, 4); the empty bus port (log entry 2) and the
controller as the replay of the empty trace (log entry 13) are the model's. -/
def Obligations.ResetMeetsTheInvariants : Prop :=
  State.reset.params.ok ∧ State.reset.memoriesWf ∧ State.reset.fits ∧ State.reset.portOk ∧ State.reset.bracketLaw ∧ State.reset.windowLaw ∧
  State.reset.leadOk ∧ State.reset.panelReplays

/-- R114: every step keeps the bracket law: the trace is well bracketed and `BUS.sel` is its level. -/
def Obligations.StepKeepsTheBracketLaw : Prop :=
  ∀ s t : State, s.params.ok → s.bracketLaw → step s = .next t → t.bracketLaw

/-- R114: what the bracket law says of a trace: `BUS.sel` is the number of `Sel(1)` events minus the number of `Sel(0)` events, and
before every `Wr` event there is a `Sel(1)` with no `Sel(0)` between them. -/
def Obligations.BracketLawCounts : Prop :=
  ∀ (t : List Event) (b : Bool), traceSel t = some b →
    t.count (.sel true) = t.count (.sel false) + b.toNat ∧
    ∀ (front back : List Event) (dc : DC) (bs : List Byte), t = front ++ .wr dc bs :: back →
      ∃ before inside : List Event, front = before ++ .sel true :: inside ∧ Event.sel false ∉ inside

/-- R114, R236: every public operation starts and ends with the bracket closed, and from a closed bracket it meets none of
`NestedBegin`, `EndWithoutBegin`, `WriteUnselected`. -/
def Obligations.PublicOperationsAreBracketed : Prop :=
  ∀ (i : Instr) (s : State), s.params.ok → i.isPublic = true →
    (∀ t, exec i s = .next t → s.busSel = false ∧ t.busSel = false) ∧
    (s.busSel = false → exec i s ≠ .refused .nestedBegin ∧ exec i s ≠ .refused .endWithoutBegin ∧
      exec i s ≠ .refused .writeUnselected)

/-- R141: every instruction but the raw WRITE of a test bench keeps the window law: while a window is open, a bracket is open and the
last byte sent is the command 0x2C. -/
def Obligations.WindowLawKept : Prop :=
  ∀ (i : Instr) (s t : State), s.params.ok → (∀ dc bs, i ≠ .write dc bs) → s.windowLaw → exec i s = .next t → t.windowLaw

/-- R7, R20, R28, R180, R216: a step that starts with every register within the bits rules R20 and R28 give it ends so: the window fields,
`REM`, `OFF`, `COL`, `ROW`, `CUR_X`, `CUR_Y`, `POS`, and `IDX` within `len(INIT_CFG)`. The values are those between operations, where the
sequencer registers are dead (log entry 4); naturals held within a width are the model's form (log entry 22). The bus
port holds nothing but bus commands, before and after (log entry 2). -/
def Obligations.StepKeepsTheWidths : Prop :=
  ∀ s t : State, s.params.ok → s.portOk → s.fits → step s = .next t → t.fits ∧ t.portOk

/-- Every step keeps every memory in its canonical form: cells by strictly rising address (the model's representation of `TXBUF`,
`GLYPHROM` and `PANEL`, R50 to R52, R55). -/
def Obligations.StepKeepsTheMemories : Prop :=
  ∀ s t : State, s.params.ok → s.memoriesWf → step s = .next t → t.memoriesWf

/-- R197, R198: every step keeps a pending lead byte at 127 or more. -/
def Obligations.StepKeepsTheLeadByte : Prop :=
  ∀ s t : State, s.params.ok → s.leadOk → step s = .next t → t.leadOk

/-- R11, R33: the controller only consumes the trace. That it reacts at once, so that after every step its state is the replay of the
trace, is the model's (log entry 13), and so is the one value it has after a window outside the panel was declared (log entry 11). -/
def Obligations.StepKeepsThePanelAReplay : Prop :=
  ∀ s t : State, s.params.ok → s.panelReplays → step s = .next t → t.panelReplays

/-- R31: the trace only grows, whatever is executed. -/
def Obligations.TraceOnlyGrows : Prop :=
  ∀ s t : State, s.params.ok → step s = .next t → ∃ es, t.trace = s.trace ++ es

/-- R26, R27, R35, R223: no instruction changes the parameters or a ROM. -/
def Obligations.ConfigurationAndRomsNeverChange : Prop :=
  ∀ (i : Instr) (s t : State), s.params.ok → exec i s = .next t →
    t.params = s.params ∧ t.remapRom = s.remapRom ∧ ∀ a, t.glyphRom.read a = s.glyphRom.read a

/-- R21: nothing but DECODE and PRINTLINE writes the decoder state. -/
def Obligations.OnlyDecodeAndPrintLineWriteTheDecoder : Prop :=
  ∀ (i : Instr) (s t : State), s.params.ok → (∀ b, i ≠ .decode b) →
    (∀ x y fg bg scale text, i ≠ .printLine x y fg bg scale text) → exec i s = .next t → t.dec = s.dec

/-- R25, R237: only INIT drives the reset line and only INIT emits a `Wait`; a released line is released after every instruction. -/
def Obligations.OnlyInitDrivesTheResetLine : Prop :=
  ∀ (i : Instr) (s t : State), s.params.ok → exec i s = .next t →
    (s.rstl = false → t.rstl = false) ∧
    (i ≠ .init → t.rstl = s.rstl ∧
      ∃ es, t.trace = s.trace ++ es ∧ ∀ e ∈ es, (∀ b, e ≠ .rst b) ∧ ∀ n, e ≠ .wait n)

/-- R22: nothing but SETWINDOW and the operations that call it changes the recorded origin and size. -/
def Obligations.OnlyWindowDeclarationsMoveTheWindow : Prop :=
  ∀ (i : Instr) (s t : State), s.params.ok → exec i s = .next t →
    (∀ x y w h, i ≠ .setWindow x y w h) → (∀ x y w h c, i ≠ .fillRect x y w h c) →
    (∀ x y w h d, i ≠ .blitImage x y w h d) → (∀ x y g fg bg sc, i ≠ .drawChar x y g fg bg sc) →
    (∀ x y fg bg sc text, i ≠ .printLine x y fg bg sc text) →
    t.win.x = s.win.x ∧ t.win.y = s.win.y ∧ t.win.w = s.win.w ∧ t.win.h = s.win.h

/-- R52, R156, R223: the frame of the memories. No instruction changes a byte of `TXBUF` at or above the capacity; the instructions that
stream nothing change no byte of it; DECODE, GLYPHCOL and BEGIN change nothing of the controller, so no pixel of its frame memory. -/
def Obligations.MemoryFrame : Prop :=
  ∀ (i : Instr) (s t : State), s.params.ok → exec i s = .next t →
    (∀ a, s.params.txbufCap ≤ a → t.txbuf.read a = s.txbuf.read a) ∧
    (i.isPublic = false → (∀ c, i ≠ .fill c) → (∀ d, i ≠ .blit d) → ∀ a, t.txbuf.read a = s.txbuf.read a) ∧
    (i = .init ∨ (∃ on, i = .setPower on) → ∀ a, t.txbuf.read a = s.txbuf.read a) ∧
    ((∃ b, i = .decode b) ∨ (∃ g c, i = .glyphCol g c) ∨ i = .beginTx →
      t.panel = s.panel ∧ ∀ px py, t.panel.pixel px py = s.panel.pixel px py)

/-- R28, R36: the frame of the sequencer registers: each is written only by the operations rule R28 gives it to, and by those that
call them. That a dead register keeps its value until then is the model's (log entry 4). -/
def Obligations.SequencerFrame : Prop :=
  ∀ (i : Instr) (s t : State), s.params.ok → exec i s = .next t →
    ((∀ x y fg bg sc text, i ≠ .printLine x y fg bg sc text) → t.curX = s.curX ∧ t.curY = s.curY ∧ t.pos = s.pos) ∧
    ((∀ x y fg bg sc text, i ≠ .printLine x y fg bg sc text) → (∀ x y g fg bg sc, i ≠ .drawChar x y g fg bg sc) →
      t.col = s.col ∧ t.row = s.row) ∧
    ((∀ d, i ≠ .blit d) → (∀ x y w h d, i ≠ .blitImage x y w h d) → t.off = s.off) ∧
    ((∀ c, i ≠ .fill c) → (∀ d, i ≠ .blit d) → (∀ x y w h c, i ≠ .fillRect x y w h c) →
      (∀ x y w h d, i ≠ .blitImage x y w h d) → (∀ x y g fg bg sc, i ≠ .drawChar x y g fg bg sc) →
      (∀ x y fg bg sc text, i ≠ .printLine x y fg bg sc text) → t.rem = s.rem) ∧
    (i ≠ .init → t.idx = s.idx) ∧ t.prog = s.prog ∧ t.busPort = s.busPort

/-! ## The panel -/

/-- R255: before an INIT the controller's reaction to any byte is unspecified: no other instruction leads out of the phase
`unknown`, but into the mark of a refused panel. R63, R229: a window that is not on the panel marks it, the block goes on, and the mark
is kept, whatever is executed afterwards: the window of SETWINDOW, FILLRECT or BLITIMAGE, any cell of DRAWCHAR or PRINTLINE, and what
address commands declared when a bare MEM_WRITE starts its stream (log entries 11, 15). -/
def Obligations.OnlyInitReadiesThePanel : Prop :=
  ∀ (i : Instr) (s t : State), s.params.ok → exec i s = .next t →
    (i ≠ .init → s.panel.phase = .unknown → t.panel.phase = .unknown ∨ t.panel.phase = .offPanel) ∧
    (∀ x y w h, i = .setWindow x y w h ∨ (∃ c, i = .fillRect x y w h c) ∨ (∃ d, i = .blitImage x y w h d) →
      240 < x.toNat + w.toNat ∨ 240 < y.toNat + h.toNat → t.panel.phase = .offPanel) ∧
    (∀ x y g fg bg scale, i = .drawChar x y g fg bg scale →
      (∃ r ∈ charRects { x := x.toNat, y := y.toNat, g := g, fg := fg, bg := bg, scale := scale.toNat } s,
        240 < r.x + r.w ∨ 240 < r.y + r.h) → t.panel.phase = .offPanel) ∧
    (∀ x y fg bg scale text, i = .printLine x y fg bg scale text →
      (∃ a ∈ lineCalls { x := x.toNat, y := y.toNat, fg := fg, bg := bg, scale := scale.toNat } s.params.wrapXMode x.toNat y.toNat
          (glyphsFrom (fun l c => remapLookup l c s) s.dec text),
        ∃ r ∈ charRects a s, 240 < r.x + r.w ∨ 240 < r.y + r.h) → t.panel.phase = .offPanel) ∧
    (i = .memWrite ∨ i = .write 0 [0x2C] → s.panel.phase = .ready → (∀ got, s.panel.mode ≠ .colParams got) →
      (∀ got, s.panel.mode ≠ .rowParams got) → s.panel.cols.declared = true → s.panel.rows.declared = true →
      s.panel.cols.last.toNat < s.panel.cols.first.toNat ∨ 240 ≤ s.panel.cols.last.toNat ∨
        s.panel.rows.last.toNat < s.panel.rows.first.toNat ∨ 240 ≤ s.panel.rows.last.toNat → t.panel.phase = .offPanel) ∧
    (s.panel.phase = .offPanel → t.panel.phase = .offPanel)

/-- R148, R241: INIT leaves the controller ready, out of sleep and with the display on, its configuration registers written with exactly
the frames of `INIT_CFG` and the two last commands, in order. How the controller records them is the model's (log entries 13, 18).
The premise that the panel is not refused is the one rule R229 asks for. -/
def Obligations.InitReadiesThePanel : Prop :=
  ∀ s : State, s.busSel = false → s.panel.phase ≠ .offPanel →
    ∃ t, exec .init s = .next t ∧ t.panel.phase = .ready ∧ t.panel.mode = .idle ∧ t.panel.asleep = false ∧
      t.panel.displayOn = true ∧
      t.panel.config = s.params.initCfg ++
        [{ cmd := s.params.cmdSleepOut, params := [] }, { cmd := s.params.cmdDisplayOn, params := [] }]

/-- R143, R147, R241: on a ready controller whose seven command bytes differ, SETPOWER switches the sleep and the display register,
and each of SLEEP_IN, SLEEP_OUT, DISPLAY_ON and DISPLAY_OFF, sent inside a bracket, sets the one register of its own; every other
register of the controller keeps its value. That they have switched in the state right after it is the model's: the controller reacts at
once (log entry 13). The frame memory is kept where `frameKept` says so, and not spoken of otherwise (log entry 14). -/
def Obligations.SetPowerSwitchesThePanel : Prop :=
  ∀ s : State, s.params.ok → s.params.distinctCmds → s.panel.phase = .ready → s.panel.mode = .idle →
    (∀ (i : Instr) (sleeps shows : Bool),
      (s.busSel = false ∧ i = .setPower 1 ∧ sleeps = false ∧ shows = true) ∨
      (s.busSel = false ∧ i = .setPower 0 ∧ sleeps = true ∧ shows = false) ∨
      (s.busSel = true ∧ i = .sleepIn ∧ sleeps = true ∧ shows = s.panel.displayOn) ∨
      (s.busSel = true ∧ i = .sleepOut ∧ sleeps = false ∧ shows = s.panel.displayOn) ∨
      (s.busSel = true ∧ i = .displayOn ∧ sleeps = s.panel.asleep ∧ shows = true) ∨
      (s.busSel = true ∧ i = .displayOff ∧ sleeps = s.panel.asleep ∧ shows = false) →
      ∃ t, exec i s = .next t ∧
        t.panel = { s.panel with
          asleep := sleeps, displayOn := shows, frame := t.panel.frame, epoch := t.panel.epoch, free := t.panel.free } ∧
        (s.params.frameKept = true → ∀ px py, t.panel.pixel px py = s.panel.pixel px py))

/-- R144, R145: an address command declares the first and the last column or row of the controller's window, each from two parameter
bytes, high byte first, and leaves its other registers alone. R146: MEM_WRITE with a declared window on the panel makes the
controller take the bytes that follow as the pixels of that window from its first on, and changes nothing else. R148: a configuration frame, sent outside INIT too, is written to the
configuration registers, and the controller stays ready. That the controller reacts at once, so that all this holds in the state right
after the command, and that the configuration registers hold the frames in order, is the model's (log entries 13, 16, 18). -/
def Obligations.AddressCommandsDeclare : Prop :=
  ∀ (s : State) (sh sl eh el : Byte), s.busSel = true → s.panel.phase = .ready → s.panel.mode = .idle →
    (∃ t, exec (.colAddrSet sh sl eh el) s = .next t ∧
      t.panel = { s.panel with cols := { first := addrOf sh sl, last := addrOf eh el, declared := true } }) ∧
    (∃ t, exec (.rowAddrSet sh sl eh el) s = .next t ∧
      t.panel = { s.panel with rows := { first := addrOf sh sl, last := addrOf eh el, declared := true } }) ∧
    (s.panel.cols.declared = true → s.panel.rows.declared = true →
      s.panel.cols.first.toNat ≤ s.panel.cols.last.toNat → s.panel.cols.last.toNat < 240 →
      s.panel.rows.first.toNat ≤ s.panel.rows.last.toNat → s.panel.rows.last.toNat < 240 →
      ∃ t, exec .memWrite s = .next t ∧ t.panel = { s.panel with mode := .stream 0 }) ∧
    (addrOf sh sl).toNat = 256 * sh.toNat + sl.toNat ∧ (addrOf eh el).toNat = 256 * eh.toNat + el.toNat ∧
    (∀ (n : Nat) (e : CfgEntry), s.params.initCfg[n]? = some e →
      e.cmd ∉ [0x2A, 0x2B, 0x2C, s.params.cmdSleepIn, s.params.cmdSleepOut, s.params.cmdDisplayOn, s.params.cmdDisplayOff] →
      ∃ t, exec (.cfg n) s = .next t ∧ t.panel.phase = .ready ∧ t.panel.config = s.panel.config ++ [e] ∧
        t.panel.cols = s.panel.cols ∧ t.panel.rows = s.panel.rows ∧ t.panel.asleep = s.panel.asleep ∧
        t.panel.displayOn = s.panel.displayOn)

/-- R58, R146, R157: on a controller that takes pixels, FILLRECT of a rectangle on the panel gives exactly the pixels of the rectangle
the colour, high byte first; every other pixel keeps its value. That it reacts at once, and that it waits for no data after the
release of select and so takes pixels again, is the model's (log entries 13, 27). -/
def Obligations.FillRectPaintsItsRectangle : Prop :=
  ∀ (s : State) (x y w h color : Half), s.params.ok → s.busSel = false → s.panel.accepts →
    onPanel x.toNat y.toNat w.toNat h.toNat = true →
    ∃ t, exec (.fillRect x y w h color) s = .next t ∧ t.panel.accepts ∧
      ∀ px py, px < 240 → py < 240 →
        if x.toNat ≤ px ∧ px < x.toNat + w.toNat ∧ y.toNat ≤ py ∧ py < y.toNat + h.toNat then
          t.panel.pixel px py = (BitVec.ofNat 8 (color.toNat / 256), BitVec.ofNat 8 color.toNat)
        else t.panel.pixel px py = s.panel.pixel px py

/-- R58, R146, R158: on a controller that takes pixels, BLITIMAGE into a window on the panel puts pixel `k` of the buffer at column
`x + (k mod w)`, row `y + (k div w)`; every other pixel keeps its value. That the controller reacts at once, and that it waits for no
data after the release of select and so takes pixels again, is the model's (log entries 13, 27). -/
def Obligations.BlitImageLandsItsPixels : Prop :=
  ∀ (s : State) (x y w h : Half) (data : List Byte), s.params.ok → s.busSel = false → s.panel.accepts →
    onPanel x.toNat y.toNat w.toNat h.toNat = true → 2 * w.toNat * h.toNat ≤ data.length →
    ∃ t, exec (.blitImage x y w h data) s = .next t ∧ t.panel.accepts ∧
      (∀ k, k < w.toNat * h.toNat → ∀ hi lo, data[2 * k]? = some hi → data[2 * k + 1]? = some lo →
        t.panel.pixel (x.toNat + k % w.toNat) (y.toNat + k / w.toNat) = (hi, lo)) ∧
      ∀ px py, px < 240 → py < 240 →
        ¬ (x.toNat ≤ px ∧ px < x.toNat + w.toNat ∧ y.toNat ≤ py ∧ py < y.toNat + h.toNat) →
        t.panel.pixel px py = s.panel.pixel px py

/-- R179: the coverage law of DRAWCHAR, for a glyph whose drawn cells are on the panel. Opaque: every pixel of the glyph cell gets the
foreground colour where it lies in a set bit's square and the background colour elsewhere. Transparent: the pixels of set bits get the
foreground colour, and only they need be on the panel. Every other pixel keeps its value. The bit of row `r` of column `c` is bit `r`
of the ROM byte `5 × g + c` when bit 0 is the top row, bit `7 - r` otherwise (R57, R86). That the controller reacts at once, and that
it waits for no data after the release of select and so takes pixels again, is the model's (log entries 13, 27). -/
def Obligations.DrawCharCoversItsCell : Prop :=
  ∀ (s : State) (x y : Half) (g : Byte) (fg bg scale : Half), s.params.ok → s.busSel = false → s.panel.accepts →
    32 ≤ g.toNat → scale ≠ 0 →
    let bit : Nat → Nat → Prop := fun c r =>
      (s.glyphRom.byte .glyphRom (5 * g.toNat + c)).getLsbD (if s.params.glyphBit0IsTop then r else 7 - r) = true
    (∀ c r : Nat, c < 5 → r < 8 → bg ≠ fg ∨ bit c r →
      x.toNat + (c + 1) * scale.toNat ≤ 240 ∧ y.toNat + (r + 1) * scale.toNat ≤ 240) →
    (bg ≠ fg → x.toNat + 6 * scale.toNat ≤ 240) →
    ∃ t, exec (.drawChar x y g fg bg scale) s = .next t ∧ t.panel.accepts ∧
      ∀ px py, px < 240 → py < 240 →
        let inCell := x.toNat ≤ px ∧ px < x.toNat + 6 * scale.toNat ∧ y.toNat ≤ py ∧ py < y.toNat + 8 * scale.toNat
        let isSet := px < x.toNat + 5 * scale.toNat ∧ bit ((px - x.toNat) / scale.toNat) ((py - y.toNat) / scale.toNat)
        (inCell → isSet → t.panel.pixel px py = (BitVec.ofNat 8 (fg.toNat / 256), BitVec.ofNat 8 fg.toNat)) ∧
        (inCell → ¬ isSet → bg ≠ fg → t.panel.pixel px py = (BitVec.ofNat 8 (bg.toNat / 256), BitVec.ofNat 8 bg.toNat)) ∧
        (inCell → ¬ isSet → bg = fg → t.panel.pixel px py = s.panel.pixel px py) ∧
        (¬ inCell → t.panel.pixel px py = s.panel.pixel px py)
end

