-- ==== Sys2Proof/Laws/Decode.lean ====
section
/-! SUPPORT. The fields of a descriptor (rules R93, R94): a field read back from its bytes is the field, the bytes of a field that
was read are the bytes it was read from, and a payload is cut off whole. -/

namespace Sys2Proof

theorem be16_toNat (hi lo : Byte) : (be16 hi lo).toNat = 256 * hi.toNat + lo.toNat := by
  have := hi.isLt
  have := lo.isLt
  simp only [be16, BitVec.toNat_ofNat]
  omega

theorem be16_bytes16 (n : Half) : be16 (BitVec.ofNat 8 (n.toNat / 256)) (BitVec.ofNat 8 n.toNat) = n := by
  have := n.isLt
  apply BitVec.eq_of_toNat_eq
  simp only [be16_toNat, BitVec.toNat_ofNat]
  omega

/-- The same, in the form `simp` gives the low byte. -/
theorem be16_setWidth (n : Half) : be16 (BitVec.ofNat 8 (n.toNat / 256)) (BitVec.setWidth 8 n) = n := by
  rw [← BitVec.ofNat_toNat, be16_bytes16]

theorem be16_length (n : Nat) (h : n < 2 ^ 16) : (be16 (BitVec.ofNat 8 (n / 256)) (BitVec.ofNat 8 n)).toNat = n := by
  simp only [be16_toNat, BitVec.toNat_ofNat]
  omega

theorem be32_length (n : Nat) (h : n < 2 ^ 32) :
    be32 (BitVec.ofNat 8 (n / 16777216)) (BitVec.ofNat 8 (n / 65536)) (BitVec.ofNat 8 (n / 256)) (BitVec.ofNat 8 n) = n := by
  simp only [be32, BitVec.toNat_ofNat]
  omega

theorem be32_lt (b3 b2 b1 b0 : Byte) : be32 b3 b2 b1 b0 < 2 ^ 32 := by
  have := b3.isLt
  have := b2.isLt
  have := b1.isLt
  have := b0.isLt
  simp only [be32]
  omega

theorem bytes16_be16 (hi lo : Byte) : bytes16 (be16 hi lo).toNat = [hi, lo] := by
  have := hi.isLt
  have := lo.isLt
  have h1 : BitVec.ofNat 8 ((256 * hi.toNat + lo.toNat) / 256) = hi := by
    apply BitVec.eq_of_toNat_eq; rw [BitVec.toNat_ofNat]; omega
  have h0 : BitVec.ofNat 8 (256 * hi.toNat + lo.toNat) = lo := by
    apply BitVec.eq_of_toNat_eq; rw [BitVec.toNat_ofNat]; omega
  rw [bytes16, be16_toNat, h1, h0]

theorem bytes32_be32 (b3 b2 b1 b0 : Byte) : bytes32 (be32 b3 b2 b1 b0) = [b3, b2, b1, b0] := by
  have := b3.isLt
  have := b2.isLt
  have := b1.isLt
  have := b0.isLt
  obtain ⟨n, hn⟩ : ∃ n, n = be32 b3 b2 b1 b0 := ⟨_, rfl⟩
  have hv : n = 256 * (256 * (256 * b3.toNat + b2.toNat) + b1.toNat) + b0.toNat := hn
  have h3 : BitVec.ofNat 8 (n / 16777216) = b3 := by apply BitVec.eq_of_toNat_eq; rw [BitVec.toNat_ofNat]; omega
  have h2 : BitVec.ofNat 8 (n / 65536) = b2 := by apply BitVec.eq_of_toNat_eq; rw [BitVec.toNat_ofNat]; omega
  have h1 : BitVec.ofNat 8 (n / 256) = b1 := by apply BitVec.eq_of_toNat_eq; rw [BitVec.toNat_ofNat]; omega
  have h0 : BitVec.ofNat 8 n = b0 := by apply BitVec.eq_of_toNat_eq; rw [BitVec.toNat_ofNat]; omega
  rw [← hn, bytes32, h3, h2, h1, h0]

/-- A payload that is there is cut off whole. -/
theorem takePayload_append (f : List Byte → Instr) (data rest : List Byte) :
    takePayload f data.length (data ++ rest) = .ok (f data, rest) := by
  simp [takePayload]

/-- What a payload field gives: the payload, of the length the field says, and what follows it. -/
theorem takePayload_ok (f : List Byte → Instr) (n : Nat) (bs rest : List Byte) (i : Instr) :
    takePayload f n bs = .ok (i, rest) ↔ ∃ data, data.length = n ∧ bs = data ++ rest ∧ i = f data := by
  rw [takePayload]
  constructor
  · intro h
    split at h
    · simp only [Except.ok.injEq, Prod.mk.injEq] at h
      obtain ⟨rfl, rfl⟩ := h
      exact ⟨bs.take n, by rw [List.length_take]; omega, (List.take_append_drop n bs).symm, rfl⟩
    · exact absurd h (by simp)
  · rintro ⟨data, rfl, rfl, rfl⟩
    simp

end Sys2Proof
end

