-- ==== Sys2Proof/Laws/Memory.lean ====
section
/-! SUPPORT. The laws of a memory: a read after a write gives what was written, a write leaves every other address alone, and a
write keeps the canonical form. -/

namespace Sys2Proof.Machine

@[simp] theorem Memory.read_nil (x : Nat) : Memory.read [] x = none := rfl

theorem Memory.read_append (m n : Memory) (x : Nat) : Memory.read (m ++ n) x = (Memory.read m x).or (Memory.read n x) := by
  induction m with
  | nil => simp
  | cons c m ih =>
    obtain ⟨a, b⟩ := c
    by_cases h : a = x <;> simp [Memory.read, h, ih]

/-- Cells kept by a test on their address are read there, and nothing is read elsewhere. -/
theorem Memory.read_filter (p : Nat → Bool) (m : Memory) (x : Nat) :
    Memory.read (m.filter (fun c => p c.1)) x = if p x then m.read x else none := by
  induction m with
  | nil => simp
  | cons c m ih =>
    obtain ⟨a, b⟩ := c
    by_cases hp : p a <;> by_cases h : a = x
    · subst h; simp [Memory.read, hp]
    · simp [Memory.read, hp, h, ih]
    · subst h; simp [hp, ih]
    · simp [Memory.read, hp, h, ih]

theorem read_runCells (a : Nat) (bs : List Byte) (x : Nat) :
    Memory.read (runCells a bs) x = if a ≤ x then bs[x - a]? else none := by
  induction bs generalizing a with
  | nil => simp [runCells]
  | cons b bs ih =>
    simp only [runCells, Memory.read, ih]
    rcases Nat.lt_trichotomy a x with h | h | h
    · have hx : x - a = (x - (a + 1)) + 1 := by omega
      rw [if_neg (by omega), if_pos (by omega), if_pos (by omega), hx, List.getElem?_cons_succ]
    · subst h; simp
    · rw [if_neg (by omega), if_neg (by omega), if_neg (by omega)]

/-- A read after a write: the bytes written, and every other address as before. -/
theorem Memory.read_writeRun (m : Memory) (a : Nat) (bs : List Byte) (x : Nat) :
    (m.writeRun a bs).read x = if a ≤ x ∧ x < a + bs.length then bs[x - a]? else m.read x := by
  rw [Memory.writeRun, Memory.read_append, Memory.read_append, read_runCells,
    Memory.read_filter (fun c => decide (c < a)), Memory.read_filter (fun c => decide (a + bs.length ≤ c))]
  by_cases h1 : x < a
  · rw [if_pos (by simpa using h1), if_neg (by omega), if_neg (by simp; omega), if_neg (by omega)]
    simp
  · by_cases h2 : x < a + bs.length
    · rw [if_neg (by simpa using h1), if_pos (by omega), if_neg (by simp; omega), if_pos (by omega)]
      simp
    · rw [if_neg (by simpa using h1), if_pos (by omega), if_pos (by simp; omega), if_neg (by omega),
        List.getElem?_eq_none (by omega)]
      simp

theorem Memory.read_writeRun_of_lt (m : Memory) (a : Nat) (bs : List Byte) (j : Nat) (h : j < bs.length) :
    (m.writeRun a bs).read (a + j) = some bs[j] := by
  rw [Memory.read_writeRun, if_pos (by omega), Nat.add_sub_cancel_left, List.getElem?_eq_getElem h]

theorem runCells_bounds (a : Nat) (bs : List Byte) : ∀ c ∈ runCells a bs, a ≤ c.1 ∧ c.1 < a + bs.length := by
  induction bs generalizing a with
  | nil => simp [runCells]
  | cons b bs ih =>
    intro c hc
    rcases List.mem_cons.1 hc with rfl | hc
    · simp
    · have := ih (a + 1) c hc
      simp only [List.length_cons]
      omega

theorem runCells_wf (a : Nat) (bs : List Byte) : Memory.wf (runCells a bs) := by
  induction bs generalizing a with
  | nil => simp [runCells]
  | cons b bs ih =>
    refine List.Pairwise.cons (fun c hc => ?_) (ih (a + 1))
    have := runCells_bounds (a + 1) bs c hc
    simp only
    omega

/-- A write keeps the canonical form. -/
theorem Memory.wf_writeRun (m : Memory) (hm : m.wf) (a : Nat) (bs : List Byte) : (m.writeRun a bs).wf := by
  refine List.pairwise_append.2 ⟨hm.filter _, List.pairwise_append.2 ⟨runCells_wf a bs, hm.filter _, ?_⟩, ?_⟩
  · intro c hc d hd
    have := runCells_bounds a bs c hc
    have := (List.mem_filter.1 hd).2
    simp only [decide_eq_true_eq] at this
    omega
  · intro c hc d hd
    have h1 := (List.mem_filter.1 hc).2
    simp only [decide_eq_true_eq] at h1
    rcases List.mem_append.1 hd with hd | hd
    · have := runCells_bounds a bs d hd
      omega
    · have := (List.mem_filter.1 hd).2
      simp only [decide_eq_true_eq] at this
      omega

theorem collect_runCells (sp : Space) (a : Nat) (bs : List Byte) (m : Memory) :
    Memory.collect sp bs.length a (runCells a bs ++ m) = bs := by
  induction bs generalizing a with
  | nil => simp [Memory.collect]
  | cons b bs ih => simp [runCells, Memory.collect, ih]

theorem filter_lt_ge (a : Nat) (m : Memory) :
    (m.filter (fun c => decide (c.1 < a))).filter (fun c => decide (a ≤ c.1)) = [] := by
  rw [List.filter_filter, List.filter_eq_nil_iff]
  intro c _
  simp

/-- A run read back right after it was written is what was written (rule R71 (b)). -/
theorem Memory.readRun_writeRun (sp : Space) (m : Memory) (a : Nat) (bs : List Byte) :
    (m.writeRun a bs).readRun sp a bs.length = bs := by
  have h1 : (runCells a bs).filter (fun c => decide (a ≤ c.1)) = runCells a bs :=
    List.filter_eq_self.2 (fun c hc => by simpa using (runCells_bounds a bs c hc).1)
  rw [Memory.readRun, Memory.writeRun, List.filter_append, List.filter_append, filter_lt_ge, h1, List.nil_append]
  exact collect_runCells sp a bs _

end Sys2Proof.Machine
end

