-- ==== Sys2Proof/Laws/State.lean ====
section
/-! SUPPORT. The fields of a state after each shared update, one lemma a field: no later proof unfolds a record update. -/

namespace Sys2Proof.Machine

variable (e : Event) (es : List Event) (s : State) (chunk : List Byte) (level : Bool) (x y w h : Nat) (r : Result) (rs : List Rect)

@[simp] theorem emit_params : (emit e s).params = s.params := rfl
@[simp] theorem emit_glyphRom : (emit e s).glyphRom = s.glyphRom := rfl
@[simp] theorem emit_remapRom : (emit e s).remapRom = s.remapRom := rfl
@[simp] theorem emit_dec : (emit e s).dec = s.dec := rfl
@[simp] theorem emit_win : (emit e s).win = s.win := rfl
@[simp] theorem emit_txbuf : (emit e s).txbuf = s.txbuf := rfl
@[simp] theorem emit_busSel : (emit e s).busSel = s.busSel := rfl
@[simp] theorem emit_rstl : (emit e s).rstl = s.rstl := rfl
@[simp] theorem emit_rem : (emit e s).rem = s.rem := rfl
@[simp] theorem emit_off : (emit e s).off = s.off := rfl
@[simp] theorem emit_col : (emit e s).col = s.col := rfl
@[simp] theorem emit_row : (emit e s).row = s.row := rfl
@[simp] theorem emit_idx : (emit e s).idx = s.idx := rfl
@[simp] theorem emit_curX : (emit e s).curX = s.curX := rfl
@[simp] theorem emit_curY : (emit e s).curY = s.curY := rfl
@[simp] theorem emit_pos : (emit e s).pos = s.pos := rfl
@[simp] theorem emit_trace : (emit e s).trace = s.trace ++ [e] := rfl
@[simp] theorem emit_panel : (emit e s).panel = s.panel.observe s.params e := rfl
@[simp] theorem emit_result : (emit e s).result = s.result := rfl
@[simp] theorem emit_prog : (emit e s).prog = s.prog := rfl
@[simp] theorem emit_busPort : (emit e s).busPort = s.busPort := rfl

@[simp] theorem emitAll_params : (emitAll es s).params = s.params := rfl
@[simp] theorem emitAll_glyphRom : (emitAll es s).glyphRom = s.glyphRom := rfl
@[simp] theorem emitAll_remapRom : (emitAll es s).remapRom = s.remapRom := rfl
@[simp] theorem emitAll_dec : (emitAll es s).dec = s.dec := rfl
@[simp] theorem emitAll_win : (emitAll es s).win = s.win := rfl
@[simp] theorem emitAll_txbuf : (emitAll es s).txbuf = s.txbuf := rfl
@[simp] theorem emitAll_busSel : (emitAll es s).busSel = s.busSel := rfl
@[simp] theorem emitAll_rstl : (emitAll es s).rstl = s.rstl := rfl
@[simp] theorem emitAll_rem : (emitAll es s).rem = s.rem := rfl
@[simp] theorem emitAll_off : (emitAll es s).off = s.off := rfl
@[simp] theorem emitAll_col : (emitAll es s).col = s.col := rfl
@[simp] theorem emitAll_row : (emitAll es s).row = s.row := rfl
@[simp] theorem emitAll_idx : (emitAll es s).idx = s.idx := rfl
@[simp] theorem emitAll_curX : (emitAll es s).curX = s.curX := rfl
@[simp] theorem emitAll_curY : (emitAll es s).curY = s.curY := rfl
@[simp] theorem emitAll_pos : (emitAll es s).pos = s.pos := rfl
@[simp] theorem emitAll_trace : (emitAll es s).trace = s.trace ++ es := rfl
@[simp] theorem emitAll_panel : (emitAll es s).panel = es.foldl (Panel.observe s.params) s.panel := rfl
@[simp] theorem emitAll_result : (emitAll es s).result = s.result := rfl
@[simp] theorem emitAll_prog : (emitAll es s).prog = s.prog := rfl
@[simp] theorem emitAll_busPort : (emitAll es s).busPort = s.busPort := rfl

@[simp] theorem closeWindow_params : (closeWindow s).params = s.params := rfl
@[simp] theorem closeWindow_glyphRom : (closeWindow s).glyphRom = s.glyphRom := rfl
@[simp] theorem closeWindow_remapRom : (closeWindow s).remapRom = s.remapRom := rfl
@[simp] theorem closeWindow_dec : (closeWindow s).dec = s.dec := rfl
@[simp] theorem closeWindow_win : (closeWindow s).win = { s.win with isOpen := false } := rfl
@[simp] theorem closeWindow_txbuf : (closeWindow s).txbuf = s.txbuf := rfl
@[simp] theorem closeWindow_busSel : (closeWindow s).busSel = s.busSel := rfl
@[simp] theorem closeWindow_rstl : (closeWindow s).rstl = s.rstl := rfl
@[simp] theorem closeWindow_rem : (closeWindow s).rem = s.rem := rfl
@[simp] theorem closeWindow_off : (closeWindow s).off = s.off := rfl
@[simp] theorem closeWindow_col : (closeWindow s).col = s.col := rfl
@[simp] theorem closeWindow_row : (closeWindow s).row = s.row := rfl
@[simp] theorem closeWindow_idx : (closeWindow s).idx = s.idx := rfl
@[simp] theorem closeWindow_curX : (closeWindow s).curX = s.curX := rfl
@[simp] theorem closeWindow_curY : (closeWindow s).curY = s.curY := rfl
@[simp] theorem closeWindow_pos : (closeWindow s).pos = s.pos := rfl
@[simp] theorem closeWindow_trace : (closeWindow s).trace = s.trace := rfl
@[simp] theorem closeWindow_panel : (closeWindow s).panel = s.panel := rfl
@[simp] theorem closeWindow_result : (closeWindow s).result = s.result := rfl
@[simp] theorem closeWindow_prog : (closeWindow s).prog = s.prog := rfl
@[simp] theorem closeWindow_busPort : (closeWindow s).busPort = s.busPort := rfl

@[simp] theorem openWindow_params : (openWindow x y w h s).params = s.params := rfl
@[simp] theorem openWindow_glyphRom : (openWindow x y w h s).glyphRom = s.glyphRom := rfl
@[simp] theorem openWindow_remapRom : (openWindow x y w h s).remapRom = s.remapRom := rfl
@[simp] theorem openWindow_dec : (openWindow x y w h s).dec = s.dec := rfl
@[simp] theorem openWindow_win : (openWindow x y w h s).win = { x := x, y := y, w := w, h := h, isOpen := true } := rfl
@[simp] theorem openWindow_txbuf : (openWindow x y w h s).txbuf = s.txbuf := rfl
@[simp] theorem openWindow_busSel : (openWindow x y w h s).busSel = s.busSel := rfl
@[simp] theorem openWindow_rstl : (openWindow x y w h s).rstl = s.rstl := rfl
@[simp] theorem openWindow_rem : (openWindow x y w h s).rem = s.rem := rfl
@[simp] theorem openWindow_off : (openWindow x y w h s).off = s.off := rfl
@[simp] theorem openWindow_col : (openWindow x y w h s).col = s.col := rfl
@[simp] theorem openWindow_row : (openWindow x y w h s).row = s.row := rfl
@[simp] theorem openWindow_idx : (openWindow x y w h s).idx = s.idx := rfl
@[simp] theorem openWindow_curX : (openWindow x y w h s).curX = s.curX := rfl
@[simp] theorem openWindow_curY : (openWindow x y w h s).curY = s.curY := rfl
@[simp] theorem openWindow_pos : (openWindow x y w h s).pos = s.pos := rfl
@[simp] theorem openWindow_trace : (openWindow x y w h s).trace = s.trace := rfl
@[simp] theorem openWindow_panel : (openWindow x y w h s).panel = s.panel := rfl
@[simp] theorem openWindow_result : (openWindow x y w h s).result = s.result := rfl
@[simp] theorem openWindow_prog : (openWindow x y w h s).prog = s.prog := rfl
@[simp] theorem openWindow_busPort : (openWindow x y w h s).busPort = s.busPort := rfl

@[simp] theorem judgeWindow_params : (judgeWindow x y w h s).params = s.params := rfl
@[simp] theorem judgeWindow_glyphRom : (judgeWindow x y w h s).glyphRom = s.glyphRom := rfl
@[simp] theorem judgeWindow_remapRom : (judgeWindow x y w h s).remapRom = s.remapRom := rfl
@[simp] theorem judgeWindow_dec : (judgeWindow x y w h s).dec = s.dec := rfl
@[simp] theorem judgeWindow_win : (judgeWindow x y w h s).win = s.win := rfl
@[simp] theorem judgeWindow_txbuf : (judgeWindow x y w h s).txbuf = s.txbuf := rfl
@[simp] theorem judgeWindow_busSel : (judgeWindow x y w h s).busSel = s.busSel := rfl
@[simp] theorem judgeWindow_rstl : (judgeWindow x y w h s).rstl = s.rstl := rfl
@[simp] theorem judgeWindow_rem : (judgeWindow x y w h s).rem = s.rem := rfl
@[simp] theorem judgeWindow_off : (judgeWindow x y w h s).off = s.off := rfl
@[simp] theorem judgeWindow_col : (judgeWindow x y w h s).col = s.col := rfl
@[simp] theorem judgeWindow_row : (judgeWindow x y w h s).row = s.row := rfl
@[simp] theorem judgeWindow_idx : (judgeWindow x y w h s).idx = s.idx := rfl
@[simp] theorem judgeWindow_curX : (judgeWindow x y w h s).curX = s.curX := rfl
@[simp] theorem judgeWindow_curY : (judgeWindow x y w h s).curY = s.curY := rfl
@[simp] theorem judgeWindow_pos : (judgeWindow x y w h s).pos = s.pos := rfl
@[simp] theorem judgeWindow_trace : (judgeWindow x y w h s).trace = s.trace := rfl
@[simp] theorem judgeWindow_panel : (judgeWindow x y w h s).panel = if onPanel x y w h then s.panel else Panel.refused := rfl
@[simp] theorem judgeWindow_result : (judgeWindow x y w h s).result = s.result := rfl
@[simp] theorem judgeWindow_prog : (judgeWindow x y w h s).prog = s.prog := rfl
@[simp] theorem judgeWindow_busPort : (judgeWindow x y w h s).busPort = s.busPort := rfl

@[simp] theorem judgeRects_params : (judgeRects rs s).params = s.params := rfl
@[simp] theorem judgeRects_glyphRom : (judgeRects rs s).glyphRom = s.glyphRom := rfl
@[simp] theorem judgeRects_remapRom : (judgeRects rs s).remapRom = s.remapRom := rfl
@[simp] theorem judgeRects_dec : (judgeRects rs s).dec = s.dec := rfl
@[simp] theorem judgeRects_win : (judgeRects rs s).win = s.win := rfl
@[simp] theorem judgeRects_txbuf : (judgeRects rs s).txbuf = s.txbuf := rfl
@[simp] theorem judgeRects_busSel : (judgeRects rs s).busSel = s.busSel := rfl
@[simp] theorem judgeRects_rstl : (judgeRects rs s).rstl = s.rstl := rfl
@[simp] theorem judgeRects_rem : (judgeRects rs s).rem = s.rem := rfl
@[simp] theorem judgeRects_off : (judgeRects rs s).off = s.off := rfl
@[simp] theorem judgeRects_col : (judgeRects rs s).col = s.col := rfl
@[simp] theorem judgeRects_row : (judgeRects rs s).row = s.row := rfl
@[simp] theorem judgeRects_idx : (judgeRects rs s).idx = s.idx := rfl
@[simp] theorem judgeRects_curX : (judgeRects rs s).curX = s.curX := rfl
@[simp] theorem judgeRects_curY : (judgeRects rs s).curY = s.curY := rfl
@[simp] theorem judgeRects_pos : (judgeRects rs s).pos = s.pos := rfl
@[simp] theorem judgeRects_trace : (judgeRects rs s).trace = s.trace := rfl
@[simp] theorem judgeRects_panel : (judgeRects rs s).panel = if rs.all (fun r => onPanel r.x r.y r.w r.h) then s.panel else Panel.refused := rfl
@[simp] theorem judgeRects_result : (judgeRects rs s).result = s.result := rfl
@[simp] theorem judgeRects_prog : (judgeRects rs s).prog = s.prog := rfl
@[simp] theorem judgeRects_busPort : (judgeRects rs s).busPort = s.busPort := rfl

@[simp] theorem loadTxbuf_params : (loadTxbuf chunk s).params = s.params := rfl
@[simp] theorem loadTxbuf_glyphRom : (loadTxbuf chunk s).glyphRom = s.glyphRom := rfl
@[simp] theorem loadTxbuf_remapRom : (loadTxbuf chunk s).remapRom = s.remapRom := rfl
@[simp] theorem loadTxbuf_dec : (loadTxbuf chunk s).dec = s.dec := rfl
@[simp] theorem loadTxbuf_win : (loadTxbuf chunk s).win = s.win := rfl
@[simp] theorem loadTxbuf_txbuf : (loadTxbuf chunk s).txbuf = s.txbuf.writeRun 0 chunk := rfl
@[simp] theorem loadTxbuf_busSel : (loadTxbuf chunk s).busSel = s.busSel := rfl
@[simp] theorem loadTxbuf_rstl : (loadTxbuf chunk s).rstl = s.rstl := rfl
@[simp] theorem loadTxbuf_rem : (loadTxbuf chunk s).rem = s.rem := rfl
@[simp] theorem loadTxbuf_off : (loadTxbuf chunk s).off = s.off := rfl
@[simp] theorem loadTxbuf_col : (loadTxbuf chunk s).col = s.col := rfl
@[simp] theorem loadTxbuf_row : (loadTxbuf chunk s).row = s.row := rfl
@[simp] theorem loadTxbuf_idx : (loadTxbuf chunk s).idx = s.idx := rfl
@[simp] theorem loadTxbuf_curX : (loadTxbuf chunk s).curX = s.curX := rfl
@[simp] theorem loadTxbuf_curY : (loadTxbuf chunk s).curY = s.curY := rfl
@[simp] theorem loadTxbuf_pos : (loadTxbuf chunk s).pos = s.pos := rfl
@[simp] theorem loadTxbuf_trace : (loadTxbuf chunk s).trace = s.trace := rfl
@[simp] theorem loadTxbuf_panel : (loadTxbuf chunk s).panel = s.panel := rfl
@[simp] theorem loadTxbuf_result : (loadTxbuf chunk s).result = s.result := rfl
@[simp] theorem loadTxbuf_prog : (loadTxbuf chunk s).prog = s.prog := rfl
@[simp] theorem loadTxbuf_busPort : (loadTxbuf chunk s).busPort = s.busPort := rfl

@[simp] theorem beginOp_params : (beginOp s).params = s.params := rfl
@[simp] theorem beginOp_glyphRom : (beginOp s).glyphRom = s.glyphRom := rfl
@[simp] theorem beginOp_remapRom : (beginOp s).remapRom = s.remapRom := rfl
@[simp] theorem beginOp_dec : (beginOp s).dec = s.dec := rfl
@[simp] theorem beginOp_win : (beginOp s).win = s.win := rfl
@[simp] theorem beginOp_txbuf : (beginOp s).txbuf = s.txbuf := rfl
@[simp] theorem beginOp_busSel : (beginOp s).busSel = true := rfl
@[simp] theorem beginOp_rstl : (beginOp s).rstl = s.rstl := rfl
@[simp] theorem beginOp_rem : (beginOp s).rem = s.rem := rfl
@[simp] theorem beginOp_off : (beginOp s).off = s.off := rfl
@[simp] theorem beginOp_col : (beginOp s).col = s.col := rfl
@[simp] theorem beginOp_row : (beginOp s).row = s.row := rfl
@[simp] theorem beginOp_idx : (beginOp s).idx = s.idx := rfl
@[simp] theorem beginOp_curX : (beginOp s).curX = s.curX := rfl
@[simp] theorem beginOp_curY : (beginOp s).curY = s.curY := rfl
@[simp] theorem beginOp_pos : (beginOp s).pos = s.pos := rfl
@[simp] theorem beginOp_trace : (beginOp s).trace = s.trace ++ [.sel true] := rfl
@[simp] theorem beginOp_panel : (beginOp s).panel = s.panel := rfl
@[simp] theorem beginOp_result : (beginOp s).result = s.result := rfl
@[simp] theorem beginOp_prog : (beginOp s).prog = s.prog := rfl
@[simp] theorem beginOp_busPort : (beginOp s).busPort = s.busPort := rfl

@[simp] theorem endOp_params : (endOp s).params = s.params := rfl
@[simp] theorem endOp_glyphRom : (endOp s).glyphRom = s.glyphRom := rfl
@[simp] theorem endOp_remapRom : (endOp s).remapRom = s.remapRom := rfl
@[simp] theorem endOp_dec : (endOp s).dec = s.dec := rfl
@[simp] theorem endOp_win : (endOp s).win = { s.win with isOpen := false } := rfl
@[simp] theorem endOp_txbuf : (endOp s).txbuf = s.txbuf := rfl
@[simp] theorem endOp_busSel : (endOp s).busSel = false := rfl
@[simp] theorem endOp_rstl : (endOp s).rstl = s.rstl := rfl
@[simp] theorem endOp_rem : (endOp s).rem = s.rem := rfl
@[simp] theorem endOp_off : (endOp s).off = s.off := rfl
@[simp] theorem endOp_col : (endOp s).col = s.col := rfl
@[simp] theorem endOp_row : (endOp s).row = s.row := rfl
@[simp] theorem endOp_idx : (endOp s).idx = s.idx := rfl
@[simp] theorem endOp_curX : (endOp s).curX = s.curX := rfl
@[simp] theorem endOp_curY : (endOp s).curY = s.curY := rfl
@[simp] theorem endOp_pos : (endOp s).pos = s.pos := rfl
@[simp] theorem endOp_trace : (endOp s).trace = s.trace ++ [.sel false] := rfl
@[simp] theorem endOp_panel : (endOp s).panel = s.panel.observe s.params (.sel false) := rfl
@[simp] theorem endOp_result : (endOp s).result = s.result := rfl
@[simp] theorem endOp_prog : (endOp s).prog = s.prog := rfl
@[simp] theorem endOp_busPort : (endOp s).busPort = s.busPort := rfl

@[simp] theorem driveReset_params : (driveReset level s).params = s.params := rfl
@[simp] theorem driveReset_glyphRom : (driveReset level s).glyphRom = s.glyphRom := rfl
@[simp] theorem driveReset_remapRom : (driveReset level s).remapRom = s.remapRom := rfl
@[simp] theorem driveReset_dec : (driveReset level s).dec = s.dec := rfl
@[simp] theorem driveReset_win : (driveReset level s).win = s.win := rfl
@[simp] theorem driveReset_txbuf : (driveReset level s).txbuf = s.txbuf := rfl
@[simp] theorem driveReset_busSel : (driveReset level s).busSel = s.busSel := rfl
@[simp] theorem driveReset_rstl : (driveReset level s).rstl = level := rfl
@[simp] theorem driveReset_rem : (driveReset level s).rem = s.rem := rfl
@[simp] theorem driveReset_off : (driveReset level s).off = s.off := rfl
@[simp] theorem driveReset_col : (driveReset level s).col = s.col := rfl
@[simp] theorem driveReset_row : (driveReset level s).row = s.row := rfl
@[simp] theorem driveReset_idx : (driveReset level s).idx = s.idx := rfl
@[simp] theorem driveReset_curX : (driveReset level s).curX = s.curX := rfl
@[simp] theorem driveReset_curY : (driveReset level s).curY = s.curY := rfl
@[simp] theorem driveReset_pos : (driveReset level s).pos = s.pos := rfl
@[simp] theorem driveReset_trace : (driveReset level s).trace = s.trace ++ [.rst level] := rfl
@[simp] theorem driveReset_panel : (driveReset level s).panel = s.panel.observe s.params (.rst level) := rfl
@[simp] theorem driveReset_result : (driveReset level s).result = s.result := rfl
@[simp] theorem driveReset_prog : (driveReset level s).prog = s.prog := rfl
@[simp] theorem driveReset_busPort : (driveReset level s).busPort = s.busPort := rfl

/-- The end of an operation answers a next state. -/
@[simp] theorem finish_eq : finish r s = .next { s with result := r } := rfl

/-- An operation that ends does so in the state it reached, with its result. -/
theorem finish_next (t : State) : finish r s = .next t ↔ t = { s with result := r } := by
  constructor
  · intro h
    cases h
    rfl
  · rintro rfl
    rfl

end Sys2Proof.Machine
end

