-- ==== Sys2Proof/Laws/Ops.lean ====
section
/-! SUPPORT. What each shared operation does, said once: the events it appends, as `emitAll`, and the registers it writes.
Callers cite these and do not unfold the operation. -/

namespace Sys2Proof.Machine

theorem emitAll_nil (s : State) : emitAll [] s = s := by
  simp [emitAll]

theorem emitAll_append (es fs : List Event) (s : State) : emitAll (es ++ fs) s = emitAll fs (emitAll es s) := by
  simp [emitAll]

theorem emit_eq_emitAll (e : Event) (s : State) : emit e s = emitAll [e] s := rfl

theorem emitAll_cons (e : Event) (es : List Event) (s : State) : emitAll (e :: es) s = emitAll es (emit e s) := by
  rw [emit_eq_emitAll, ← emitAll_append, List.singleton_append]

/-- A panel marked refused takes no event (log entry 11). -/
theorem observe_refused (q : Params) (e : Event) : Panel.observe q Panel.refused e = Panel.refused := by
  cases e with
  | rst b => cases b <;> rfl
  | wait n => rfl
  | sel b => cases b <;> rfl
  | wr d bs => cases d <;> rfl

theorem observeAll_refused (q : Params) (es : List Event) : es.foldl (Panel.observe q) Panel.refused = Panel.refused := by
  induction es with
  | nil => rfl
  | cons e es ih => rw [List.foldl_cons, observe_refused, ih]

/-- A window on the panel changes nothing on the panel's side. -/
theorem judgeWindow_of_onPanel (x y w h : Nat) (s : State) (hon : onPanel x y w h = true) : judgeWindow x y w h s = s := by
  rw [judgeWindow, if_pos hon]

theorem writeOp_nil (dc : DC) (s : State) : writeOp dc [] s = s := rfl

theorem writeOp_of_ne (dc : DC) (bs : List Byte) (s : State) (h : bs ≠ []) : writeOp dc bs s = emit (.wr dc bs) s := by
  rw [writeOp, if_neg h]

theorem sendCmd_eq (c : Byte) (s : State) : sendCmd c s = closeWindow (emitAll [.wr .cmd [c]] s) := rfl

/-- A command frame appends its events and closes the window (rules R80, R131, R132). -/
theorem sendFrame_eq (c : Byte) (ps : List Byte) (s : State) :
    sendFrame c ps s = closeWindow (emitAll (frameEvents c ps) s) := by
  by_cases h : ps = []
  · subst h; rfl
  · rw [sendFrame, sendData, writeOp_of_ne _ _ _ h, sendCmd_eq, frameEvents, if_neg h]
    simp [emitAll, emit, closeWindow]

/-- What is read back from `TXBUF` is the chunk just written there (rule R71 (b)). -/
theorem sendChunk_eq (chunk : List Byte) (s : State) : sendChunk chunk s = writeOp .dat chunk (loadTxbuf chunk s) := by
  simp only [sendChunk, loadTxbuf_txbuf, Memory.readRun_writeRun]

/-- The configuration list appends the frames of its entries in order (rule R135). -/
theorem sendConfig_eq (i : Nat) (es : List CfgEntry) (s : State) :
    sendConfig i es s =
      { emitAll (es.flatMap (fun e => frameEvents e.cmd e.params)) s with
        win := if es = [] then s.win else { s.win with isOpen := false }
        idx := if es = [] then s.idx else i + es.length - 1 } := by
  induction es generalizing i s with
  | nil => simp [sendConfig, emitAll]
  | cons e es ih =>
    rw [sendConfig, ih, sendFrame_eq]
    by_cases h : es = []
    · subst h
      simp [emitAll, closeWindow]
    · obtain ⟨n, hn⟩ : ∃ n, es.length = n + 1 := ⟨es.length - 1, by have := List.length_pos_of_ne_nil h; omega⟩
      simp [emitAll, closeWindow, h, hn]
      omega

theorem sendCmds_eq (cs : List Byte) (s : State) :
    sendCmds cs s =
      { emitAll (cs.map (fun c => Event.wr .cmd [c])) s with
        win := if cs = [] then s.win else { s.win with isOpen := false } } := by
  induction cs generalizing s with
  | nil => simp [sendCmds, emitAll]
  | cons c cs ih =>
    have : sendCmds (c :: cs) s = sendCmds cs (sendCmd c s) := rfl
    rw [this, ih, sendCmd_eq]
    by_cases h : cs = [] <;> simp [emitAll, closeWindow, h]

/-- INIT appends exactly its events and leaves the reset line released, the bracket closed, the window closed (rule R134). -/
theorem initOp_eq (s : State) :
    initOp s =
      { emitAll (initEvents s.params) s with
        busSel := false
        rstl := false
        win := { s.win with isOpen := false }
        idx := if s.params.initCfg = [] then s.idx else s.params.initCfg.length - 1 } := by
  simp only [initOp, sendConfig_eq, sendCmd_eq, initEvents]
  by_cases h : s.params.initCfg = [] <;>
    simp [emitAll, closeWindow, endOp, beginOp, resetPulse, driveReset, emit, h]

/-- SETPOWER appends exactly its events (rule R143). -/
theorem setPowerOp_eq (on : Bool) (s : State) :
    setPowerOp on s =
      { emitAll (powerEvents (if on then s.params.pwrOnCmds else s.params.pwrOffCmds)) s with
        busSel := false
        win := { s.win with isOpen := false } } := by
  have key : ∀ cs : List Byte, endOp (sendCmds cs (beginOp s)) =
      { emitAll (powerEvents cs) s with busSel := false, win := { s.win with isOpen := false } } := by
    intro cs
    rw [sendCmds_eq]
    by_cases h : cs = [] <;> simp [emitAll, closeWindow, endOp, beginOp, emit, powerEvents, h]
  cases on <;> exact key _

theorem addrParams_ne_nil (a n : Nat) : addrParams a n ≠ [] := by simp [addrParams]

/-- SETWINDOW appends its five writes, then records and opens the window (rule R140). -/
theorem setWindowOp_eq (x y w h : Nat) (s : State) :
    setWindowOp x y w h s =
      { emitAll (windowEvents x y w h) (judgeWindow x y w h s) with
        win := { x := x, y := y, w := w, h := h, isOpen := true } } := by
  simp [setWindowOp, sendFrame_eq, sendCmd_eq, emitAll, closeWindow, openWindow, windowEvents, frameEvents, addrParams]

end Sys2Proof.Machine
end

