-- ==== Sys2Proof/Laws/Stream.lean ====
section
/-! SUPPORT. What FILL, BLIT, FILLRECT and BLITIMAGE do, said once (rules R151 to R158): the chunks of the stream, the content of
`TXBUF`, the registers. -/

namespace Sys2Proof.Machine

theorem colorStream_length (n : Nat) (color : Half) : (colorStream n color).length = 2 * n := by
  induction n with
  | zero => rfl
  | succ n ih =>
    have : colorStream (n + 1) color = pixelBytes color ++ colorStream n color := rfl
    rw [this, List.length_append, ih]
    simp [pixelBytes]
    omega

theorem colorStream_add (k n : Nat) (color : Half) : colorStream (k + n) color = colorStream k color ++ colorStream n color := by
  rw [colorStream, List.replicate_add, List.flatten_append]
  rfl

/-- A chunk of an even size is whole pixels (rule R152 (a)). -/
theorem fillChunk_even (color : Half) (k : Nat) : fillChunk color (2 * k) = colorStream k color := by
  induction k with
  | zero => rfl
  | succ k ih =>
    have h1 : (2 * k + 1) % 2 = 1 := by omega
    rw [Nat.mul_succ, fillChunk, List.range_succ, List.range_succ, List.map_append, List.map_append, colorStream_add, ← ih]
    simp [fillChunk, patternByte, colorStream, pixelBytes, h1]

/-- The next chunk FILL packs is the front of what is left of the stream. -/
theorem fillChunk_take (color : Half) (cap n : Nat) (hc : cap % 2 = 0) :
    fillChunk color (min cap (2 * n)) = (colorStream n color).take cap ∧
      (colorStream n color).drop cap = colorStream (n - cap / 2) color := by
  by_cases h : cap ≤ 2 * n
  · obtain ⟨k, rfl⟩ : ∃ k, cap = 2 * k := ⟨cap / 2, by omega⟩
    obtain ⟨m, rfl⟩ : ∃ m, n = k + m := ⟨n - k, by omega⟩
    have hk : (colorStream k color).length = 2 * k := colorStream_length k color
    rw [Nat.min_eq_left h, fillChunk_even, colorStream_add, List.take_left' hk, List.drop_left' hk]
    exact ⟨rfl, by congr 1; omega⟩
  · have hl := colorStream_length n color
    rw [Nat.min_eq_right (by omega), fillChunk_even, List.take_of_length_le (by omega), List.drop_of_length_le (by omega)]
    refine ⟨rfl, ?_⟩
    rw [show n - cap / 2 = 0 by omega]
    rfl

theorem whileRem_zero (turn : State → State) (fuel : Nat) (s : State) (h : s.rem = 0) : whileRem turn fuel s = s := by
  cases fuel <;> simp [whileRem, h]

theorem cutChunks_nil (cap fuel : Nat) : cutChunks cap fuel [] = [] := by cases fuel <;> simp [cutChunks]

/-- A non-empty chunk is sent by one write (rule R151). -/
theorem sendChunk_of_ne (chunk : List Byte) (s : State) (h : chunk ≠ []) :
    sendChunk chunk s = emit (.wr .dat chunk) (loadTxbuf chunk s) := by
  rw [sendChunk_eq, writeOp_of_ne _ _ _ h]

/-- The state after the chunks `cs` of a stream were placed in `TXBUF` and sent. -/
def streamed (cs : List (List Byte)) (s : State) : State :=
  { emitAll (cs.map (fun c => Event.wr .dat c)) s with rem := 0, txbuf := loadChunks cs s.txbuf }

theorem streamed_nil (s : State) (h : s.rem = 0) : streamed [] s = s := by
  obtain ⟨⟩ := s
  simp only at h
  subst h
  simp [streamed, emitAll, loadChunks]

/-- The loop of FILL sends the chunks of the colour stream (rules R152, R153). -/
theorem fillLoop_eq (color : Half) (cap : Nat) (hc : cap % 2 = 0) (h2 : 2 ≤ cap) (fuel n : Nat) (s : State)
    (hcap : s.params.txbufCap = cap) (hrem : s.rem = 2 * n) (hf : 2 * n ≤ fuel) :
    whileRem (fillTurn color) fuel s = streamed (cutChunks cap fuel (colorStream n color)) s := by
  induction fuel generalizing n s with
  | zero =>
    have : n = 0 := by omega
    subst this
    exact (streamed_nil s hrem).symm
  | succ fuel ih =>
    by_cases h0 : n = 0
    · subst h0
      rw [whileRem_zero _ _ _ hrem]
      exact (streamed_nil s hrem).symm
    · obtain ⟨ht, hd⟩ := fillChunk_take color cap n hc
      have hl := colorStream_length n color
      have hne : colorStream n color ≠ [] := by
        intro h; rw [h] at hl; simp at hl; omega
      have hcs : chunkSize s = min cap (2 * n) := by rw [chunkSize, hcap, hrem]
      have hch : (colorStream n color).take cap ≠ [] := by
        intro h; have := congrArg List.length h; rw [List.length_take, hl] at this; simp at this; omega
      rw [whileRem, if_neg (by omega), fillTurn, hcs, ht, sendChunk_of_ne _ _ hch,
        ih (n - cap / 2) _ (by simpa using hcap) (by simp only [hrem]; omega) (by omega), cutChunks, if_neg hne, hd]
      simp [streamed, emitAll, emit, loadTxbuf, loadChunks]

/-- The loop of BLIT sends the chunks of the source (rules R154, R155). -/
theorem blitLoop_eq (data : List Byte) (cap : Nat) (h2 : 1 ≤ cap) (fuel n : Nat) (s : State)
    (hcap : s.params.txbufCap = cap) (hrem : s.rem = n) (hf : n ≤ fuel) (hlen : s.off + n ≤ data.length) :
    whileRem (blitTurn data) fuel s =
      { streamed (cutChunks cap fuel ((data.drop s.off).take n)) s with off := s.off + n } := by
  induction fuel generalizing n s with
  | zero =>
    have h0 : s.rem = 0 := by omega
    rw [whileRem_zero _ _ _ h0, cutChunks, streamed_nil s h0, ← hrem, h0]
    rfl
  | succ fuel ih =>
    by_cases h0 : s.rem = 0
    · rw [whileRem_zero _ _ _ h0, ← hrem, h0, List.take_zero, cutChunks_nil, streamed_nil s h0]
      rfl
    · have hl : ((data.drop s.off).take n).length = n := by rw [List.length_take, List.length_drop]; omega
      have hne : (data.drop s.off).take n ≠ [] := by
        intro h; rw [h] at hl; simp at hl; omega
      have hcs : chunkSize s = min cap n := by rw [chunkSize, hcap, hrem]
      have ht : sourceChunk data s.off (min cap n) = ((data.drop s.off).take n).take cap := by
        rw [sourceChunk, List.take_take]
      have hch : ((data.drop s.off).take n).take cap ≠ [] := by
        intro h; have := congrArg List.length h; rw [List.length_take, hl] at this; simp at this; omega
      have hd : ((data.drop s.off).take n).drop cap = (data.drop (s.off + min cap n)).take (n - min cap n) := by
        rcases Nat.le_total cap n with h | h
        · rw [Nat.min_eq_left h, List.drop_take, List.drop_drop]
        · rw [Nat.min_eq_right h, List.drop_of_length_le (by omega), Nat.sub_self, List.take_zero]
      rw [whileRem, if_neg (by omega), blitTurn, hcs, ht, sendChunk_of_ne _ _ hch,
        ih (n - min cap n) _ (by simpa using hcap) (by simp [hrem]) (by omega) (by simp; omega), cutChunks, if_neg hne, hd]
      simp [streamed, emitAll, emit, loadTxbuf, loadChunks]

/-- FILL sends the colour stream of the declared window and closes it (rules R152, R153). -/
theorem fillOp_eq (color : Half) (s : State) (hp : s.params.ok) :
    fillOp color s =
      closeWindow (streamed (chunksOf s.params.txbufCap (colorStream (s.win.w * s.win.h) color)) s) := by
  have hn : streamBytes s.win.w s.win.h = 2 * (s.win.w * s.win.h) := by rw [streamBytes, Nat.mul_assoc]
  simp only [fillOp, chunksOf, colorStream_length, hn]
  rw [fillLoop_eq color s.params.txbufCap hp.1 hp.2.1 _ (s.win.w * s.win.h)
    { s with rem := 2 * (s.win.w * s.win.h) } rfl rfl (Nat.le_refl _)]
  simp [streamed, closeWindow, emitAll]

/-- BLIT sends the front of the source and closes the window (rules R154, R155). -/
theorem blitOp_eq (data : List Byte) (s : State) (hp : s.params.ok) (hlen : streamBytes s.win.w s.win.h ≤ data.length) :
    blitOp data s =
      { closeWindow (streamed (chunksOf s.params.txbufCap (data.take (streamBytes s.win.w s.win.h))) s) with
        off := streamBytes s.win.w s.win.h } := by
  have hl : (data.take (streamBytes s.win.w s.win.h)).length = streamBytes s.win.w s.win.h := by
    rw [List.length_take]; omega
  simp only [blitOp, chunksOf, hl]
  rw [blitLoop_eq data s.params.txbufCap (by have := hp.2.1; omega) _ (streamBytes s.win.w s.win.h)
    { s with rem := streamBytes s.win.w s.win.h, off := 0 } rfl rfl (Nat.le_refl _) (by simpa using hlen)]
  simp [streamed, closeWindow, emitAll]

/-- FILLRECT appends exactly its events and records its window, closed (rule R157). -/
theorem fillRectOp_eq (x y w h : Nat) (color : Half) (s : State) (hp : s.params.ok) :
    fillRectOp x y w h color s =
      { emitAll (rectEvents s.params.txbufCap x y w h color) (judgeWindow x y w h s) with
        busSel := false
        win := { x := x, y := y, w := w, h := h, isOpen := false }
        rem := 0
        txbuf := loadChunks (chunksOf s.params.txbufCap (colorStream (w * h) color)) s.txbuf } := by
  rw [fillRectOp, setWindowOp_eq, fillOp_eq _ _ (by simpa using hp)]
  simp [streamed, closeWindow, endOp, beginOp, emit, emitAll, rectEvents, streamEvents, Panel.observe]

/-- BLITIMAGE appends exactly its events and records its window, closed (rule R158). -/
theorem blitImageOp_eq (x y w h : Nat) (data : List Byte) (s : State) (hp : s.params.ok)
    (hlen : streamBytes w h ≤ data.length) :
    blitImageOp x y w h data s =
      { emitAll (imageEvents s.params.txbufCap x y w h data) (judgeWindow x y w h s) with
        busSel := false
        win := { x := x, y := y, w := w, h := h, isOpen := false }
        rem := 0
        off := streamBytes w h
        txbuf := loadChunks (chunksOf s.params.txbufCap (data.take (streamBytes w h))) s.txbuf } := by
  rw [blitImageOp, setWindowOp_eq, blitOp_eq _ _ (by simpa using hp) (by simpa using hlen)]
  simp [streamed, closeWindow, endOp, beginOp, emit, emitAll, imageEvents, streamEvents, Panel.observe, streamBytes]

end Sys2Proof.Machine
end

