-- ==== Sys2Proof/Laws/Glyph.lean ====
section
/-! SUPPORT. What DRAWCHAR and PRINTLINE do, said once: DRAWCHAR is its rectangles (rule R178), PRINTLINE is its DRAWCHAR calls
(rule R212). -/

namespace Sys2Proof.Machine

@[simp] theorem drawRects_nil (s : State) : drawRects [] s = s := rfl
theorem drawRects_cons (r : Rect) (rs : List Rect) (s : State) :
    drawRects (r :: rs) s = drawRects rs (fillRectOp r.x r.y r.w r.h r.color s) := rfl
theorem drawRects_append (rs qs : List Rect) (s : State) : drawRects (rs ++ qs) s = drawRects qs (drawRects rs s) := by
  simp [drawRects]

/-- A FILLRECT leaves the parameters alone. -/
theorem fillRectOp_params (x y w h : Nat) (color : Half) (s : State) (hp : s.params.ok) :
    (fillRectOp x y w h color s).params = s.params := by
  rw [fillRectOp_eq _ _ _ _ _ _ hp]
  rfl

theorem fillRectOp_glyphRom (x y w h : Nat) (color : Half) (s : State) (hp : s.params.ok) :
    (fillRectOp x y w h color s).glyphRom = s.glyphRom := by
  rw [fillRectOp_eq _ _ _ _ _ _ hp]
  rfl

theorem drawRects_frame (rs : List Rect) (s : State) (hp : s.params.ok) :
    (drawRects rs s).params = s.params ∧ (drawRects rs s).glyphRom = s.glyphRom := by
  induction rs generalizing s with
  | nil => exact ⟨rfl, rfl⟩
  | cons r rs ih =>
    have h1 := fillRectOp_params r.x r.y r.w r.h r.color s hp
    have h2 := fillRectOp_glyphRom r.x r.y r.w r.h r.color s hp
    have := ih (fillRectOp r.x r.y r.w r.h r.color s) (by rw [h1]; exact hp)
    rw [drawRects_cons, this.1, this.2, h1, h2]
    exact ⟨rfl, rfl⟩

/-- The registers a composer or a rasterizer writes, written afterwards, do not change what a FILLRECT does. -/
def setRegs (col row pos curX curY : Nat) (d : DecState) (s : State) : State :=
  { s with col := col, row := row, pos := pos, curX := curX, curY := curY, dec := d }

theorem fillRectOp_setRegs (x y w h : Nat) (color : Half) (c r p cx cy : Nat) (d : DecState) (s : State) (hp : s.params.ok) :
    fillRectOp x y w h color (setRegs c r p cx cy d s) = setRegs c r p cx cy d (fillRectOp x y w h color s) := by
  rw [fillRectOp_eq _ _ _ _ _ _ hp, fillRectOp_eq _ _ _ _ _ (setRegs c r p cx cy d s) hp]
  rfl

theorem drawRects_setRegs (rs : List Rect) (c r p cx cy : Nat) (d : DecState) (s : State) (hp : s.params.ok) :
    drawRects rs (setRegs c r p cx cy d s) = setRegs c r p cx cy d (drawRects rs s) := by
  induction rs generalizing s with
  | nil => rfl
  | cons q rs ih =>
    rw [drawRects_cons, drawRects_cons, fillRectOp_setRegs _ _ _ _ _ _ _ _ _ _ _ _ hp, ih]
    rw [fillRectOp_params _ _ _ _ _ _ hp]
    exact hp

/-- The rectangles of a cell depend on the parameters and the font alone. -/
theorem cellRect_congr (a : CharArgs) (s t : State) (h1 : t.params = s.params) (h2 : t.glyphRom = s.glyphRom) :
    cellRect a t = cellRect a s := by
  have h : ∀ c r, cellSet a c r t = cellSet a c r s := fun c r => by simp only [cellSet, glyphColumn, h1, h2]
  funext cr
  simp only [cellRect, h]

theorem charRects_congr (a : CharArgs) (s t : State) (h1 : t.params = s.params) (h2 : t.glyphRom = s.glyphRom) :
    charRects a t = charRects a s := by
  simp only [charRects, cellRect_congr a s t h1 h2]

/-- One cell is its rectangle, if it has one. -/
theorem drawCell_eq (a : CharArgs) (c r : Nat) (s : State) (hp : s.params.ok) :
    drawCell a c r s = setRegs c r s.pos s.curX s.curY s.dec (drawRects (cellRect a s (c, r)).toList s) := by
  have hset : ∀ t : State, cellSet a c r { t with col := c, row := r } = cellSet a c r t := fun _ => rfl
  have hreg : ({ s with col := c, row := r } : State) = setRegs c r s.pos s.curX s.curY s.dec s := rfl
  simp only [drawCell, hset, cellRect, transparent, beq_iff_eq]
  by_cases h : cellSet a c r s = true
  · simp only [h, if_true]
    rw [hreg, fillRectOp_setRegs _ _ _ _ _ _ _ _ _ _ _ _ hp]
    rfl
  · simp only [h]
    by_cases ht : a.bg = a.fg
    · simp only [ht, if_true]
      rfl
    · simp only [ht, if_false, Bool.false_eq_true]
      rw [hreg, fillRectOp_setRegs _ _ _ _ _ _ _ _ _ _ _ _ hp]
      rfl

/-- Cells drawn one after the other are their rectangles; the sequencer registers hold the last cell. -/
theorem drawCells_eq (a : CharArgs) (l : List (Nat × Nat)) (c r : Nat) (s : State) (hp : s.params.ok) :
    (l ++ [(c, r)]).foldl (fun s cr => drawCell a cr.1 cr.2 s) s =
      setRegs c r s.pos s.curX s.curY s.dec (drawRects ((l ++ [(c, r)]).filterMap (cellRect a s)) s) := by
  induction l generalizing s with
  | nil =>
    rw [List.nil_append, List.foldl_cons, List.foldl_nil, drawCell_eq a c r s hp]
    cases h : cellRect a s (c, r) <;> simp [h]
  | cons q l ih =>
    obtain ⟨c', r'⟩ := q
    have hd := drawCell_eq a c' r' s hp
    have hf := drawRects_frame (cellRect a s (c', r')).toList s hp
    rw [List.cons_append, List.foldl_cons, ih (drawCell a c' r' s) (by rw [hd]; simpa [setRegs, hf.1] using hp)]
    rw [cellRect_congr a s (drawCell a c' r' s) (by rw [hd]; simpa [setRegs] using hf.1)
      (by rw [hd]; simpa [setRegs] using hf.2)]
    rw [hd, drawRects_setRegs _ _ _ _ _ _ _ _ (by rw [hf.1]; exact hp), ← drawRects_append]
    cases h : cellRect a s (c', r') <;> simp [h, setRegs]

theorem cellOrder_last : cellOrder = cellOrder.dropLast ++ [(4, 7)] := by decide

/-- DRAWCHAR is its rectangles, in order (rule R178). -/
theorem drawCharOp_eq (a : CharArgs) (s : State) (hp : s.params.ok) :
    drawCharOp a s =
      if a.g.toNat < 32 then s
      else setRegs 4 7 s.pos s.curX s.curY s.dec (drawRects (charRects a s) s) := by
  by_cases hg : a.g.toNat < 32
  · rw [if_pos hg, drawCharOp, drawnGlyph, if_neg (by simpa using hg)]
  · have hgrid : drawGrid a s =
        setRegs 4 7 s.pos s.curX s.curY s.dec (drawRects (cellOrder.filterMap (cellRect a s)) s) := by
      have := drawCells_eq a cellOrder.dropLast 4 7 s hp
      rw [← cellOrder_last] at this
      exact this
    rw [if_neg hg, drawCharOp, drawnGlyph, if_pos (by simpa using hg), hgrid, drawSpacing, charRects, if_neg hg]
    by_cases ht : a.bg = a.fg
    · simp [transparent, ht]
    · have hf := drawRects_frame (cellOrder.filterMap (cellRect a s)) s hp
      simp only [transparent, ht, beq_iff_eq, if_false]
      rw [fillRectOp_setRegs _ _ _ _ _ _ _ _ _ _ _ _ (by rw [hf.1]; exact hp), drawRects_append]
      rfl

theorem drawCharOp_frame (a : CharArgs) (s : State) (hp : s.params.ok) :
    (drawCharOp a s).params = s.params ∧ (drawCharOp a s).glyphRom = s.glyphRom := by
  rw [drawCharOp_eq a s hp]
  split
  · exact ⟨rfl, rfl⟩
  · exact drawRects_frame _ s hp

/-- A FILLRECT leaves alone every field it does not name. -/
theorem drawRects_eq (rs : List Rect) (s : State) (hp : s.params.ok) :
    drawRects rs s =
      { emitAll (rs.flatMap (fun r => rectEvents s.params.txbufCap r.x r.y r.w r.h r.color)) (judgeRects rs s) with
        busSel := if rs = [] then s.busSel else false
        win := (rs.getLast?.map (fun r => ({ x := r.x, y := r.y, w := r.w, h := r.h, isOpen := false } : Window))).getD s.win
        rem := if rs = [] then s.rem else 0
        txbuf := loadChunks
          (rs.flatMap (fun r => chunksOf s.params.txbufCap (colorStream (r.w * r.h) r.color))) s.txbuf } := by
  induction rs generalizing s with
  | nil => simp [emitAll, judgeRects, loadChunks]
  | cons r rs ih =>
    rw [drawRects_cons, ih _ (by rw [fillRectOp_params _ _ _ _ _ _ hp]; exact hp), fillRectOp_eq _ _ _ _ _ _ hp]
    cases rs with
    | nil => simp [emitAll, judgeWindow, judgeRects, loadChunks]
    | cons q qs =>
      by_cases h1 : onPanel r.x r.y r.w r.h = true <;>
        by_cases h2 : (q :: qs).all (fun r => onPanel r.x r.y r.w r.h) = true <;>
        simp [emitAll, judgeWindow, judgeRects, loadChunks, List.getLast?_eq_some_getLast (List.cons_ne_nil q qs), h1, h2,
          observeAll_refused]

/-! ## PRINTLINE -/

/-- The composer's registers, written afterwards, do not change what a DRAWCHAR does. -/
def setLine (pos curX curY : Nat) (d : DecState) (s : State) : State := { s with pos := pos, curX := curX, curY := curY, dec := d }

theorem drawCharOp_setLine (a : CharArgs) (p cx cy : Nat) (d : DecState) (s : State) (hp : s.params.ok) :
    drawCharOp a (setLine p cx cy d s) = setLine p cx cy d (drawCharOp a s) := by
  rw [drawCharOp_eq a s hp, drawCharOp_eq a (setLine p cx cy d s) hp]
  split
  · rfl
  · have h : setLine p cx cy d s = setRegs s.col s.row p cx cy d s := rfl
    rw [charRects_congr a s (setLine p cx cy d s) rfl rfl, h, drawRects_setRegs _ _ _ _ _ _ _ _ hp]
    rfl

theorem drawCalls_frame (cs : List CharArgs) (s : State) (hp : s.params.ok) :
    (drawCalls cs s).params = s.params ∧ (drawCalls cs s).glyphRom = s.glyphRom := by
  induction cs generalizing s with
  | nil => exact ⟨rfl, rfl⟩
  | cons a cs ih =>
    have h := drawCharOp_frame a s hp
    have : drawCalls (a :: cs) s = drawCalls cs (drawCharOp a s) := rfl
    have h2 := ih (drawCharOp a s) (by rw [h.1]; exact hp)
    rw [this, h2.1, h2.2]
    exact h

theorem drawCalls_setLine (cs : List CharArgs) (p cx cy : Nat) (d : DecState) (s : State) (hp : s.params.ok) :
    drawCalls cs (setLine p cx cy d s) = setLine p cx cy d (drawCalls cs s) := by
  induction cs generalizing s with
  | nil => rfl
  | cons a cs ih =>
    have h : ∀ t, drawCalls (a :: cs) t = drawCalls cs (drawCharOp a t) := fun _ => rfl
    rw [h, h, drawCharOp_setLine a p cx cy d s hp, ih]
    rw [(drawCharOp_frame a s hp).1]
    exact hp

/-- The decoder and the glyphs over a text, one byte at a time. -/
theorem glyphsFrom_cons (s : State) (b : Byte) (text : List Byte) :
    glyphsFrom (fun l t => remapLookup l t s) s.dec (b :: text) =
      (decodeGlyph b s).toList ++ glyphsFrom (fun l t => remapLookup l t s) (decodeNext b s.dec) text := by
  cases hd : s.dec with
  | idle =>
    simp only [glyphsFrom, decodeGlyph, decodeNext, hd]
    by_cases h1 : b.toNat < 32
    · have h2 : b.toNat < 127 := by omega
      cases text <;> simp [textGlyphs, h1, h2]
    · by_cases h2 : b.toNat < 127 <;> cases text <;> simp [textGlyphs, h1, h2]
  | await l => simp [glyphsFrom, decodeGlyph, decodeNext, hd]

theorem remapLookup_congr (l t : Byte) (s u : State) (h : u.remapRom = s.remapRom) : remapLookup l t u = remapLookup l t s := by
  simp only [remapLookup, h]

theorem drawRects_remapRom (rs : List Rect) (s : State) (hp : s.params.ok) : (drawRects rs s).remapRom = s.remapRom := by
  rw [drawRects_eq rs s hp]
  rfl

theorem drawCharOp_remapRom (a : CharArgs) (s : State) (hp : s.params.ok) : (drawCharOp a s).remapRom = s.remapRom := by
  rw [drawCharOp_eq a s hp]
  split
  · rfl
  · exact drawRects_remapRom _ s hp

/-- A glyph placed at the cursor is one DRAWCHAR call, and the cursor of rule R212. -/
theorem placeGlyph_eq (a : LineArgs) (g : Byte) (s : State) (hp : s.params.ok) :
    placeGlyph a g s =
      setLine s.pos (lineEnd a s.params.wrapXMode s.curX s.curY [g]).1 (lineEnd a s.params.wrapXMode s.curX s.curY [g]).2 s.dec
        (drawCalls (lineCalls a s.params.wrapXMode s.curX s.curY [g]) s) := by
  have hw : wrapCursor a s =
      setLine s.pos (if 234 ≤ s.curX then restartX a.x s.params.wrapXMode else s.curX)
        (if 234 ≤ s.curX then s.curY + 8 * a.scale else s.curY) s.dec s := by
    by_cases h : 234 ≤ s.curX <;> simp [wrapCursor, atMargin, h, setLine]
  simp only [placeGlyph, hw, lineCalls, lineEnd]
  rw [drawCharOp_setLine _ _ _ _ _ s hp]
  by_cases hg : g.toNat < 32 <;> simp [drawnGlyph, hg, setLine, drawCalls]

theorem drawCalls_append (cs ds : List CharArgs) (s : State) : drawCalls (cs ++ ds) s = drawCalls ds (drawCalls cs s) := by
  simp [drawCalls]

theorem lineCalls_append (a : LineArgs) (mode : WrapMode) (x y : Nat) (gs hs : List Byte) :
    lineCalls a mode x y (gs ++ hs) =
      lineCalls a mode x y gs ++ lineCalls a mode (lineEnd a mode x y gs).1 (lineEnd a mode x y gs).2 hs := by
  induction gs generalizing x y with
  | nil => rfl
  | cons g gs ih => simp only [List.cons_append, lineCalls, lineEnd, ih]

theorem lineEnd_append (a : LineArgs) (mode : WrapMode) (x y : Nat) (gs hs : List Byte) :
    lineEnd a mode x y (gs ++ hs) = lineEnd a mode (lineEnd a mode x y gs).1 (lineEnd a mode x y gs).2 hs := by
  induction gs generalizing x y with
  | nil => rfl
  | cons g gs ih => simp only [List.cons_append, lineEnd, ih]

/-- One byte of the text: the decoder moves on, and a resolved glyph is one DRAWCHAR call (rule R212). -/
theorem printByte_eq (a : LineArgs) (i : Nat) (b : Byte) (s : State) (hp : s.params.ok) :
    printByte a i b s =
      setLine i (lineEnd a s.params.wrapXMode s.curX s.curY (decodeGlyph b s).toList).1
        (lineEnd a s.params.wrapXMode s.curX s.curY (decodeGlyph b s).toList).2 (decodeNext b s.dec)
        (drawCalls (lineCalls a s.params.wrapXMode s.curX s.curY (decodeGlyph b s).toList) s) := by
  have hg : decodeGlyph b { s with pos := i } = decodeGlyph b s := rfl
  have hs : decodeOp b { s with pos := i } = setLine i s.curX s.curY (decodeNext b s.dec) s := rfl
  rw [printByte, hg, hs]
  cases decodeGlyph b s with
  | none => rfl
  | some g =>
    simp only [Option.toList]
    rw [placeGlyph_eq a g (setLine i s.curX s.curY (decodeNext b s.dec) s) hp]
    simp only [setLine]
    rw [show ({ s with dec := decodeNext b s.dec, pos := i } : State) = setLine i s.curX s.curY (decodeNext b s.dec) s from rfl,
      drawCalls_setLine _ _ _ _ _ s hp]
    rfl

/-- PRINTLINE's loop from index `i` on is the DRAWCHAR calls of the resolved glyphs, at the cursors of rule R212. -/
theorem printText_eq (a : LineArgs) (i : Nat) (text : List Byte) (s : State) (hp : s.params.ok) :
    printText a i text s =
      setLine (if text = [] then s.pos else i + text.length - 1)
        (lineEnd a s.params.wrapXMode s.curX s.curY (glyphsFrom (fun l t => remapLookup l t s) s.dec text)).1
        (lineEnd a s.params.wrapXMode s.curX s.curY (glyphsFrom (fun l t => remapLookup l t s) s.dec text)).2
        (decAfter s.dec text)
        (drawCalls (lineCalls a s.params.wrapXMode s.curX s.curY (glyphsFrom (fun l t => remapLookup l t s) s.dec text)) s) := by
  induction text generalizing i s with
  | nil => cases h : s.dec <;> simp [printText, glyphsFrom, textGlyphs, lineEnd, lineCalls, decAfter, drawCalls, setLine, ← h]
  | cons b text ih =>
    have hpb := printByte_eq a i b s hp
    generalize hcs : lineCalls a s.params.wrapXMode s.curX s.curY (decodeGlyph b s).toList = cs at hpb
    have hf := drawCalls_frame cs s hp
    have hr : (drawCalls cs s).remapRom = s.remapRom := by
      clear hcs hpb hf
      induction cs generalizing s with
      | nil => rfl
      | cons c cs ihc =>
        have h : ∀ t, drawCalls (c :: cs) t = drawCalls cs (drawCharOp c t) := fun _ => rfl
        rw [h, ihc _ (by rw [(drawCharOp_frame c s hp).1]; exact hp), drawCharOp_remapRom c s hp]
    have hparams : (printByte a i b s).params = s.params := by rw [hpb]; exact hf.1
    have hremap : (fun l t => remapLookup l t (printByte a i b s)) = fun l t => remapLookup l t s := by
      funext l t
      exact remapLookup_congr l t s _ (by rw [hpb]; exact hr)
    rw [printText, ih (i + 1) _ (by rw [hparams]; exact hp), hparams, hremap]
    have hx : (printByte a i b s).curX = (lineEnd a s.params.wrapXMode s.curX s.curY (decodeGlyph b s).toList).1 := by
      rw [hpb]; rfl
    have hy : (printByte a i b s).curY = (lineEnd a s.params.wrapXMode s.curX s.curY (decodeGlyph b s).toList).2 := by
      rw [hpb]; rfl
    have hd : (printByte a i b s).dec = decodeNext b s.dec := by rw [hpb]; rfl
    rw [hx, hy, hd, glyphsFrom_cons, lineCalls_append, lineEnd_append, drawCalls_append, hcs]
    rw [hpb, drawCalls_setLine _ _ _ _ _ _ (by rw [hf.1]; exact hp)]
    cases text with
    | nil => simp [setLine, decAfter]
    | cons c text => simp [setLine, decAfter]; omega

/-- PRINTLINE is the DRAWCHAR calls of the glyphs its text resolves to (rule R212). -/
theorem printLineOp_eq (a : LineArgs) (text : List Byte) (s : State) (hp : s.params.ok) :
    printLineOp a text s =
      setLine (if text = [] then s.pos else text.length - 1)
        (lineEnd a s.params.wrapXMode a.x a.y (glyphsFrom (fun l t => remapLookup l t s) s.dec text)).1
        (lineEnd a s.params.wrapXMode a.x a.y (glyphsFrom (fun l t => remapLookup l t s) s.dec text)).2
        (decAfter s.dec text)
        (drawCalls (lineCalls a s.params.wrapXMode a.x a.y (glyphsFrom (fun l t => remapLookup l t s) s.dec text)) s) := by
  have h := printText_eq a 0 text (setLine s.pos a.x a.y s.dec s) hp
  rw [drawCalls_setLine _ _ _ _ _ s hp, Nat.zero_add] at h
  exact h

/-! ## Bounds -/

/-- A decoder waits only for the trail of a lead byte, which is at least 127 (rule R197). -/
theorem decodeNext_await (b l : Byte) (d : DecState) (h : decodeNext b d = .await l) : b = l ∧ 127 ≤ l.toNat := by
  cases d with
  | idle =>
    simp only [decodeNext] at h
    split at h
    · cases h
    · rename_i hb
      cases h
      exact ⟨rfl, Nat.le_of_not_lt hb⟩
  | await m => cases h

theorem textGlyphs_length (remap : Byte → Byte → Option Byte) (n : Nat) (text : List Byte) (h : text.length ≤ n) :
    (textGlyphs remap text).length ≤ text.length := by
  have ho : ∀ o : Option Byte, o.toList.length ≤ 1 := by
    intro o
    cases o <;> simp
  induction n generalizing text with
  | zero =>
    have h0 : text = [] := List.length_eq_zero_iff.1 (by omega)
    subst h0
    simp [textGlyphs]
  | succ n ih =>
    cases text with
    | nil => simp [textGlyphs]
    | cons b text =>
      simp only [List.length_cons] at h
      unfold textGlyphs
      split
      · have := ih text (by omega)
        simp only [List.length_append, List.length_cons]
        split <;> simp <;> omega
      · cases text with
        | nil => simp
        | cons c text =>
          simp only [List.length_cons] at h
          have := ih text (by omega)
          have := ho (remap b c)
          simp only [List.length_append, List.length_cons]
          omega

/-- A text resolves to at most one glyph a byte (rule R199). -/
theorem glyphsFrom_length (remap : Byte → Byte → Option Byte) (d : DecState) (text : List Byte) :
    (glyphsFrom remap d text).length ≤ text.length := by
  cases d with
  | idle => exact textGlyphs_length remap _ text (Nat.le_refl _)
  | await l =>
    cases text with
    | nil => simp [glyphsFrom]
    | cons b text =>
      have h1 := textGlyphs_length remap _ text (Nat.le_refl _)
      have h2 : (remap l b).toList.length ≤ 1 := by cases remap l b <;> simp
      simp only [glyphsFrom, List.length_append, List.length_cons]
      omega

/-- Where the rectangles of a character lie, and how large they are (rule R178). -/
theorem charRects_bounds (a : CharArgs) (s : State) :
    ∀ r ∈ charRects a s, r.x ≤ a.x + 5 * a.scale ∧ r.y ≤ a.y + 7 * a.scale ∧ r.w = a.scale ∧
      (r.h = a.scale ∨ r.h = 8 * a.scale) := by
  intro r hr
  rw [charRects] at hr
  split at hr
  · simp at hr
  · rcases List.mem_append.1 hr with hr | hr
    · obtain ⟨⟨c, q⟩, hc, h⟩ := List.mem_filterMap.1 hr
      have hcq : ∀ cr ∈ cellOrder, cr.1 ≤ 4 ∧ cr.2 ≤ 7 := by decide
      obtain ⟨b1, b2⟩ := hcq _ hc
      have m1 : c * a.scale ≤ 4 * a.scale := Nat.mul_le_mul_right _ b1
      have m2 : q * a.scale ≤ 7 * a.scale := Nat.mul_le_mul_right _ b2
      simp only [cellRect] at h
      split at h
      · simp only [Option.some.injEq] at h
        subst h
        simp
        omega
      · split at h
        · simp at h
        · simp only [Option.some.injEq] at h
          subst h
          simp
          omega
    · split at hr
      · simp at hr
      · simp only [List.mem_singleton] at hr
        subst hr
        simp

end Sys2Proof.Machine
end

