-- ==== Sys2Proof/Laws/Trace.lean ====
section
/-! SUPPORT. The projections of the events each operation appends: the bytes they send, and what they do to the select level
(rules R9, R114). -/

namespace Sys2Proof.Machine

/-! ## The bytes sent -/

@[simp] theorem traceBytes_nil : traceBytes [] = [] := rfl
theorem traceBytes_cons (e : Event) (es : List Event) : traceBytes (e :: es) = eventBytes e ++ traceBytes es := rfl
theorem traceBytes_append (es fs : List Event) : traceBytes (es ++ fs) = traceBytes es ++ traceBytes fs := by
  simp [traceBytes]

theorem traceBytes_frame (c : Byte) (ps : List Byte) :
    traceBytes (frameEvents c ps) = (.cmd, c) :: ps.map (fun b => (DC.dat, b)) := by
  by_cases h : ps = [] <;> simp [frameEvents, traceBytes, eventBytes, h]

theorem traceBytes_chunks (cs : List (List Byte)) :
    traceBytes (cs.map (fun c => Event.wr .dat c)) = cs.flatten.map (fun b => (DC.dat, b)) := by
  induction cs with
  | nil => rfl
  | cons c cs ih => rw [List.map_cons, traceBytes_cons, ih, List.flatten_cons, List.map_append]; rfl

/-- The number of chunks of a stream (rule R151). -/
theorem cutChunks_length (cap : Nat) (h : 1 ≤ cap) (fuel : Nat) (bs : List Byte) (hf : bs.length ≤ fuel) :
    (cutChunks cap fuel bs).length = (bs.length + cap - 1) / cap := by
  induction fuel generalizing bs with
  | zero =>
    have h0 : bs = [] := List.length_eq_zero_iff.1 (by omega)
    subst h0
    rw [List.length_nil, Nat.zero_add, Nat.div_eq_of_lt (by omega)]
    rfl
  | succ fuel ih =>
    by_cases h0 : bs = []
    · subst h0
      rw [List.length_nil, Nat.zero_add, Nat.div_eq_of_lt (by omega), cutChunks_nil]
      rfl
    · have := List.length_pos_of_ne_nil h0
      rw [cutChunks, if_neg h0, List.length_cons, ih _ (by rw [List.length_drop]; omega), List.length_drop]
      by_cases hc : bs.length ≤ cap
      · rw [show bs.length - cap = 0 by omega, Nat.div_eq_of_lt (by omega),
          show bs.length + cap - 1 = (bs.length - 1) + cap by omega, Nat.add_div_right _ (by omega),
          Nat.div_eq_of_lt (by omega)]
      · rw [show bs.length + cap - 1 = (bs.length - cap + cap - 1) + cap by omega, Nat.add_div_right _ (by omega)]

/-- Every chunk is at most the capacity long (rule R151). -/
theorem cutChunks_le (cap fuel : Nat) (bs : List Byte) : ∀ c ∈ cutChunks cap fuel bs, c.length ≤ cap := by
  induction fuel generalizing bs with
  | zero => simp [cutChunks]
  | succ fuel ih =>
    by_cases h0 : bs = []
    · simp [cutChunks, h0]
    · rw [cutChunks, if_neg h0]
      intro c hc
      rcases List.mem_cons.1 hc with rfl | hc
      · rw [List.length_take]; omega
      · exact ih _ c hc

/-- Chunks of at most `cap` bytes leave every byte at or above `cap` alone. -/
theorem loadChunks_read_ge (cs : List (List Byte)) (m : Memory) (cap : Nat) (hc : ∀ c ∈ cs, c.length ≤ cap) (a : Nat)
    (ha : cap ≤ a) : (loadChunks cs m).read a = m.read a := by
  induction cs generalizing m with
  | nil => rfl
  | cons c cs ih =>
    have h : loadChunks (c :: cs) m = loadChunks cs (m.writeRun 0 c) := rfl
    have hl := hc c List.mem_cons_self
    rw [h, ih _ (fun d hd => hc d (List.mem_cons_of_mem _ hd)), Memory.read_writeRun, if_neg (by omega)]

theorem loadChunks_wf (cs : List (List Byte)) (m : Memory) (hm : m.wf) : (loadChunks cs m).wf := by
  induction cs generalizing m with
  | nil => exact hm
  | cons c cs ih => exact ih _ (Memory.wf_writeRun m hm 0 c)

/-! ## The select level -/

/-- The select level after events, from a level; none once the bracket law is broken (rule R114). -/
def selFrom (l : Option Bool) (es : List Event) : Option Bool := es.foldl (fun l e => l.bind (fun b => selAfter b e)) l

theorem traceSel_eq (t : List Event) : traceSel t = selFrom (some false) t := rfl
@[simp] theorem selFrom_nil (l : Option Bool) : selFrom l [] = l := rfl
theorem selFrom_cons (l : Option Bool) (e : Event) (es : List Event) :
    selFrom l (e :: es) = selFrom (l.bind (fun b => selAfter b e)) es := rfl
theorem selFrom_append (l : Option Bool) (es fs : List Event) : selFrom l (es ++ fs) = selFrom (selFrom l es) fs := by
  simp [selFrom]
theorem traceSel_append (t es : List Event) : traceSel (t ++ es) = selFrom (traceSel t) es := by
  simp only [traceSel_eq, selFrom_append]
theorem selFrom_none (es : List Event) : selFrom none es = none := by
  induction es with
  | nil => rfl
  | cons e es ih => exact ih

theorem selFrom_chunks (cs : List (List Byte)) : selFrom (some true) (cs.map (fun c => Event.wr .dat c)) = some true := by
  induction cs with
  | nil => rfl
  | cons c cs ih => exact ih

theorem selFrom_frame (c : Byte) (ps : List Byte) : selFrom (some true) (frameEvents c ps) = some true := by
  by_cases h : ps = [] <;> simp [frameEvents, h, selFrom, selAfter]

theorem selFrom_window (x y w h : Nat) : selFrom (some true) (windowEvents x y w h) = some true := rfl

theorem selFrom_stream (cap : Nat) (bs : List Byte) : selFrom (some true) (streamEvents cap bs) = some true :=
  selFrom_chunks _

theorem selFrom_image (cap x y w h : Nat) (data : List Byte) :
    selFrom (some false) (imageEvents cap x y w h data) = some false := by
  rw [imageEvents, selFrom_cons, show (some false).bind (fun b => selAfter b (.sel true)) = some true from rfl, selFrom_append,
    selFrom_append, selFrom_window, selFrom_stream]
  rfl

theorem selFrom_rect (cap x y w h : Nat) (color : Half) :
    selFrom (some false) (rectEvents cap x y w h color) = some false := by
  rw [rectEvents, selFrom_cons, show (some false).bind (fun b => selAfter b (.sel true)) = some true from rfl, selFrom_append,
    selFrom_append, selFrom_window, selFrom_stream]
  rfl

theorem selFrom_rects (cap : Nat) (rs : List Rect) :
    selFrom (some false) (rs.flatMap (fun r => rectEvents cap r.x r.y r.w r.h r.color)) = some false := by
  induction rs with
  | nil => rfl
  | cons r rs ih => rw [List.flatMap_cons, selFrom_append, selFrom_rect, ih]

theorem selFrom_frames (es : List CfgEntry) :
    selFrom (some true) (es.flatMap (fun e => frameEvents e.cmd e.params)) = some true := by
  induction es with
  | nil => rfl
  | cons e es ih => rw [List.flatMap_cons, selFrom_append, selFrom_frame, ih]

theorem selFrom_init (q : Params) : selFrom (some false) (initEvents q) = some false := by
  rw [initEvents, selFrom_append, selFrom_append,
    show selFrom (some false) [.rst true, .wait q.tRstAssert, .rst false, .wait q.tRstRelease, .sel true] = some true from rfl,
    selFrom_frames]
  rfl

theorem selFrom_power (cs : List Byte) : selFrom (some false) (powerEvents cs) = some false := by
  have h : selFrom (some true) (cs.map (fun c => Event.wr .cmd [c])) = some true := by
    induction cs with
    | nil => rfl
    | cons c cs ih => exact ih
  rw [powerEvents, selFrom_cons, show (some false).bind (fun b => selAfter b (.sel true)) = some true from rfl, selFrom_append, h]
  rfl

end Sys2Proof.Machine
end

