-- ==== Sys2Proof/Laws/Exec.lean ====
section
/-! SUPPORT. Everything an instruction that completes can do, said once: `exec_next` gives, for each shape of instruction, when it
completes and the state it completes in. A statement about all instructions is a case analysis of it. -/

namespace Sys2Proof.Machine

/-- DRAWCHAR calls, one after the other, are the rectangles of all of them; `COL` and `ROW` hold the last cell drawn. -/
theorem drawCalls_eq (cs : List CharArgs) (s : State) (hp : s.params.ok) :
    ∃ c r, (c = s.col ∧ r = s.row ∨ c = 4 ∧ r = 7) ∧
      drawCalls cs s = setRegs c r s.pos s.curX s.curY s.dec (drawRects (cs.flatMap (fun a => charRects a s)) s) := by
  induction cs generalizing s with
  | nil => exact ⟨s.col, s.row, .inl ⟨rfl, rfl⟩, rfl⟩
  | cons a cs ih =>
    have hf := drawCharOp_frame a s hp
    obtain ⟨c, r, hcr, heq⟩ := ih (drawCharOp a s) (by rw [hf.1]; exact hp)
    have hrects : (fun b => charRects b (drawCharOp a s)) = fun b => charRects b s := by
      funext b
      exact charRects_congr b s _ hf.1 hf.2
    have hcons : drawCalls (a :: cs) s = drawCalls cs (drawCharOp a s) := rfl
    rw [hrects] at heq
    by_cases hg : a.g.toNat < 32
    · have hd : drawCharOp a s = s := by rw [drawCharOp_eq a s hp, if_pos hg]
      rw [hd] at hcr heq
      refine ⟨c, r, hcr, ?_⟩
      rw [hcons, hd, heq, List.flatMap_cons, show charRects a s = [] by rw [charRects, if_pos hg], List.nil_append]
    · have hd := drawCharOp_eq a s hp
      rw [if_neg hg] at hd
      have hcr' : c = s.col ∧ r = s.row ∨ c = 4 ∧ r = 7 := by
        rw [hd] at hcr
        rcases hcr with h | h
        · exact .inr h
        · exact .inr h
      refine ⟨c, r, hcr', ?_⟩
      rw [hcons, heq, hd, drawRects_setRegs _ _ _ _ _ _ _ _ (by rw [(drawRects_frame _ s hp).1]; exact hp), ← drawRects_append,
        List.flatMap_cons, drawRects_eq _ s hp]
      rfl

/-- What completes, and how (rules R101, R111 to R113, R134, R140, R143, R152, R154, R157, R158, R176, R178, R197, R212). -/
theorem exec_next (i : Instr) (s t : State) (hp : s.params.ok) (h : exec i s = .next t) :
    (i = .init ∧ s.busSel = false ∧
      t = { emitAll (initEvents s.params) s with
        busSel := false, rstl := false, win := { s.win with isOpen := false },
        idx := if s.params.initCfg = [] then s.idx else s.params.initCfg.length - 1, result := .none }) ∨
    (∃ on cs, i = .setPower on ∧ s.busSel = false ∧
      (on = 1 ∧ cs = s.params.pwrOnCmds ∨ on = 0 ∧ cs = s.params.pwrOffCmds) ∧
      t = { emitAll (powerEvents cs) s with busSel := false, win := { s.win with isOpen := false }, result := .none }) ∨
    (∃ x y w h color, i = .fillRect x y w h color ∧ s.busSel = false ∧ w ≠ 0 ∧ h ≠ 0 ∧
      t = { emitAll (rectEvents s.params.txbufCap x.toNat y.toNat w.toNat h.toNat color)
          (judgeWindow x.toNat y.toNat w.toNat h.toNat s) with
        busSel := false, win := { x := x.toNat, y := y.toNat, w := w.toNat, h := h.toNat, isOpen := false }, rem := 0,
        txbuf := loadChunks (chunksOf s.params.txbufCap (colorStream (w.toNat * h.toNat) color)) s.txbuf, result := .none }) ∨
    (∃ x y w h data, i = .blitImage x y w h data ∧ s.busSel = false ∧ w ≠ 0 ∧ h ≠ 0 ∧
      streamBytes w.toNat h.toNat ≤ data.length ∧
      t = { emitAll (imageEvents s.params.txbufCap x.toNat y.toNat w.toNat h.toNat data)
          (judgeWindow x.toNat y.toNat w.toNat h.toNat s) with
        busSel := false, win := { x := x.toNat, y := y.toNat, w := w.toNat, h := h.toNat, isOpen := false }, rem := 0,
        off := streamBytes w.toNat h.toNat,
        txbuf := loadChunks (chunksOf s.params.txbufCap (data.take (streamBytes w.toNat h.toNat))) s.txbuf,
        result := .none }) ∨
    (∃ x y g fg bg scale c r rs, i = .drawChar x y g fg bg scale ∧ s.busSel = false ∧ scale ≠ 0 ∧
      (c = s.col ∧ r = s.row ∨ c = 4 ∧ r = 7) ∧
      rs = charRects { x := x.toNat, y := y.toNat, g := g, fg := fg, bg := bg, scale := scale.toNat } s ∧
      t = { drawRects rs s with col := c, row := r, result := .drawn (drawnGlyph g) }) ∨
    (∃ x y fg bg scale text c r rs, i = .printLine x y fg bg scale text ∧ s.busSel = false ∧ scale ≠ 0 ∧
      (c = s.col ∧ r = s.row ∨ c = 4 ∧ r = 7) ∧
      rs = (lineCalls { x := x.toNat, y := y.toNat, fg := fg, bg := bg, scale := scale.toNat } s.params.wrapXMode x.toNat y.toNat
        (glyphsFrom (fun l t => remapLookup l t s) s.dec text)).flatMap (fun a => charRects a s) ∧
      t = { drawRects rs s with
        col := c, row := r, dec := decAfter s.dec text, pos := if text = [] then s.pos else text.length - 1,
        curX := (lineEnd { x := x.toNat, y := y.toNat, fg := fg, bg := bg, scale := scale.toNat } s.params.wrapXMode x.toNat
          y.toNat (glyphsFrom (fun l t => remapLookup l t s) s.dec text)).1,
        curY := (lineEnd { x := x.toNat, y := y.toNat, fg := fg, bg := bg, scale := scale.toNat } s.params.wrapXMode x.toNat
          y.toNat (glyphsFrom (fun l t => remapLookup l t s) s.dec text)).2,
        result := .none }) ∨
    (i = .beginTx ∧ s.busSel = false ∧ t = { emitAll [.sel true] s with busSel := true, result := .none }) ∨
    (i = .endTx ∧ s.busSel = true ∧
      t = { emitAll [.sel false] s with busSel := false, win := { s.win with isOpen := false }, result := .none }) ∨
    (∃ dc d bs, i = .write dc bs ∧ tagOf dc = some d ∧ s.busSel = true ∧
      t = { emitAll (if bs = [] then [] else [.wr d bs]) s with result := .none }) ∨
    (∃ x y w h, i = .setWindow x y w h ∧ s.busSel = true ∧ w ≠ 0 ∧ h ≠ 0 ∧
      t = { emitAll (windowEvents x.toNat y.toNat w.toNat h.toNat) (judgeWindow x.toNat y.toNat w.toNat h.toNat s) with
        win := { x := x.toNat, y := y.toNat, w := w.toNat, h := h.toNat, isOpen := true }, result := .none }) ∨
    (∃ color, i = .fill color ∧ s.busSel = true ∧ s.win.isOpen = true ∧
      t = { emitAll (streamEvents s.params.txbufCap (colorStream (s.win.w * s.win.h) color)) s with
        win := { s.win with isOpen := false }, rem := 0,
        txbuf := loadChunks (chunksOf s.params.txbufCap (colorStream (s.win.w * s.win.h) color)) s.txbuf, result := .none }) ∨
    (∃ data, i = .blit data ∧ s.busSel = true ∧ s.win.isOpen = true ∧ streamBytes s.win.w s.win.h ≤ data.length ∧
      t = { emitAll (streamEvents s.params.txbufCap (data.take (streamBytes s.win.w s.win.h))) s with
        win := { s.win with isOpen := false }, rem := 0, off := streamBytes s.win.w s.win.h,
        txbuf := loadChunks (chunksOf s.params.txbufCap (data.take (streamBytes s.win.w s.win.h))) s.txbuf,
        result := .none }) ∨
    (∃ b, i = .decode b ∧ t = { s with dec := decodeNext b s.dec, result := .glyph (decodeGlyph b s) }) ∨
    (∃ g c, i = .glyphCol g c ∧ t = { s with result := .column (glyphColumn g c.toNat s) }) ∨
    (∃ c ps, i.isOperation = false ∧ s.busSel = true ∧
      t = { emitAll (frameEvents c ps) s with win := { s.win with isOpen := false }, result := .none }) := by
  have frame : ∀ (j : Instr) (c : Byte) (ps : List Byte), j.isOperation = false → frameOp c ps s = .next t →
      ∃ c ps, j.isOperation = false ∧ s.busSel = true ∧
        t = { emitAll (frameEvents c ps) s with win := { s.win with isOpen := false }, result := .none } := by
    intro j c ps hj hf
    rw [frameOp, sendFrame_eq] at hf
    split at hf
    · cases hf
      exact ⟨c, ps, hj, by assumption, rfl⟩
    · cases hf
  cases i with
  | init =>
    left
    simp only [exec, execInit, initOp_eq] at h
    split at h
    · cases h
    · rename_i h1
      cases h
      exact ⟨rfl, by simpa using h1, rfl⟩
  | setPower on =>
    iterate 1 right
    left
    simp only [exec, execSetPower, setPowerOp_eq] at h
    split at h
    · cases h
    · rename_i h1
      split at h
      · cases h
        exact ⟨on, _, rfl, by simpa using h1, .inr ⟨by assumption, rfl⟩, rfl⟩
      · split at h
        · cases h
          exact ⟨on, _, rfl, by simpa using h1, .inl ⟨by assumption, rfl⟩, rfl⟩
        · cases h
  | fillRect x y w h' color =>
    iterate 2 right
    left
    simp only [exec, execFillRect] at h
    split at h
    · cases h
    · split at h
      · cases h
      · rename_i h1 h2
        rw [fillRectOp_eq _ _ _ _ _ _ hp] at h
        cases h
        exact ⟨x, y, w, h', color, rfl, by simpa using h1, fun h => h2 (.inl h), fun h => h2 (.inr h), rfl⟩
  | blitImage x y w h' data =>
    iterate 3 right
    left
    simp only [exec, execBlitImage] at h
    split at h
    · cases h
    · split at h
      · cases h
      · split at h
        · cases h
        · rename_i h1 h2 h3
          rw [blitImageOp_eq _ _ _ _ _ _ hp (Nat.le_of_not_lt h3)] at h
          cases h
          exact ⟨x, y, w, h', data, rfl, by simpa using h1, fun h => h2 (.inl h), fun h => h2 (.inr h), Nat.le_of_not_lt h3, rfl⟩
  | drawChar x y g fg bg scale =>
    iterate 4 right
    left
    simp only [exec, execDrawChar] at h
    split at h
    · cases h
    · split at h
      · cases h
      · rename_i h1 h2
        rw [drawCharOp_eq _ s hp] at h
        split at h
        · rename_i h3
          cases h
          exact ⟨x, y, g, fg, bg, scale, s.col, s.row, _, rfl, by simpa using h1, h2, .inl ⟨rfl, rfl⟩, rfl,
            by rw [charRects, if_pos h3, drawRects_nil]⟩
        · cases h
          refine ⟨x, y, g, fg, bg, scale, 4, 7, _, rfl, by simpa using h1, h2, .inr ⟨rfl, rfl⟩, rfl, ?_⟩
          rw [drawRects_eq _ s hp]
          rfl
  | printLine x y fg bg scale text =>
    iterate 5 right
    left
    simp only [exec, execPrintLine] at h
    split at h
    · cases h
    · split at h
      · cases h
      · rename_i h1 h2
        rw [printLineOp_eq _ _ _ hp] at h
        obtain ⟨c, r, hcr, heq⟩ := drawCalls_eq
          (lineCalls { x := x.toNat, y := y.toNat, fg := fg, bg := bg, scale := scale.toNat } s.params.wrapXMode x.toNat y.toNat
            (glyphsFrom (fun l t => remapLookup l t s) s.dec text)) s hp
        rw [heq] at h
        cases h
        exact ⟨x, y, fg, bg, scale, text, c, r, _, rfl, by simpa using h1, h2, hcr, rfl, rfl⟩
  | beginTx =>
    iterate 6 right
    left
    simp only [exec, execBeginTx] at h
    split at h
    · cases h
    · rename_i h1
      cases h
      exact ⟨rfl, by simpa using h1, rfl⟩
  | endTx =>
    iterate 7 right
    left
    simp only [exec, execEndTx] at h
    split at h
    · cases h
      exact ⟨rfl, by assumption, rfl⟩
    · cases h
  | write dc bs =>
    iterate 8 right
    left
    simp only [exec, execWrite] at h
    split at h
    · rename_i h1
      split at h
      · rename_i d h2
        cases h
        refine ⟨dc, d, bs, rfl, h2, h1, ?_⟩
        by_cases hb : bs = [] <;> simp [writeOp, hb, emitAll, emit]
      · cases h
    · cases h
  | setWindow x y w h' =>
    iterate 9 right
    left
    simp only [exec, execSetWindow, setWindowOp_eq] at h
    split at h
    · split at h
      · cases h
      · rename_i h1 h2
        cases h
        exact ⟨x, y, w, h', rfl, h1, fun h => h2 (.inl h), fun h => h2 (.inr h), rfl⟩
    · cases h
  | fill color =>
    iterate 10 right
    left
    simp only [exec, execFill] at h
    split at h
    · split at h
      · rename_i h1 h2
        rw [fillOp_eq _ _ hp] at h
        cases h
        exact ⟨color, rfl, h1, h2, rfl⟩
      · cases h
    · cases h
  | blit data =>
    iterate 11 right
    left
    simp only [exec, execBlit] at h
    split at h
    · split at h
      · split at h
        · cases h
        · rename_i h1 h2 h3
          rw [blitOp_eq _ _ hp (Nat.le_of_not_lt h3)] at h
          cases h
          exact ⟨data, rfl, h1, h2, Nat.le_of_not_lt h3, rfl⟩
      · cases h
    · cases h
  | decode b =>
    iterate 12 right
    left
    cases h
    exact ⟨b, rfl, rfl⟩
  | glyphCol g c =>
    iterate 13 right
    left
    simp only [exec, execGlyphCol] at h
    split at h
    · cases h
      exact ⟨g, c, rfl, rfl⟩
    · cases h
  | colAddrSet sh sl eh el => iterate 14 right
                              exact frame _ _ _ rfl h
  | rowAddrSet sh sl eh el => iterate 14 right
                              exact frame _ _ _ rfl h
  | memWrite => iterate 14 right
                exact frame _ _ _ rfl h
  | sleepIn => iterate 14 right
               exact frame _ _ _ rfl h
  | sleepOut => iterate 14 right
                exact frame _ _ _ rfl h
  | displayOn => iterate 14 right
                 exact frame _ _ _ rfl h
  | displayOff => iterate 14 right
                  exact frame _ _ _ rfl h
  | cfg n =>
    iterate 14 right
    simp only [exec, execCfg] at h
    split at h
    · exact frame _ _ _ rfl h
    · split at h <;> cases h

/-- A step that completes ran an instruction, or the program was exhausted. -/
theorem step_next (s t : State) (h : step s = .next t) :
    t = s ∨ ∃ i u, exec i u = .next t ∧
      ((∃ rest, decode s.prog = .ok (i, rest) ∧ u = { s with prog := rest }) ∨
        (s.busPort = some i ∧ u = { s with busPort := none })) := by
  rw [step, fetch] at h
  split at h
  · cases h
    exact .inl rfl
  · rename_i i u hf
    refine .inr ⟨i, u, h, ?_⟩
    split at hf
    · cases hf
      exact .inr ⟨by assumption, rfl⟩
    · rw [fetchProgram] at hf
      split at hf
      · cases hf
      · split at hf
        · cases hf
          exact .inl ⟨_, by assumption, rfl⟩
        · cases hf
  · cases h

end Sys2Proof.Machine
end

