-- ==== Sys2Proof/Laws/Panel.lean ====
section
/-! SUPPORT. How the controller takes a stream (rules R58, R144 to R146): the bytes of a stream land where the landing rule says,
and nowhere else. -/

namespace Sys2Proof.Machine

theorem streamAddr_eq (x y w k : Nat) : streamAddr x y w k = 2 * (240 * (y + k / (2 * w)) + x) + k % (2 * w) := rfl
theorem pixelAddr_eq (px py : Nat) : pixelAddr px py = 2 * (240 * py + px) := rfl
theorem streamBytes_eq (w h : Nat) : streamBytes w h = 2 * (w * h) := Nat.mul_assoc 2 w h

/-- Bytes of one row of a window are at consecutive addresses. -/
theorem streamAddr_add (x y w k i : Nat) (hw : 0 < w) (hi : k % (2 * w) + i < 2 * w) :
    streamAddr x y w (k + i) = streamAddr x y w k + i := by
  have hk : k + i = (k % (2 * w) + i) + (2 * w) * (k / (2 * w)) := by have := Nat.div_add_mod k (2 * w); omega
  have h1 : (k + i) / (2 * w) = k / (2 * w) := by
    rw [hk, Nat.add_mul_div_left _ _ (by omega), Nat.div_eq_of_lt hi, Nat.zero_add]
  have h2 : (k + i) % (2 * w) = k % (2 * w) + i := by
    rw [hk, Nat.add_mul_mod_self_left, Nat.mod_eq_of_lt hi]
  simp only [streamAddr_eq, h1, h2]
  omega

/-- Two bytes of a stream into a window on the panel never land at the same address. -/
theorem streamAddr_inj (x y w k l : Nat) (hw : 0 < w) (hx : x + w ≤ 240)
    (h : streamAddr x y w k = streamAddr x y w l) : k = l := by
  have hk := Nat.div_add_mod k (2 * w)
  have hl := Nat.div_add_mod l (2 * w)
  have rk := Nat.mod_lt k (show 0 < 2 * w by omega)
  have rl := Nat.mod_lt l (show 0 < 2 * w by omega)
  simp only [streamAddr_eq] at h
  generalize k / (2 * w) = qk at *
  generalize l / (2 * w) = ql at *
  generalize k % (2 * w) = mk at *
  generalize l % (2 * w) = ml at *
  have hq : qk = ql := by omega
  subst hq
  have hm : mk = ml := by omega
  omega

/-- Storing stream bytes: each lands at its address, and every other address keeps its byte (rule R58). -/
theorem storeStream_read (x y w : Nat) (hw : 0 < w) (hx : x + w ≤ 240) (fuel k : Nat) (bs : List Byte) (m : Memory)
    (hf : bs.length ≤ fuel) :
    (∀ j, j < bs.length → (storeStream x y w fuel k bs m).read (streamAddr x y w (k + j)) = bs[j]?) ∧
      ∀ a, (∀ j, j < bs.length → a ≠ streamAddr x y w (k + j)) → (storeStream x y w fuel k bs m).read a = m.read a := by
  induction fuel generalizing k bs m with
  | zero =>
    have h0 : bs = [] := List.length_eq_zero_iff.1 (by omega)
    subst h0
    exact ⟨fun j hj => by simp at hj, fun a _ => rfl⟩
  | succ fuel ih =>
    by_cases h0 : bs = []
    · subst h0
      exact ⟨fun j hj => by simp at hj, fun a _ => by simp [storeStream]⟩
    · have hpos := List.length_pos_of_ne_nil h0
      have hmod := Nat.mod_lt k (show 0 < 2 * w by omega)
      obtain ⟨room, hroom⟩ : ∃ room, room = 2 * w - k % (2 * w) := ⟨_, rfl⟩
      have heq : storeStream x y w (fuel + 1) k bs m =
          storeStream x y w fuel (k + room) (bs.drop room) (m.writeRun (streamAddr x y w k) (bs.take room)) := by
        rw [storeStream, if_neg h0, hroom]
      obtain ⟨ih1, ih2⟩ := ih (k + room) (bs.drop room) (m.writeRun (streamAddr x y w k) (bs.take room))
        (by rw [List.length_drop]; omega)
      rw [heq]
      refine ⟨fun j hj => ?_, fun a ha => ?_⟩
      · by_cases hjr : j < room
        · rw [ih2 _ (fun i _ hi => by have := streamAddr_inj x y w _ _ hw hx hi; omega),
            streamAddr_add x y w k j hw (by omega), Memory.read_writeRun_of_lt _ _ _ j (by rw [List.length_take]; omega)]
          simp [hj]
        · have h1 := ih1 (j - room) (by rw [List.length_drop]; omega)
          rw [show k + room + (j - room) = k + j by omega, List.getElem?_drop, show room + (j - room) = j by omega] at h1
          exact h1
      · rw [ih2 a (fun i hi h => ha (room + i) (by rw [List.length_drop] at hi; omega) (by rw [h, Nat.add_assoc])),
          Memory.read_writeRun, if_neg]
        rintro ⟨h1, h2⟩
        rw [List.length_take] at h2
        refine ha (a - streamAddr x y w k) (by omega) ?_
        rw [streamAddr_add x y w k _ hw (by omega)]
        omega

theorem cutChunks_flatten (cap : Nat) (h : 1 ≤ cap) (fuel : Nat) (bs : List Byte) (hf : bs.length ≤ fuel) :
    (cutChunks cap fuel bs).flatten = bs := by
  induction fuel generalizing bs with
  | zero =>
    have h0 : bs = [] := List.length_eq_zero_iff.1 (by omega)
    subst h0
    rfl
  | succ fuel ih =>
    by_cases h0 : bs = []
    · subst h0; rfl
    · have := List.length_pos_of_ne_nil h0
      rw [cutChunks, if_neg h0, List.flatten_cons, ih _ (by rw [List.length_drop]; omega), List.take_append_drop]

/-- The chunks of a stream, concatenated, are the stream (rules R151, R155). -/
theorem chunksOf_flatten (cap : Nat) (h : 1 ≤ cap) (bs : List Byte) : (chunksOf cap bs).flatten = bs :=
  cutChunks_flatten cap h _ bs (Nat.le_refl _)

/-- The controller's frame memory after the data of a stream `cs`, of which `k` bytes came before. -/
theorem observe_stream (q : Params) (x y w h : Nat) (hw : 0 < w) (hx : x + w ≤ 240) (cs : List (List Byte)) (k : Nat)
    (p : Panel) (hph : p.phase = .ready) (hwin : p.window = some (x, y, w, h)) (has : p.asleep = false)
    (hmode : p.mode = .stream k) (hlen : k + cs.flatten.length ≤ streamBytes w h) :
    ∃ f : Memory, (cs.map (fun c => Event.wr .dat c)).foldl (Panel.observe q) p =
        { p with mode := .stream (k + cs.flatten.length), frame := f } ∧
      (∀ j, j < cs.flatten.length → f.read (streamAddr x y w (k + j)) = cs.flatten[j]?) ∧
      ∀ a, (∀ j, j < cs.flatten.length → a ≠ streamAddr x y w (k + j)) → f.read a = p.frame.read a := by
  induction cs generalizing k p with
  | nil =>
    refine ⟨p.frame, ?_, by simp, fun a _ => rfl⟩
    simp [← hmode]
  | cons c cs ih =>
    rw [List.flatten_cons, List.length_append] at hlen
    have hstep : Panel.observe q p (.wr .dat c) =
        { p with mode := .stream (k + c.length), frame := storeStream x y w c.length k c p.frame } := by
      simp only [Panel.observe, hph, Panel.data, hmode, hwin]
      rw [if_pos ⟨has, by omega⟩]
    obtain ⟨r1, r2⟩ := storeStream_read x y w hw hx c.length k c p.frame (Nat.le_refl _)
    obtain ⟨f, hf, f1, f2⟩ := ih (k + c.length)
      { p with mode := .stream (k + c.length), frame := storeStream x y w c.length k c p.frame } hph hwin has rfl (by omega)
    refine ⟨f, ?_, ?_, ?_⟩
    · rw [List.map_cons, List.foldl_cons, hstep, hf, List.flatten_cons, List.length_append, Nat.add_assoc]
    · intro j hj
      rw [List.flatten_cons, List.length_append] at hj
      by_cases hjc : j < c.length
      · rw [f2 _ (fun i _ hi => by have := streamAddr_inj x y w _ _ hw hx hi; omega), r1 j hjc, List.flatten_cons,
          List.getElem?_append_left hjc]
      · have := f1 (j - c.length) (by omega)
        rw [show k + c.length + (j - c.length) = k + j by omega] at this
        rw [this, List.flatten_cons, List.getElem?_append_right (by omega)]
    · intro a ha
      rw [List.flatten_cons, List.length_append] at ha
      rw [f2 a (fun j hj h => ha (c.length + j) (by omega) (by rw [h, Nat.add_assoc]))]
      exact r2 a (fun j hj => ha j (by omega))

/-- An address register after its command has declared `n` columns or rows from `a` on. -/
def declaredReg (a n : Nat) : AddrReg := { first := BitVec.ofNat 16 a, last := BitVec.ofNat 16 (a + n - 1), declared := true }

theorem lo8_addr (v : Nat) (h : v < 256) : addrOf 0 (lo8 v) = BitVec.ofNat 16 v := by
  simp only [addrOf, lo8, BitVec.toNat_ofNat]
  rw [show 256 * (0 : Byte).toNat + v % 2 ^ 8 = v by rw [show (0 : Byte).toNat = 0 from rfl]; omega]

theorem onPanel_iff (x y w h : Nat) : onPanel x y w h = true ↔ 1 ≤ w ∧ 1 ≤ h ∧ x + w ≤ 240 ∧ y + h ≤ 240 := by
  simp [onPanel]

theorem endCommand_idle (p : Panel) (hm : p.mode = .idle) : p.endCommand = p := by simp only [Panel.endCommand, hm]

/-- A command byte at a ready controller that waits for none. -/
theorem observe_cmd (q : Params) (p : Panel) (hph : p.phase = .ready) (hm : p.mode = .idle) (c : Byte) :
    Panel.observe q p (.wr .cmd [c]) =
      if c = 0x2A then { p with mode := .colParams [] }
      else if c = 0x2B then { p with mode := .rowParams [] }
      else if c = 0x2C then p.memWrite
      else p.power q c (openCommand q c) := by
  simp only [Panel.observe, hph, List.foldl_cons, List.foldl_nil, Panel.command, endCommand_idle p hm, if_true]

theorem observe_dat (q : Params) (p : Panel) (hph : p.phase = .ready) (bs : List Byte) :
    Panel.observe q p (.wr .dat bs) = p.data bs := by
  simp only [Panel.observe, hph]

/-- Four parameter bytes after COL_ADDR_SET declare the columns (rule R144). -/
theorem observe_col (q : Params) (p : Panel) (hph : p.phase = .ready) (hm : p.mode = .idle) (sh sl eh el : Byte) :
    Panel.observe q (Panel.observe q p (.wr .cmd [0x2A])) (.wr .dat [sh, sl, eh, el]) =
      { p with cols := { first := addrOf sh sl, last := addrOf eh el, declared := true } } := by
  rw [observe_cmd q p hph hm, if_pos rfl, observe_dat q { p with mode := .colParams [] } hph]
  conv_rhs => rw [hm]
  rfl

/-- Four parameter bytes after ROW_ADDR_SET declare the rows (rule R145). -/
theorem observe_row (q : Params) (p : Panel) (hph : p.phase = .ready) (hm : p.mode = .idle) (sh sl eh el : Byte) :
    Panel.observe q (Panel.observe q p (.wr .cmd [0x2B])) (.wr .dat [sh, sl, eh, el]) =
      { p with rows := { first := addrOf sh sl, last := addrOf eh el, declared := true } } := by
  rw [observe_cmd q p hph hm, if_neg (by decide), if_pos rfl, observe_dat q { p with mode := .rowParams [] } hph]
  conv_rhs => rw [hm]
  rfl

theorem window_of (p : Panel) (x y w h : Nat) (hon : onPanel x y w h = true) (hc : p.cols = declaredReg x w)
    (hr : p.rows = declaredReg y h) : p.window = some (x, y, w, h) := by
  obtain ⟨h1, h2, h3, h4⟩ := (onPanel_iff x y w h).1 hon
  have e1 : x % 2 ^ 16 = x := Nat.mod_eq_of_lt (by omega)
  have e2 : (x + w - 1) % 2 ^ 16 = x + w - 1 := Nat.mod_eq_of_lt (by omega)
  have e3 : y % 2 ^ 16 = y := Nat.mod_eq_of_lt (by omega)
  have e4 : (y + h - 1) % 2 ^ 16 = y + h - 1 := Nat.mod_eq_of_lt (by omega)
  simp only [Panel.window, Panel.declared, hc, hr, declaredReg, BitVec.toNat_ofNat, e1, e2, e3, e4, Bool.and_self, true_and]
  rw [if_pos (by show _ ∧ _ ∧ _ < 240 ∧ _ < 240; omega), show x + w - 1 + 1 - x = w by omega,
    show y + h - 1 + 1 - y = h by omega]

/-- MEM_WRITE makes a controller with a window on the panel wait for its stream (rule R146). -/
theorem observe_memWrite (q : Params) (p : Panel) (hph : p.phase = .ready) (hm : p.mode = .idle) (hw : p.window ≠ none) :
    Panel.observe q p (.wr .cmd [0x2C]) = { p with mode := .stream 0 } := by
  rw [observe_cmd q p hph hm, if_neg (by decide), if_neg (by decide), if_pos rfl, Panel.memWrite, if_neg (fun h => hw h.2)]

/-- A controller that takes pixels, given the frames of SETWINDOW for a window on the panel, has that window declared and waits for
its stream (rules R140, R144 to R146). -/
theorem observe_window (q : Params) (x y w h : Nat) (hon : onPanel x y w h = true) (p : Panel) (hp : p.accepts) :
    (windowEvents x y w h).foldl (Panel.observe q) p =
      { p with mode := .stream 0, cols := declaredReg x w, rows := declaredReg y h } := by
  obtain ⟨h1, h2, h3, h4⟩ := (onPanel_iff x y w h).1 hon
  have hsplit : (windowEvents x y w h).foldl (Panel.observe q) p =
      Panel.observe q (Panel.observe q (Panel.observe q (Panel.observe q (Panel.observe q p (.wr .cmd [0x2A]))
        (.wr .dat [0x00, lo8 x, 0x00, lo8 (x + w - 1)])) (.wr .cmd [0x2B]))
        (.wr .dat [0x00, lo8 y, 0x00, lo8 (y + h - 1)])) (.wr .cmd [0x2C]) := rfl
  rw [hsplit, observe_col q p hp.1 hp.2.1, lo8_addr x (by omega), lo8_addr (x + w - 1) (by omega)]
  rw [show (⟨BitVec.ofNat 16 x, BitVec.ofNat 16 (x + w - 1), true⟩ : AddrReg) = declaredReg x w from rfl, observe_row q { p with cols := declaredReg x w } hp.1 hp.2.1, lo8_addr y (by omega),
    lo8_addr (y + h - 1) (by omega)]
  exact observe_memWrite q { p with cols := declaredReg x w, rows := declaredReg y h } hp.1 hp.2.1
    (by rw [window_of _ x y w h hon rfl rfl]; exact Option.some_ne_none _)

/-- A whole stream into a window on the panel, from the declaration to the release of select: the controller takes pixels again,
the window's bytes are the stream's, and every other byte is as before (rule R58). -/
theorem observe_rect (q : Params) (cap x y w h : Nat) (hcap : 1 ≤ cap) (hon : onPanel x y w h = true) (bs : List Byte)
    (hlen : bs.length = streamBytes w h) (p : Panel) (hp : p.accepts) :
    ∃ f : Memory,
      (Event.sel true :: (windowEvents x y w h ++ streamEvents cap bs ++ [.sel false])).foldl (Panel.observe q) p =
        { p with cols := declaredReg x w, rows := declaredReg y h, frame := f } ∧
      (∀ j, j < bs.length → f.read (streamAddr x y w j) = bs[j]?) ∧
      ∀ a, (∀ j, j < bs.length → a ≠ streamAddr x y w j) → f.read a = p.frame.read a := by
  obtain ⟨h1, h2, h3, h4⟩ := (onPanel_iff x y w h).1 hon
  have hfl := chunksOf_flatten cap hcap bs
  obtain ⟨f, hf, f1, f2⟩ := observe_stream q x y w h (by omega) h3 (chunksOf cap bs) 0
    { p with mode := .stream 0, cols := declaredReg x w, rows := declaredReg y h } hp.1
    (window_of _ x y w h hon rfl rfl) hp.2.2 rfl (by rw [hfl, hlen]; omega)
  rw [hfl] at hf f1 f2
  refine ⟨f, ?_, by simpa using f1, by simpa using f2⟩
  have heven : bs.length % 2 = 0 := by rw [hlen, streamBytes_eq]; omega
  rw [List.foldl_cons, List.foldl_append, List.foldl_append, show Panel.observe q p (.sel true) = p from rfl,
    observe_window q x y w h hon p hp, streamEvents, hf]
  simp [Panel.observe, hp.1, Panel.endCommand, heven, hp.2.1]

/-- The stream byte that lands on byte `b` of the pixel `(px, py)` of a window. -/
theorem streamAddr_pixel (x y w px py b : Nat) (hw : 0 < w) (hb : b < 2) (hx : x ≤ px) (hx2 : px < x + w) (hy : y ≤ py) :
    streamAddr x y w (2 * (w * (py - y) + (px - x)) + b) = pixelAddr px py + b := by
  obtain ⟨i, rfl⟩ : ∃ i, px = x + i := ⟨px - x, by omega⟩
  obtain ⟨j, rfl⟩ : ∃ j, py = y + j := ⟨py - y, by omega⟩
  have hk : 2 * (w * (y + j - y) + (x + i - x)) + b = (2 * i + b) + (2 * w) * j := by
    rw [Nat.add_sub_cancel_left, Nat.add_sub_cancel_left, Nat.mul_add, Nat.mul_assoc]; omega
  have hlt : 2 * i + b < 2 * w := by omega
  have h1 : (2 * i + b + 2 * w * j) / (2 * w) = j := by
    rw [Nat.add_mul_div_left _ _ (by omega), Nat.div_eq_of_lt hlt, Nat.zero_add]
  have h2 : (2 * i + b + 2 * w * j) % (2 * w) = 2 * i + b := by rw [Nat.add_mul_mod_self_left, Nat.mod_eq_of_lt hlt]
  simp only [hk, streamAddr_eq, pixelAddr_eq, h1, h2]
  omega

/-- A byte of a stream lands inside the window. -/
theorem streamAddr_inside (x y w h k px py b : Nat) (hw : 0 < w) (hx : x + w ≤ 240) (hk : k < 2 * w * h) (hpx : px < 240)
    (hb : b < 2) (heq : pixelAddr px py + b = streamAddr x y w k) : x ≤ px ∧ px < x + w ∧ y ≤ py ∧ py < y + h := by
  have hm := Nat.mod_lt k (show 0 < 2 * w by omega)
  have hd : k / (2 * w) < h := Nat.div_lt_of_lt_mul hk
  simp only [pixelAddr_eq, streamAddr_eq] at heq
  generalize k / (2 * w) = d at *
  generalize k % (2 * w) = m at *
  omega

/-! ## Pixels -/

/-- The two bytes of pixel `k` of a colour stream (rules R85, R153). -/
theorem colorStream_getElem (n : Nat) (color : Half) (k : Nat) (h : k < n) :
    (colorStream n color)[2 * k]? = some (hi8 color.toNat) ∧ (colorStream n color)[2 * k + 1]? = some (lo8 color.toNat) := by
  obtain ⟨m, rfl⟩ : ∃ m, n = k + (1 + m) := ⟨n - k - 1, by omega⟩
  have hsplit : colorStream (k + (1 + m)) color = colorStream k color ++ (colorStream 1 color ++ colorStream m color) := by
    rw [colorStream_add, colorStream_add]
  have hl := colorStream_length k color
  have hget : ∀ j v, (colorStream 1 color)[j]? = some v → (colorStream (k + (1 + m)) color)[2 * k + j]? = some v := by
    intro j v hv
    have := (List.getElem?_eq_some_iff.1 hv).1
    rw [hsplit, List.getElem?_append_right (by omega), hl, Nat.add_sub_cancel_left, List.getElem?_append_left this, hv]
  exact ⟨hget 0 _ rfl, hget 1 _ rfl⟩

/-- A whole stream into a window on the panel, as pixels: those of the window take the stream's bytes, row by row, the others keep
theirs (rule R58). -/
theorem observe_rect_pixels (q : Params) (cap x y w h : Nat) (hcap : 1 ≤ cap) (hon : onPanel x y w h = true) (bs : List Byte)
    (hlen : bs.length = streamBytes w h) (p t : Panel) (hp : p.accepts)
    (ht : t = (Event.sel true :: (windowEvents x y w h ++ streamEvents cap bs ++ [.sel false])).foldl (Panel.observe q) p) :
    t.accepts ∧
      (∀ px py, x ≤ px ∧ px < x + w ∧ y ≤ py ∧ py < y + h → ∀ hi lo,
        bs[2 * (w * (py - y) + (px - x))]? = some hi → bs[2 * (w * (py - y) + (px - x)) + 1]? = some lo → t.pixel px py = (hi, lo)) ∧
      ∀ px py, px < 240 → ¬ (x ≤ px ∧ px < x + w ∧ y ≤ py ∧ py < y + h) → t.pixel px py = p.pixel px py := by
  obtain ⟨h1, h2, h3, h4⟩ := (onPanel_iff x y w h).1 hon
  obtain ⟨f, hf, f1, f2⟩ := observe_rect q cap x y w h hcap hon bs hlen p hp
  rw [hf] at ht
  subst ht
  refine ⟨hp, ?_, ?_⟩
  · rintro px py ⟨i1, i2, i3, i4⟩ hi lo e1 e2
    have a0 := f1 _ (List.getElem?_eq_some_iff.1 e1).1
    have a1 := f1 _ (List.getElem?_eq_some_iff.1 e2).1
    have s0 := streamAddr_pixel x y w px py 0 (by omega) (by omega) i1 i2 i3
    have s1 := streamAddr_pixel x y w px py 1 (by omega) (by omega) i1 i2 i3
    rw [Nat.add_zero, Nat.add_zero] at s0
    rw [s0, e1] at a0
    rw [s1, e2] at a1
    simp [Panel.pixel, Memory.byte, a0, a1]
  · intro px py hpx hout
    have hb : ∀ b, b < 2 → f.read (pixelAddr px py + b) = p.frame.read (pixelAddr px py + b) := by
      intro b hb
      refine f2 _ (fun j hj heq => ?_)
      rw [hlen] at hj
      exact hout (streamAddr_inside x y w h j px py b (by omega) h3 hj hpx hb heq)
    have b0 := hb 0 (by omega)
    have b1 := hb 1 (by omega)
    rw [Nat.add_zero] at b0
    simp [Panel.pixel, Memory.byte, b0, b1]

/-! ## Configuration frames -/

theorem addParams_append (bs : List Byte) (l : List CfgEntry) (e : CfgEntry) :
    addParams bs (l ++ [e]) = l ++ [{ e with params := e.params ++ bs }] := by
  induction l with
  | nil => rfl
  | cons x l ih =>
    cases l with
    | nil => rfl
    | cons y l =>
      simp only [List.cons_append] at ih ⊢
      rw [addParams, ih]
      simp

/-- A controller that is being configured takes frames as configuration entries (rule R148). -/
theorem observe_frames (q : Params) (es : List CfgEntry) (p : Panel) (hp : p.phase = .configuring) :
    (es.flatMap (fun e => frameEvents e.cmd e.params)).foldl (Panel.observe q) p = { p with config := p.config ++ es } := by
  induction es generalizing p with
  | nil => simp
  | cons e es ih =>
    have h1 : (frameEvents e.cmd e.params).foldl (Panel.observe q) p = { p with config := p.config ++ [e] } := by
      obtain ⟨c, ps⟩ := e
      by_cases hps : ps = []
      · subst hps
        simp [frameEvents, Panel.observe, hp]
      · simp [frameEvents, hps, Panel.observe, hp, addParams_append]
    rw [List.flatMap_cons, List.foldl_append, h1, ih { p with config := p.config ++ [e] } hp]
    simp

/-! ## What every reaction keeps -/

theorem storeStream_wf (x y w fuel k : Nat) (bs : List Byte) (m : Memory) (hm : m.wf) : (storeStream x y w fuel k bs m).wf := by
  induction fuel generalizing k bs m with
  | zero => exact hm
  | succ fuel ih =>
    rw [storeStream]
    split
    · exact hm
    · exact ih _ _ _ (Memory.wf_writeRun m hm _ _)

theorem blur_wf (p : Panel) : p.blur.frame.wf := List.Pairwise.nil
theorem lose_wf (p : Panel) : p.lose.frame.wf := List.Pairwise.nil

theorem endCommand_wf (p : Panel) (hp : p.frame.wf) : p.endCommand.frame.wf := by
  rw [Panel.endCommand]
  split
  · exact hp
  · exact lose_wf p
  · exact lose_wf p
  · exact hp
  · split
    · exact hp
    · split
      · exact Memory.wf_writeRun _ hp _ _
      · exact hp

theorem configure_wf (q : Params) (p : Panel) (c : Byte) : (p.configure q c).frame.wf := by
  rw [Panel.configure]
  split
  · exact blur_wf p
  · exact lose_wf p

theorem memWrite_wf (p : Panel) (hp : p.frame.wf) : p.memWrite.frame.wf := by
  rw [Panel.memWrite]
  split
  · exact List.Pairwise.nil
  · exact hp

theorem power_wf (q : Params) (p : Panel) (hp : p.frame.wf) (c : Byte) (i : Option Instr) : (p.power q c i).frame.wf := by
  have hc : (Panel.carry q p).frame.wf := by
    rw [Panel.carry]
    split
    · exact hp
    · exact blur_wf p
  unfold Panel.power
  split
  · exact hc
  · exact hc
  · exact hc
  · exact hc
  · exact configure_wf q p c

theorem command_wf (q : Params) (p : Panel) (hp : p.frame.wf) (c : Byte) : (p.command q c).frame.wf := by
  have he := endCommand_wf p hp
  have key : ∀ e : Panel, e.frame.wf →
      (if e.phase = .ready then
        if c = Config.cmdColAddrSet then { e with mode := .colParams [] }
        else if c = Config.cmdRowAddrSet then { e with mode := .rowParams [] }
        else if c = Config.cmdMemWrite then e.memWrite
        else e.power q c (openCommand q c)
      else if e.phase = .offPanel then e
      else e.blur).frame.wf := by
    intro e he
    by_cases h1 : e.phase = .ready
    · rw [if_pos h1]
      by_cases h2 : c = Config.cmdColAddrSet
      · rw [if_pos h2]; exact he
      · rw [if_neg h2]
        by_cases h3 : c = Config.cmdRowAddrSet
        · rw [if_pos h3]; exact he
        · rw [if_neg h3]
          by_cases h4 : c = Config.cmdMemWrite
          · rw [if_pos h4]; exact memWrite_wf e he
          · rw [if_neg h4]; exact power_wf q e he _ _
    · rw [if_neg h1]
      split
      · exact he
      · exact blur_wf e
  exact key _ he

theorem params_wf (p : Panel) (hp : p.frame.wf) (again : List Byte → PanelMode) (declare : AddrReg → Panel)
    (hd : ∀ a, (declare a).frame.wf) (all : List Byte) : (p.params again declare all).frame.wf := by
  match all with
  | [] => exact hp
  | [_] => exact hp
  | [_, _] => exact hp
  | [_, _, _] => exact hp
  | [_, _, _, _] => exact hd _
  | _ :: _ :: _ :: _ :: _ :: _ => exact lose_wf p

theorem data_wf (p : Panel) (hp : p.frame.wf) (bs : List Byte) : (p.data bs).frame.wf := by
  unfold Panel.data
  split
  · exact lose_wf p
  · exact params_wf p hp _ (fun a => { p with mode := .idle, cols := a }) (fun _ => hp) _
  · exact params_wf p hp _ (fun a => { p with mode := .idle, rows := a }) (fun _ => hp) _
  · exact hp
  · split
    · split
      · exact storeStream_wf _ _ _ _ _ _ _ hp
      · exact blur_wf p
    · exact blur_wf p

/-- A reaction keeps the frame memory in its canonical form. -/
theorem observe_wf (q : Params) (p : Panel) (hp : p.frame.wf) (e : Event) : (p.observe q e).frame.wf := by
  have hcmds : ∀ (bs : List Byte) (p : Panel), p.frame.wf → (bs.foldl (Panel.command q) p).frame.wf := by
    intro bs
    induction bs with
    | nil => exact fun _ h => h
    | cons c bs ih => exact fun p h => ih _ (command_wf q p h c)
  cases e with
  | rst b =>
    cases b <;> simp only [Panel.observe] <;> split <;> first | exact hp | exact blur_wf p
  | wait n => exact hp
  | sel b =>
    cases b with
    | true => exact hp
    | false =>
      simp only [Panel.observe]
      split
      · exact blur_wf p
      · exact endCommand_wf p hp
      · exact hp
      · exact hp
      · exact hp
  | wr d bs =>
    simp only [Panel.observe]
    split
    · exact hp
    · exact hp
    · exact hcmds bs p hp
    · exact data_wf p hp bs
    · exact blur_wf p
    · exact blur_wf p
    · exact hp

theorem observeAll_wf (q : Params) (es : List Event) (p : Panel) (hp : p.frame.wf) :
    (es.foldl (Panel.observe q) p).frame.wf := by
  induction es generalizing p with
  | nil => exact hp
  | cons e es ih => exact ih _ (observe_wf q p hp e)

/-- Without a reset pulse the phase `unknown` stays (rule R255). -/
theorem observeAll_unknown (q : Params) (es : List Event) (p : Panel) (hp : p.phase = .unknown) (he : ∀ e ∈ es, ∀ b, e ≠ .rst b) :
    (es.foldl (Panel.observe q) p).phase = .unknown := by
  induction es generalizing p with
  | nil => exact hp
  | cons e es ih =>
    refine ih _ ?_ (fun f hf => he f (List.mem_cons_of_mem _ hf))
    have h0 := he e List.mem_cons_self
    cases e with
    | rst b => exact absurd rfl (h0 b)
    | wait n => exact hp
    | sel b => cases b <;> simp only [Panel.observe, hp]
    | wr d bs => cases d <;> simp only [Panel.observe, hp] <;> exact hp

end Sys2Proof.Machine
end

