-- ==== Sys2Proof/Laws/PerInstr.lean ====
section
/-! SUPPORT. One lemma an instruction, about it as syntax: how many bytes its encoding has (rule R96 for a descriptor, rules R80 to R83
for a frame), and that a descriptor starts with its operation code (rule R95). -/

namespace Sys2Proof

/-- The length of the encoding, by the layouts of rules R96, R82, R83. -/
def Laws.Layout.size (p : Params) : Instr → Nat
  | .init => 1
  | .setPower _ => 2
  | .fillRect _ _ _ _ _ => 11
  | .blitImage _ _ _ _ data => 13 + data.length
  | .drawChar _ _ _ _ _ _ => 12
  | .printLine _ _ _ _ _ text => 13 + text.length
  | .beginTx => 1
  | .endTx => 1
  | .write _ bytes => 4 + bytes.length
  | .setWindow _ _ _ _ => 9
  | .fill _ => 3
  | .blit data => 5 + data.length
  | .decode _ => 2
  | .glyphCol _ _ => 3
  | .colAddrSet _ _ _ _ => 5
  | .rowAddrSet _ _ _ _ => 5
  | .memWrite => 1
  | .sleepIn => 1
  | .sleepOut => 1
  | .displayOn => 1
  | .displayOff => 1
  | .cfg n => (p.initCfg[n]?.map (fun e => 1 + e.params.length)).getD 0

/-- The operation code a descriptor starts with (rule R95); none for a bus command. -/
def Laws.Layout.opcode : Instr → Option Byte
  | .init => some 0x01
  | .setPower _ => some 0x02
  | .fillRect _ _ _ _ _ => some 0x03
  | .blitImage _ _ _ _ _ => some 0x04
  | .drawChar _ _ _ _ _ _ => some 0x05
  | .printLine _ _ _ _ _ _ => some 0x06
  | .beginTx => some 0x10
  | .endTx => some 0x11
  | .write _ _ => some 0x12
  | .setWindow _ _ _ _ => some 0x13
  | .fill _ => some 0x14
  | .blit _ => some 0x15
  | .decode _ => some 0x16
  | .glyphCol _ _ => some 0x17
  | .colAddrSet _ _ _ _ => none
  | .rowAddrSet _ _ _ _ => none
  | .memWrite => none
  | .sleepIn => none
  | .sleepOut => none
  | .displayOn => none
  | .displayOff => none
  | .cfg _ => none

/-- The statement of the family: the encoding has its layout's length, and a descriptor starts with its operation code. -/
def Laws.Layout.Statement (i : Instr) : Prop :=
  ∀ p : Params, (encode p i).length = Laws.Layout.size p i ∧
    ∀ c, Laws.Layout.opcode i = some c → (encode p i).head? = some c

theorem Laws.Layout.init : Laws.Layout.Statement .init := fun p =>
  ⟨rfl, fun c h => by simpa [Laws.Layout.opcode, encode] using h⟩
theorem Laws.Layout.setPower (on : Byte) : Laws.Layout.Statement (.setPower on) := fun p =>
  ⟨rfl, fun c h => by simpa [Laws.Layout.opcode, encode] using h⟩
theorem Laws.Layout.fillRect (x y w h color : Half) : Laws.Layout.Statement (.fillRect x y w h color) := fun p =>
  ⟨rfl, fun c h => by simpa [Laws.Layout.opcode, encode] using h⟩
theorem Laws.Layout.blitImage (x y w h : Half) (data : List Byte) : Laws.Layout.Statement (.blitImage x y w h data) := fun p =>
  ⟨by simp [encode, Laws.Layout.size, bytes16, bytes32]; omega, fun c h => by simpa [Laws.Layout.opcode, encode] using h⟩
theorem Laws.Layout.drawChar (x y : Half) (g : Byte) (fg bg scale : Half) : Laws.Layout.Statement (.drawChar x y g fg bg scale) := fun p =>
  ⟨rfl, fun c h => by simpa [Laws.Layout.opcode, encode] using h⟩
theorem Laws.Layout.printLine (x y fg bg scale : Half) (text : List Byte) : Laws.Layout.Statement (.printLine x y fg bg scale text) := fun p =>
  ⟨by simp [encode, Laws.Layout.size, bytes16]; omega, fun c h => by simpa [Laws.Layout.opcode, encode] using h⟩
theorem Laws.Layout.beginTx : Laws.Layout.Statement .beginTx := fun p =>
  ⟨rfl, fun c h => by simpa [Laws.Layout.opcode, encode] using h⟩
theorem Laws.Layout.endTx : Laws.Layout.Statement .endTx := fun p =>
  ⟨rfl, fun c h => by simpa [Laws.Layout.opcode, encode] using h⟩
theorem Laws.Layout.write (dc : Byte) (bytes : List Byte) : Laws.Layout.Statement (.write dc bytes) := fun p =>
  ⟨by simp [encode, Laws.Layout.size, bytes16]; omega, fun c h => by simpa [Laws.Layout.opcode, encode] using h⟩
theorem Laws.Layout.setWindow (x y w h : Half) : Laws.Layout.Statement (.setWindow x y w h) := fun p =>
  ⟨rfl, fun c h => by simpa [Laws.Layout.opcode, encode] using h⟩
theorem Laws.Layout.fill (color : Half) : Laws.Layout.Statement (.fill color) := fun p =>
  ⟨rfl, fun c h => by simpa [Laws.Layout.opcode, encode] using h⟩
theorem Laws.Layout.blit (data : List Byte) : Laws.Layout.Statement (.blit data) := fun p =>
  ⟨by simp [encode, Laws.Layout.size, bytes32]; omega, fun c h => by simpa [Laws.Layout.opcode, encode] using h⟩
theorem Laws.Layout.decode (b : Byte) : Laws.Layout.Statement (.decode b) := fun p =>
  ⟨rfl, fun c h => by simpa [Laws.Layout.opcode, encode] using h⟩
theorem Laws.Layout.glyphCol (g c : Byte) : Laws.Layout.Statement (.glyphCol g c) := fun p =>
  ⟨rfl, fun c h => by simpa [Laws.Layout.opcode, encode] using h⟩
theorem Laws.Layout.colAddrSet (sh sl eh el : Byte) : Laws.Layout.Statement (.colAddrSet sh sl eh el) := fun p =>
  ⟨rfl, fun c h => by simp [Laws.Layout.opcode] at h⟩
theorem Laws.Layout.rowAddrSet (sh sl eh el : Byte) : Laws.Layout.Statement (.rowAddrSet sh sl eh el) := fun p =>
  ⟨rfl, fun c h => by simp [Laws.Layout.opcode] at h⟩
theorem Laws.Layout.memWrite : Laws.Layout.Statement .memWrite := fun p =>
  ⟨rfl, fun c h => by simp [Laws.Layout.opcode] at h⟩
theorem Laws.Layout.sleepIn : Laws.Layout.Statement .sleepIn := fun p =>
  ⟨rfl, fun c h => by simp [Laws.Layout.opcode] at h⟩
theorem Laws.Layout.sleepOut : Laws.Layout.Statement .sleepOut := fun p =>
  ⟨rfl, fun c h => by simp [Laws.Layout.opcode] at h⟩
theorem Laws.Layout.displayOn : Laws.Layout.Statement .displayOn := fun p =>
  ⟨rfl, fun c h => by simp [Laws.Layout.opcode] at h⟩
theorem Laws.Layout.displayOff : Laws.Layout.Statement .displayOff := fun p =>
  ⟨rfl, fun c h => by simp [Laws.Layout.opcode] at h⟩
theorem Laws.Layout.cfg (n : Nat) : Laws.Layout.Statement (.cfg n) := fun p =>
  ⟨by cases h : p.initCfg[n]? <;> simp [encode, Laws.Layout.size, h]; omega, fun c h => by simp [Laws.Layout.opcode] at h⟩

end Sys2Proof
end

