-- ==== Sys2Proof/Tests/Slice0.lean ====
section
/-! SUPPORT. The model's own tests. Expected results are the vectors of `95_test_vectors.md` (its names T, W, I, P, F, B, G, K, Q, L, X
stand in the comments) on the test instance of its section 0, and words spelled by hand from rule R96. The witnesses at the end show,
for every obligation with hypotheses, a state and operands that meet them. -/

namespace Sys2Proof.Tests

open Sys2Proof Sys2Proof.Machine

/-- The parameters of the test instance (section 0), with symbolic delays set to 1 and 2 and the frame memory kept. -/
def params : Params :=
  { cmdSleepIn := 0x10
    cmdSleepOut := 0x11
    cmdDisplayOn := 0x29
    cmdDisplayOff := 0x28
    initCfg := [{ cmd := 0x36, params := [0x00] }, { cmd := 0x3A, params := [0x05] }]
    tRstAssert := 1
    tRstRelease := 2
    pwrOnCmds := [0x11, 0x29]
    pwrOffCmds := [0x28, 0x10]
    txbufCap := 15000
    glyphBit0IsTop := true
    wrapXMode := .zero
    frameKept := true }

/-- The glyphs 33 and 65 of the test instance. -/
def font : Memory := runCells (5 * 33) [0x00, 0x00, 0x01, 0x00, 0x00] ++ runCells (5 * 65) [0x7C, 0x12, 0x11, 0x12, 0x7C]

/-- The reset state of the test instance. -/
def start : State :=
  { State.reset with params := params, glyphRom := font, remapRom := [{ lead := 0xC3, trail := 0xA1, glyph := 0x80 }] }

/-- The same with a transmit buffer of `n` bytes. -/
def small (n : Nat) : State := { start with params := { params with txbufCap := n } }

/-- After `BEGIN`. -/
def opened : State := { start with busSel := true, trace := [.sel true] }

/-- After `BEGIN; SETWINDOW 0, 0, w, h` with a transmit buffer of `n` bytes; of the five writes only the last stands in the trace. -/
def declared (n w h : Nat) : State :=
  { small n with busSel := true, trace := [.sel true, .wr .cmd [0x2C]], win := { x := 0, y := 0, w := w, h := h, isOpen := true } }

/-- A controller that has completed an INIT and takes pixels. -/
def ready : State := { start with panel := { Panel.powerUp with phase := .ready, asleep := false, displayOn := true } }

/-- Inside a bracket, with the columns `c` to `d` and the rows `e` to `f` declared. -/
def awaiting (c d e f : Half) : State :=
  { ready with
    busSel := true
    panel := { ready.panel with
      cols := { first := c, last := d, declared := true }, rows := { first := e, last := f, declared := true } } }

/-- What an outcome left behind, if it is a next state. -/
def after (o : Host.Outcome State Fault Refusal) : Option State :=
  match o with
  | .next t => some t
  | .fault _ | .refused _ => none

/-- The refusal an outcome is, if it is one. -/
def refusal (o : Host.Outcome State Fault Refusal) : Option Refusal :=
  match o with
  | .next _ | .fault _ => none
  | .refused r => some r

/-- The trace an instruction leaves. -/
def traceOf (i : Instr) (s : State) : Option (List Event) := (after (exec i s)).map State.trace

/-- The start bytes of the address commands of a trace: a column and a row for each window. -/
def addresses (es : List Event) : List Byte :=
  es.filterMap (fun e => match e with
    | .wr .dat [_, start, _, _] => some start
    | _ => none)

/-- Steps over a program handed over as bytes. -/
def runProg (n : Nat) (bytes : List Byte) (s : State) : Option State := after (Sys2Proof.core.run n { s with prog := bytes })

/-! ## Well-formedness: an ill-formed term for each check -/

theorem test_wf_blitImage : (Instr.blitImage 0 0 1 1 (List.replicate (2 ^ 32) 0)).wf params = false := by
  simp only [Instr.wf, List.length_replicate]; rfl
theorem test_wf_blit : (Instr.blit (List.replicate (2 ^ 32) 0)).wf params = false := by
  simp only [Instr.wf, List.length_replicate]; rfl
theorem test_wf_printLine : (Instr.printLine 0 0 0 0 1 (List.replicate (2 ^ 16) 0x41)).wf params = false := by
  simp only [Instr.wf, List.length_replicate]; rfl
theorem test_wf_write : (Instr.write 1 (List.replicate (2 ^ 16) 0)).wf params = false := by
  simp only [Instr.wf, List.length_replicate]; rfl
theorem test_wf_cfg : (Instr.cfg 2).wf params = false ∧ (Instr.cfg 1).wf params = true := by decide

/-! ## Decoding: every constructor's word, spelled from rule R96 (section 9) or from rules R81 to R83 -/

theorem test_decode_init : decode [0x01] = .ok (.init, []) := by decide
theorem test_decode_setPower : decode [0x02, 0x01] = .ok (.setPower 1, []) := by decide
theorem test_decode_fillRect :
    decode [0x03, 0x00, 0x0A, 0x00, 0x14, 0x00, 0x03, 0x00, 0x02, 0xF8, 0x00] = .ok (.fillRect 10 20 3 2 0xF800, []) := by decide
theorem test_decode_blitImage :
    decode [0x04, 0x00, 0x01, 0x00, 0x02, 0x00, 0x03, 0x00, 0x02, 0x00, 0x00, 0x00, 0x0C, 0x10, 0x11, 0x12, 0x13, 0x14, 0x15, 0x16,
      0x17, 0x18, 0x19, 0x1A, 0x1B] =
      .ok (.blitImage 1 2 3 2 [0x10, 0x11, 0x12, 0x13, 0x14, 0x15, 0x16, 0x17, 0x18, 0x19, 0x1A, 0x1B], []) := by decide
theorem test_decode_drawChar :
    decode [0x05, 0x00, 0x64, 0x00, 0x32, 0x41, 0xFF, 0xFF, 0x00, 0x00, 0x00, 0x01] =
      .ok (.drawChar 100 50 65 0xFFFF 0x0000 1, []) := by decide
theorem test_decode_printLine :
    decode [0x06, 0x00, 0x0A, 0x00, 0x14, 0xFF, 0xFF, 0x00, 0x00, 0x00, 0x01, 0x00, 0x01, 0x41] =
      .ok (.printLine 10 20 0xFFFF 0x0000 1 [0x41], []) := by decide
theorem test_decode_beginTx : decode [0x10, 0x11] = .ok (.beginTx, [0x11]) := by decide
theorem test_decode_endTx : decode [0x11] = .ok (.endTx, []) := by decide
theorem test_decode_write : decode [0x12, 0x01, 0x00, 0x02, 0xDE, 0xAD] = .ok (.write 1 [0xDE, 0xAD], []) := by decide
theorem test_decode_setWindow :
    decode [0x13, 0x00, 0x00, 0x00, 0x00, 0x00, 0x03, 0x00, 0x01] = .ok (.setWindow 0 0 3 1, []) := by decide
theorem test_decode_fill : decode [0x14, 0x12, 0x34] = .ok (.fill 0x1234, []) := by decide
theorem test_decode_blit : decode [0x15, 0x00, 0x00, 0x00, 0x02, 0xA0, 0xA1] = .ok (.blit [0xA0, 0xA1], []) := by decide
theorem test_decode_decode : decode [0x16, 0xC3] = .ok (.decode 0xC3, []) := by decide
theorem test_decode_glyphCol : decode [0x17, 0x41, 0x02] = .ok (.glyphCol 65 2, []) := by decide
theorem test_decode_colAddrSet : decodeFrame params [0x2A, 0x00, 0x0A, 0x00, 0x0C] = some (.colAddrSet 0 10 0 12) := by decide
theorem test_decode_rowAddrSet : decodeFrame params [0x2B, 0x00, 0x14, 0x00, 0x15] = some (.rowAddrSet 0 20 0 21) := by decide
theorem test_decode_memWrite : decodeFrame params [0x2C] = some .memWrite := by decide
theorem test_decode_sleepIn : decodeFrame params [0x10] = some .sleepIn := by decide
theorem test_decode_sleepOut : decodeFrame params [0x11] = some .sleepOut := by decide
theorem test_decode_displayOn : decodeFrame params [0x29] = some .displayOn := by decide
theorem test_decode_displayOff : decodeFrame params [0x28] = some .displayOff := by decide
theorem test_decode_cfg : decodeFrame params [0x3A, 0x05] = some (.cfg 1) := by decide
/-- X10, X11 -/
theorem test_decode_rejects :
    decode [0x00] = .error .reservedOp ∧ decode [0x07] = .error .reservedOp ∧ decode [0x18] = .error .reservedOp ∧
      decode [0xFF] = .error .reservedOp ∧ decode [0x03, 0x00, 0x0A] = .error .truncated := by decide
/-- The encoder spells the words of section 9. -/
theorem test_encode :
    encode params (.fillRect 10 20 3 2 0xF800) = [0x03, 0x00, 0x0A, 0x00, 0x14, 0x00, 0x03, 0x00, 0x02, 0xF8, 0x00] ∧
      encode params (.blit [0xA0, 0xA1]) = [0x15, 0x00, 0x00, 0x00, 0x02, 0xA0, 0xA1] ∧
      encode params (.cfg 1) = [0x3A, 0x05] := by decide
/-- A table word gives the operation with its operand bytes, and a step runs it as the first after reset. -/
theorem test_tableWord : decodeTableWord 8 0x01 = some .init ∧ decodeTableWord 16 0xC316 = some (.decode 0xC3) := by decide
/-- A configuration frame that opens with a fixed command byte but does not fit its row is an entry of `INIT_CFG` (rule R81, note N4). -/
theorem test_decode_cfg_fixed_byte :
    decodeFrame { params with initCfg := [{ cmd := 0x2A, params := [0x07] }] } [0x2A, 0x07] = some (.cfg 0) := by decide
theorem test_tableWord_bus : decodeTableWord 8 0x2A = some (.colAddrSet 0 0 0 0) ∧ decodeTableWord 8 0x2C = some .memWrite := by
  decide
theorem test_withFetchWord :
    refusal (step (State.reset.withFetchWord 8 0x11)) = some .endWithoutBegin ∧
      refusal (step (State.reset.withFetchWord 8 0x2B)) = some .writeUnselected := by decide
theorem test_withFetchWord_runs :
    (after (step (State.reset.withFetchWord 16 0xC316))).map State.dec = some (.await 0xC3) := by decide

/-! ## Bus Transport -/

/-- T1 -/
theorem test_begin : traceOf .beginTx start = some [.sel true] ∧ (after (exec .beginTx start)).map State.busSel = some true := by
  decide
/-- T5 -/
theorem test_begin_nested : refusal (exec .beginTx opened) = some .nestedBegin := by decide
/-- T2 -/
theorem test_end : traceOf .endTx opened = some [.sel true, .sel false] := by decide
/-- T6 -/
theorem test_end_unopened : refusal (exec .endTx start) = some .endWithoutBegin := by decide
/-- T3, T4 -/
theorem test_write :
    traceOf (.write 1 [0xDE, 0xAD]) opened = some [.sel true, .wr .dat [0xDE, 0xAD]] ∧
      traceOf (.write 1 []) opened = some [.sel true] := by decide
/-- T7 -/
theorem test_write_unselected : refusal (exec (.write 1 [0x01]) start) = some .writeUnselected := by decide

/-! ## Controller Protocol -/

/-- I1, I2 -/
theorem test_init :
    traceOf .init start = some [.rst true, .wait 1, .rst false, .wait 2, .sel true, .wr .cmd [0x36], .wr .dat [0x00],
        .wr .cmd [0x3A], .wr .dat [0x05], .wr .cmd [0x11], .wr .cmd [0x29], .sel false] ∧
      traceOf .init { start with params := { params with initCfg := [] } } =
        some [.rst true, .wait 1, .rst false, .wait 2, .sel true, .wr .cmd [0x11], .wr .cmd [0x29], .sel false] := by decide
/-- I4 -/
theorem test_init_keeps_decoder :
    (after (exec .init { start with dec := .await 0xC3 })).map State.dec = some (.await 0xC3) := by decide
/-- P1v, P2v -/
theorem test_setPower :
    traceOf (.setPower 0) start = some [.sel true, .wr .cmd [0x28], .wr .cmd [0x10], .sel false] ∧
      traceOf (.setPower 1) start = some [.sel true, .wr .cmd [0x11], .wr .cmd [0x29], .sel false] := by decide
/-- P3v -/
theorem test_setPower_bad : refusal (exec (.setPower 2) start) = some .badOperand := by decide
/-- W1, W3: the row mask, and the exact window that is recorded -/
theorem test_setWindow :
    (after (exec (.setWindow 10 20 3 2) opened)).map (fun t => (t.win, traceBytes t.trace)) =
      some ({ x := 10, y := 20, w := 3, h := 2, isOpen := true },
        [(.cmd, 0x2A), (.dat, 0x00), (.dat, 0x0A), (.dat, 0x00), (.dat, 0x0C), (.cmd, 0x2B), (.dat, 0x00), (.dat, 0x14),
          (.dat, 0x00), (.dat, 0x15), (.cmd, 0x2C)]) ∧
      (traceOf (.setWindow 0 200 240 100) opened).map (fun t => t.drop 4) =
        some [.wr .dat [0x00, 0xC8, 0x00, 0x2B], .wr .cmd [0x2C]] := by decide
/-- W6 -/
theorem test_setWindow_zero : refusal (exec (.setWindow 0 0 0 5) opened) = some .zeroArea := by decide

/-! ## Bus commands (rules R80 to R83, R144 to R148) -/

theorem test_colAddrSet : traceOf (.colAddrSet 0 10 0 12) opened = some [.sel true, .wr .cmd [0x2A], .wr .dat [0, 10, 0, 12]] := by
  decide
theorem test_rowAddrSet : traceOf (.rowAddrSet 0 20 0 21) opened = some [.sel true, .wr .cmd [0x2B], .wr .dat [0, 20, 0, 21]] := by
  decide
theorem test_memWrite : traceOf .memWrite opened = some [.sel true, .wr .cmd [0x2C]] := by decide
theorem test_sleepIn :
    (after (exec .sleepIn { ready with busSel := true })).map (fun t => (t.trace, t.panel.asleep)) =
      some ([.wr .cmd [0x10]], true) := by decide
theorem test_sleepOut :
    (after (exec .sleepOut { ready with busSel := true })).map (fun t => (t.trace, t.panel.asleep)) =
      some ([.wr .cmd [0x11]], false) := by decide
theorem test_displayOn :
    (after (exec .displayOn { ready with busSel := true })).map (fun t => (t.trace, t.panel.displayOn)) =
      some ([.wr .cmd [0x29]], true) := by decide
theorem test_displayOff :
    (after (exec .displayOff { ready with busSel := true })).map (fun t => (t.trace, t.panel.displayOn)) =
      some ([.wr .cmd [0x28]], false) := by decide
theorem test_cfg : traceOf (.cfg 0) opened = some [.sel true, .wr .cmd [0x36], .wr .dat [0x00]] := by decide
/-- Rule R148: a ready controller takes the frame into its configuration registers. -/
theorem test_cfg_configures :
    (after (exec (.cfg 1) { ready with busSel := true })).map (fun t => (t.panel.phase, t.panel.config)) =
      some (.ready, [{ cmd := 0x3A, params := [0x05] }]) := by decide

/-! ## Pixel Streamer -/

/-- F0; rules R63, R229: the block sends an off-panel window, its parameters truncated, and the panel is marked. -/
theorem test_fillRect :
    traceOf (.fillRect 10 20 3 2 0xF800) start = some [.sel true, .wr .cmd [0x2A], .wr .dat [0x00, 0x0A, 0x00, 0x0C],
      .wr .cmd [0x2B], .wr .dat [0x00, 0x14, 0x00, 0x15], .wr .cmd [0x2C],
      .wr .dat [0xF8, 0x00, 0xF8, 0x00, 0xF8, 0x00, 0xF8, 0x00, 0xF8, 0x00, 0xF8, 0x00], .sel false] ∧
      (after (exec (.fillRect 256 0 1 1 0) ready)).map (fun t => (t.panel.phase, t.trace.take 3)) =
        some (.offPanel, [.sel true, .wr .cmd [0x2A], .wr .dat [0x00, 0x00, 0x00, 0x00]]) := by decide
/-- T8, X7 -/
theorem test_fillRect_refused :
    refusal (exec (.fillRect 0 0 1 1 0) opened) = some .nestedBegin ∧
      refusal (exec (.fillRect 0 0 0 0 0) start) = some .zeroArea := by decide
/-- Table F at a capacity of 4, colour 1234: 3 pixels -/
theorem test_fill :
    traceOf (.fill 0x1234) (declared 4 3 1) =
      some [.sel true, .wr .cmd [0x2C], .wr .dat [0x12, 0x34, 0x12, 0x34], .wr .dat [0x12, 0x34]] := by decide
/-- B6 -/
theorem test_fill_no_window : refusal (exec (.fill 1) opened) = some .noOpenWindow := by decide
/-- B1: the chunks, and what is left in the transmit buffer -/
theorem test_blit :
    (after (exec (.blit [0xA0, 0xA1, 0xA2, 0xA3, 0xA4, 0xA5, 0xA6, 0xA7, 0xA8, 0xA9, 0xAA, 0xAB, 0xAC, 0xAD, 0xAE, 0xAF, 0xB0, 0xB1])
        (declared 8 3 3))).map (fun t => (t.trace.drop 2, t.txbuf.readRun .txBuf 0 8)) =
      some ([.wr .dat [0xA0, 0xA1, 0xA2, 0xA3, 0xA4, 0xA5, 0xA6, 0xA7], .wr .dat [0xA8, 0xA9, 0xAA, 0xAB, 0xAC, 0xAD, 0xAE, 0xAF],
        .wr .dat [0xB0, 0xB1]], [0xB0, 0xB1, 0xAA, 0xAB, 0xAC, 0xAD, 0xAE, 0xAF]) := by decide
theorem test_blit_short : refusal (exec (.blit [0x01]) (declared 8 1 1)) = some .shortSource := by decide
/-- B2: the pixels on a panel -/
theorem test_blitImage :
    (after (exec (.blitImage 0 0 2 2 [1, 2, 3, 4, 5, 6, 7, 8]) ready)).map
        (fun t => (t.panel.pixel 0 0, t.panel.pixel 1 0, t.panel.pixel 0 1, t.panel.pixel 1 1)) =
      some ((1, 2), (3, 4), (5, 6), (7, 8)) := by decide
/-- B3 -/
theorem test_blitImage_short : refusal (exec (.blitImage 0 0 2 2 [1, 2, 3, 4, 5, 6, 7]) start) = some .shortSource := by decide

/-! ## Glyphs -/

/-- G1 -/
theorem test_glyphCol :
    (after (exec (.glyphCol 65 2) start)).map State.result = some (.column 0x11) ∧
      (after (exec (.glyphCol 65 0) start)).map State.result = some (.column 0x7C) := by decide
/-- X12 -/
theorem test_glyphCol_bad : refusal (exec (.glyphCol 65 5) start) = some .badOperand := by decide
set_option maxRecDepth 8000 in
/-- G3: transparent, scale 2, one set bit; G4: the columns and rows of the 16 cells in the order they are sent -/
theorem test_drawChar :
    (after (exec (.drawChar 0 0 33 0x07E0 0x07E0 2) start)).map (fun t => (t.result, t.trace)) =
      some (.drawn true, [.sel true, .wr .cmd [0x2A], .wr .dat [0x00, 0x04, 0x00, 0x05], .wr .cmd [0x2B],
        .wr .dat [0x00, 0x00, 0x00, 0x01], .wr .cmd [0x2C], .wr .dat [0x07, 0xE0, 0x07, 0xE0, 0x07, 0xE0, 0x07, 0xE0],
        .sel false]) ∧
      (traceOf (.drawChar 100 50 65 0xFFFF 0xFFFF 1) start).map addresses =
        some [100, 52, 100, 53, 100, 54, 100, 55, 100, 56, 101, 51, 101, 54, 102, 50, 102, 54, 103, 51, 103, 54, 104, 52, 104, 53,
          104, 54, 104, 55, 104, 56] := by decide
/-- G8: a control character; a scale of 0 -/
theorem test_drawChar_control :
    (after (exec (.drawChar 0 0 31 0xFFFF 0 1) start)).map (fun t => (t.result, t.trace)) = some (.drawn false, []) ∧
      refusal (exec (.drawChar 0 0 65 1 2 0) start) = some .zeroScale := by decide

/-! ## Decoder and composer -/

/-- K1, K2, K5 -/
theorem test_decode_idle :
    (after (exec (.decode 0x41) start)).map (fun t => (t.result, t.dec)) = some (.glyph (some 65), .idle) ∧
      (after (exec (.decode 0x1F) start)).map (fun t => (t.result, t.dec)) = some (.glyph none, .idle) ∧
      (after (exec (.decode 0x7F) start)).map (fun t => (t.result, t.dec)) = some (.glyph none, .await 0x7F) := by decide
/-- K7, K8, K11 -/
theorem test_decode_await :
    (after (exec (.decode 0xA1) { start with dec := .await 0xC3 })).map (fun t => (t.result, t.dec)) =
        some (.glyph (some 128), .idle) ∧
      (after (exec (.decode 0xA2) { start with dec := .await 0xC3 })).map (fun t => (t.result, t.dec)) =
        some (.glyph none, .idle) ∧
      (after (exec (.decode 0xC3) { start with dec := .await 0xC3 })).map (fun t => (t.result, t.dec)) =
        some (.glyph none, .idle) := by decide
set_option maxRecDepth 8000 in
/-- L4's wrap on one-bit glyphs: the second glyph starts a new line 8 rows down, at column 0 -/
theorem test_printLine :
    (after (exec (.printLine 230 0 0xFFFF 0xFFFF 1 [0x21, 0x21]) start)).map
        (fun t => (t.curX, t.curY, t.trace.filter (fun e => decide (e = .wr .dat [0x00, 0xE8, 0x00, 0xE8] ∨
          e = .wr .dat [0x00, 0x02, 0x00, 0x02] ∨ e = .wr .dat [0x00, 0x08, 0x00, 0x08])))) =
      some (6, 8, [.wr .dat [0x00, 0xE8, 0x00, 0xE8], .wr .dat [0x00, 0x02, 0x00, 0x02], .wr .dat [0x00, 0x08, 0x00, 0x08]]) := by
  decide
set_option maxRecDepth 8000 in
/-- As L7's first call, on a one-bit glyph: the decoder is left waiting for the trail byte -/
theorem test_printLine_pending :
    (after (exec (.printLine 10 20 0xFFFF 0xFFFF 1 [0x21, 0xC3]) start)).map (fun t => (t.curX, t.curY, t.dec)) =
      some (16, 20, .await 0xC3) := by decide

/-! ## Steps over descriptors -/

/-- Program 5, up to the refusal -/
theorem test_program5 :
    (runProg 3 [0x10, 0x13, 0, 0, 0, 0, 0, 1, 0, 1, 0x14, 0, 1, 0x14, 0, 1, 0x11] start).map State.trace =
        some [.sel true, .wr .cmd [0x2A], .wr .dat [0, 0, 0, 0], .wr .cmd [0x2B], .wr .dat [0, 0, 0, 0], .wr .cmd [0x2C],
          .wr .dat [0, 1]] ∧
      refusal (Sys2Proof.core.run 4 { start with prog := [0x10, 0x13, 0, 0, 0, 0, 0, 1, 0, 1, 0x14, 0, 1, 0x14, 0, 1, 0x11] }) =
        some .noOpenWindow := by decide
/-- X11 -/
theorem test_truncated : refusal (step { start with prog := [0x03, 0x00, 0x0A] }) = some .truncatedDescriptor := by decide

/-! ## Witnesses: a state and operands that meet the hypotheses of each obligation, one for each clause -/

theorem witness_DescriptorsRoundTrip :
    (Instr.drawChar 0xFFFF 0xFFFF 0xFF 0xFFFF 0xFFFF 0xFFFF).isOperation = true ∧
      (Instr.drawChar 0xFFFF 0xFFFF 0xFF 0xFFFF 0xFFFF 0xFFFF).wf params = true ∧
      (Instr.write 1 []).isOperation = true ∧ (Instr.write 1 []).wf params = true := by decide
theorem witness_DescriptorsHaveOneSpelling : decode [0x02, 0xFF, 0x10] = .ok (.setPower 0xFF, [0x10]) := by decide
theorem witness_FramesRoundTrip :
    Instr.displayOff.isOperation = false ∧ Instr.displayOff.wf params = true ∧ params.distinctCmds ∧
      (Instr.cfg 1).isOperation = false ∧ (Instr.cfg 1).wf params = true ∧
      params.initCfg[1]? = some { cmd := 0x3A, params := [0x05] } := by decide
theorem witness_FramesRoundTrip_apart (j : Instr) (ho : j.isOperation = false) (hc : ∀ m, j ≠ .cfg m) :
    encode params j ≠ encode params (.cfg 1) := by
  cases j <;> first | exact absurd ho (by decide) | exact absurd rfl (hc _) | exact fun h => by simp [encode, params, Config.cmdColAddrSet, Config.cmdRowAddrSet, Config.cmdMemWrite] at h
theorem witness_FramesRoundTrip_named : ∀ n, Instr.displayOff ≠ .cfg n := by
  intro n h
  cases h
theorem witness_ReservedEncodingsAreRefused :
    start.busPort = none ∧ ({ start with prog := [0x18] } : State).prog = 0x18 :: [] ∧ (0x18 ≤ (0x18 : Byte).toNat) ∧
      (7 ≤ (0x07 : Byte).toNat ∧ (0x0F : Byte).toNat ≤ 0x0F) ∧ (0x00 : Byte).toNat = 0 ∧
      start.busSel = false ∧ 2 ≤ (2 : Byte).toNat ∧ opened.busSel = true ∧ 5 ≤ (5 : Byte).toNat := by decide
theorem witness_CutDescriptorsAreRefused :
    (Instr.setPower 1).isOperation = true ∧ (Instr.setPower 1).wf params = true ∧ 0 < 1 ∧ 1 < (encode params (.setPower 1)).length ∧
      ({ start with prog := [0x02] } : State).busPort = none ∧
      ({ start with prog := [0x02] } : State).prog = (encode params (.setPower 1)).take 1 := by decide
theorem witness_StepRunsTheDecodedInstruction :
    start.busPort = none ∧ decode ({ start with prog := [0x16, 0x41] } : State).prog = .ok (.decode 0x41, []) ∧
      ({ start with busPort := some .memWrite } : State).busPort = some .memWrite ∧ decode [0x2C] = .error .reservedOp ∧
      decodeFrame start.params (frameOf [0x2C]) = some .memWrite ∧ start.prog = [] := by decide
theorem witness_RefusedExactlyAsListed :
    refusalReason .endTx start = some .endWithoutBegin ∧ refusalReason .endTx opened = none ∧
      refusalReason (.glyphCol 65 4) start = none ∧ refusalReason (.glyphCol 65 5) start = some .badOperand := by decide
theorem witness_BeginOpensTheBracket : start.busSel = false ∧ opened.busSel = true := by decide
theorem witness_EndClosesTheBracket : opened.busSel = true ∧ start.busSel = false := by decide
theorem witness_WriteSendsItsBytes : opened.busSel = true ∧ start.busSel = false := by decide
theorem witness_InitCompletes : start.busSel = false ∧ opened.busSel = true := by decide
theorem witness_InitSendsTheGoldenSequence : start.busSel = false := by decide
theorem witness_InitLeavesTheBlockAlone : ({ start with dec := .await 0xC3 } : State).busSel = false := by decide
theorem witness_SetPowerCompletes : start.busSel = false ∧ opened.busSel = true ∧ 2 ≤ (2 : Byte).toNat := by decide
theorem witness_SetWindowCompletes :
    opened.busSel = true ∧ (1 : Half) ≠ 0 ∧ (0xFFFF : Half) ≠ 0 ∧ start.busSel = false ∧ ((0 : Half) = 0 ∨ (1 : Half) = 0) := by
  decide
theorem witness_BusCommandsComplete :
    opened.busSel = true ∧ start.busSel = false ∧ opened.params.initCfg[1]? = some { cmd := 0x3A, params := [0x05] } := by decide
theorem witness_BusCommandsComplete_named (sh sl eh el : Byte) :
    ∃ sh' sl' eh' el', Instr.colAddrSet sh sl eh el = .colAddrSet sh' sl' eh' el' ∧ (0x2A : Byte) = 0x2A ∧
      [sh, sl, eh, el] = [sh', sl', eh', el'] := ⟨sh, sl, eh, el, rfl, rfl, rfl⟩
theorem witness_ChunksCutTheStream :
    1 ≤ 1 ∧ (chunksOf 4 [1, 2, 3, 4, 5, 6])[0]? = some [1, 2, 3, 4] ∧ 0 + 1 < (chunksOf 4 [1, 2, 3, 4, 5, 6]).length ∧
      (chunksOf 4 [1, 2, 3, 4, 5, 6])[1]? = some [5, 6] ∧ 1 + 1 = (chunksOf 4 [1, 2, 3, 4, 5, 6]).length := by decide
theorem witness_FillCompletes :
    (declared 4 3 1).params.ok ∧ (declared 4 3 1).busSel = true ∧ (declared 4 3 1).win.isOpen = true ∧ start.params.ok ∧
      start.busSel = false ∧ opened.params.ok ∧ opened.busSel = true ∧ opened.win.isOpen = false := by decide
theorem witness_FillStreamLaw :
    (declared 4 3 1).params.ok ∧ (declared 4 3 1).busSel = true ∧ (declared 4 3 1).win.isOpen = true := by decide
theorem witness_BlitCompletes :
    (declared 8 2 1).params.ok ∧ (declared 8 2 1).busSel = true ∧ (declared 8 2 1).win.isOpen = true ∧
      2 * (declared 8 2 1).win.w * (declared 8 2 1).win.h ≤ [(1 : Byte), 2, 3, 4].length ∧
      [(1 : Byte), 2, 3].length < 2 * (declared 8 2 1).win.w * (declared 8 2 1).win.h ∧
      start.busSel = false ∧ opened.busSel = true ∧ opened.win.isOpen = false := by decide
theorem witness_BlitRoundTrip :
    (declared 8 2 1).params.ok ∧ (declared 8 2 1).busSel = true ∧ (declared 8 2 1).win.isOpen = true ∧
      [(1 : Byte), 2, 3, 4].length = 2 * ((declared 8 2 1).win.w * (declared 8 2 1).win.h) := by decide
theorem witness_TxbufAfterAStream :
    1 ≤ 4 ∧ [(1 : Byte), 2, 3, 4, 5, 6] ≠ [] ∧ 1 < 6 - 4 * ((6 + 4 - 1) / 4 - 1) ∧ 6 - 4 * ((6 + 4 - 1) / 4 - 1) ≤ 3 ∧
      3 < min 4 6 ∧ min 4 6 ≤ 4 := by decide
theorem witness_FillRectCompletes :
    start.params.ok ∧ start.busSel = false ∧ (1 : Half) ≠ 0 ∧ (0xFFFF : Half) ≠ 0 ∧ opened.params.ok ∧ opened.busSel = true ∧
      ((1 : Half) = 0 ∨ (0 : Half) = 0) := by decide
theorem witness_FillRectIsItsExpansion : start.params.ok ∧ start.busSel = false ∧ (3 : Half) ≠ 0 ∧ (2 : Half) ≠ 0 := by decide
theorem witness_BlitImageCompletes :
    start.params.ok ∧ start.busSel = false ∧ (1 : Half) ≠ 0 ∧ 2 * (1 : Half).toNat * (1 : Half).toNat ≤ [(1 : Byte), 2].length ∧
      [(1 : Byte)].length < 2 * (1 : Half).toNat * (1 : Half).toNat ∧ opened.params.ok ∧ opened.busSel = true ∧
      ((0 : Half) = 0 ∨ (1 : Half) = 0) := by decide
theorem witness_BlitImageIsItsExpansion :
    start.params.ok ∧ start.busSel = false ∧ (2 : Half) ≠ 0 ∧ (1 : Half) ≠ 0 ∧
      2 * (2 : Half).toNat * (1 : Half).toNat ≤ [(1 : Byte), 2, 3, 4].length := by decide
theorem witness_GlyphColReadsTheRom : (4 : Byte).toNat ≤ 4 ∧ 4 < (5 : Byte).toNat := by decide
theorem witness_DrawCharCompletes :
    start.params.ok ∧ start.busSel = false ∧ (1 : Half) ≠ 0 ∧ (31 : Byte).toNat < 32 ∧ 32 ≤ (32 : Byte).toNat ∧
      opened.params.ok ∧ opened.busSel = true ∧ (0 : Half) = 0 := by decide
theorem witness_DrawCharCounts :
    start.params.ok ∧ 32 ≤ (33 : Byte).toNat ∧ (0 : Half) ≠ 0xFFFF ∧ (0xFFFF : Half) = 0xFFFF ∧ start.busSel = false ∧
      ((charRects { x := 65536, y := 70000, g := 33, fg := 0, bg := 0, scale := 1 } start).getLast? =
        some { x := 65538, y := 70000, w := 1, h := 1, color := 0 }) ∧
      4 < 5 ∧ 7 < 8 ∧
      (charRects { x := 0, y := 0, g := 32, fg := 0, bg := 0, scale := 1 } { start with glyphRom := runCells 160 [0, 0, 0, 0, 0] }).getLast? = none ∧
      (0xFFFF : Half).toNat = 65535 ∧ (1 : Half) ≠ 0 := by decide
theorem witness_DecodeFollowsTheTable :
    start.dec = .idle ∧ (31 : Byte).toNat < 32 ∧ 32 ≤ (32 : Byte).toNat ∧ (126 : Byte).toNat < 127 ∧ 127 ≤ (127 : Byte).toNat ∧
      ({ start with dec := .await 0xC3 } : State).dec = .await 0xC3 := by decide
theorem witness_DecoderProperties :
    start.dec = .idle ∧ 32 ≤ (126 : Byte).toNat ∧ (126 : Byte).toNat < 127 ∧ (0 : Byte).toNat < 32 ∧ 127 ≤ (0xC3 : Byte).toNat ∧
      start.remapRom.find? (fun e => e.lead == 0xC3 && e.trail == 0xA1) = some { lead := 0xC3, trail := 0xA1, glyph := 0x80 } ∧
      start.remapRom.find? (fun e => e.lead == 0xC3 && e.trail == 0xA2) = none := by decide
theorem witness_DecoderCutsTheText :
    start.dec = .idle ∧ (decodeAll [0x41, 0xC3] start).map (fun r => r.2.dec) = some (.await 0xC3) := by decide
theorem witness_PrintLineCompletes :
    start.params.ok ∧ start.busSel = false ∧ (1 : Half) ≠ 0 ∧ opened.params.ok ∧ opened.busSel = true ∧ (0 : Half) = 0 := by decide
theorem witness_PrintLineLayoutLaw :
    (∀ g ∈ [(65 : Byte), 66], 32 ≤ g.toNat) ∧
      (lineCalls { x := 230, y := 0, fg := 1, bg := 1, scale := 1 } .zero 230 0 [65, 66])[1]? =
        some { x := 0, y := 8, g := 66, fg := 1, bg := 1, scale := 1 } := by decide
theorem witness_DecoderRemembersAcrossCalls :
    start.params.ok ∧ ∃ t u v w, exec (.printLine 0 0 1 1 1 [0xC3]) start = .next t ∧ exec .init t = .next u ∧
      exec (.setPower 0) u = .next v ∧ exec (.printLine 0 0 1 1 1 [0xA2]) v = .next w :=
  ⟨by decide, _, _, _, _, rfl, rfl, rfl, rfl⟩
theorem witness_StepKeepsTheBracketLaw :
    start.params.ok ∧ ({ start with prog := [0x10] } : State).bracketLaw ∧ opened.bracketLaw ∧
      ∃ t, step { start with prog := [0x10] } = .next t := ⟨by decide, by decide, by decide, _, rfl⟩
theorem witness_BracketLawCounts :
    traceSel [.sel true, .wr .cmd [0x2C]] = some true ∧
      [Event.sel true, .wr .cmd [0x2C]] = [.sel true] ++ .wr .cmd [0x2C] :: [] := by decide
theorem witness_PublicOperationsAreBracketed :
    start.params.ok ∧ Instr.init.isPublic = true ∧ start.busSel = false ∧ ∃ t, exec .init start = .next t :=
  ⟨by decide, rfl, rfl, _, rfl⟩
theorem witness_WindowLawKept :
    (declared 4 3 1).params.ok ∧ (declared 4 3 1).windowLaw ∧ (declared 4 3 1).win.isOpen = true ∧
      (∀ dc bs, Instr.fill 0x1234 ≠ .write dc bs) ∧ ∃ t, exec (.fill 0x1234) (declared 4 3 1) = .next t :=
  ⟨by decide, by decide, rfl, fun _ _ h => (by cases h), _, rfl⟩
theorem witness_StepKeepsTheWidths :
    start.params.ok ∧ start.portOk ∧ start.fits ∧ ({ opened with busPort := some .memWrite } : State).portOk ∧
      (∃ t, step { opened with busPort := some .memWrite } = .next t) ∧
      ∃ t, step { start with prog := [0x03, 0, 0, 0, 0, 0, 1, 0, 1, 0, 0] } = .next t :=
  ⟨by decide, fun _ h => (by cases h), by decide, fun _ h => (by cases h; rfl), ⟨_, rfl⟩, _, rfl⟩
theorem witness_StepKeepsTheMemories :
    start.params.ok ∧ start.memoriesWf ∧ ∃ t, step { start with prog := [0x03, 0, 0, 0, 0, 0, 1, 0, 1, 0, 0] } = .next t :=
  ⟨by decide, by decide, _, rfl⟩
theorem witness_StepKeepsTheLeadByte :
    start.params.ok ∧ ({ start with dec := .await 0x7F, prog := [0x10] } : State).leadOk ∧
      ∃ t, step { start with dec := .await 0x7F, prog := [0x10] } = .next t :=
  ⟨by decide, fun l h => (by cases h; decide), _, rfl⟩
theorem witness_StepKeepsThePanelAReplay :
    start.params.ok ∧ ({ start with prog := [0x01] } : State).panelReplays ∧ ∃ t, step { start with prog := [0x01] } = .next t :=
  ⟨by decide, .inr rfl, _, rfl⟩
theorem witness_StepKeepsThePanelAReplay_refused : ({ start with panel := Panel.refused } : State).panelReplays := .inl rfl
theorem witness_TraceOnlyGrows : start.params.ok ∧ ∃ t, step { start with prog := [0x01] } = .next t := ⟨by decide, _, rfl⟩
theorem witness_ConfigurationAndRomsNeverChange : start.params.ok ∧ ∃ t, exec .init start = .next t := ⟨by decide, _, rfl⟩
theorem witness_OnlyDecodeAndPrintLineWriteTheDecoder :
    start.params.ok ∧ (∀ b, Instr.init ≠ .decode b) ∧ (∀ x y fg bg scale text, Instr.init ≠ .printLine x y fg bg scale text) ∧
      ∃ t, exec .init { start with dec := .await 0xC3 } = .next t :=
  ⟨by decide, fun _ h => (by cases h), fun _ _ _ _ _ _ h => (by cases h), _, rfl⟩
theorem witness_OnlyInitDrivesTheResetLine :
    start.params.ok ∧ start.rstl = false ∧ Instr.beginTx ≠ .init ∧ ∃ t, exec .beginTx start = .next t :=
  ⟨by decide, rfl, (fun h => by cases h), _, rfl⟩
theorem witness_OnlyWindowDeclarationsMoveTheWindow :
    (declared 4 3 1).params.ok ∧ (∀ x y w h, Instr.fill 1 ≠ .setWindow x y w h) ∧
      (∀ x y w h c, Instr.fill 1 ≠ .fillRect x y w h c) ∧ (∀ x y w h d, Instr.fill 1 ≠ .blitImage x y w h d) ∧
      (∀ x y g fg bg sc, Instr.fill 1 ≠ .drawChar x y g fg bg sc) ∧
      (∀ x y fg bg sc text, Instr.fill 1 ≠ .printLine x y fg bg sc text) ∧ ∃ t, exec (.fill 1) (declared 4 3 1) = .next t :=
  ⟨by decide, fun _ _ _ _ h => (by cases h), fun _ _ _ _ _ h => (by cases h), fun _ _ _ _ _ h => (by cases h),
    fun _ _ _ _ _ _ h => (by cases h), fun _ _ _ _ _ _ h => (by cases h), _, rfl⟩
theorem witness_MemoryFrame :
    (declared 4 3 1).params.ok ∧ (declared 4 3 1).params.txbufCap ≤ 4 ∧ (∃ t, exec (.fill 1) (declared 4 3 1) = .next t) ∧
      Instr.endTx.isPublic = false ∧ (∀ c, Instr.endTx ≠ .fill c) ∧ (∀ d, Instr.endTx ≠ .blit d) ∧
      (∃ t, exec .endTx (declared 4 3 1) = .next t) ∧ (∃ t, exec .init start = .next t) ∧ ∃ t, exec .beginTx start = .next t :=
  ⟨by decide, by decide, ⟨_, rfl⟩, rfl, fun _ h => (by cases h), fun _ h => (by cases h), ⟨_, rfl⟩, ⟨_, rfl⟩, _, rfl⟩
theorem witness_SequencerFrame :
    start.params.ok ∧ (∀ x y fg bg sc text, Instr.beginTx ≠ .printLine x y fg bg sc text) ∧
      (∀ x y g fg bg sc, Instr.beginTx ≠ .drawChar x y g fg bg sc) ∧ (∀ d, Instr.beginTx ≠ .blit d) ∧
      (∀ x y w h d, Instr.beginTx ≠ .blitImage x y w h d) ∧ (∀ c, Instr.beginTx ≠ .fill c) ∧
      (∀ x y w h c, Instr.beginTx ≠ .fillRect x y w h c) ∧ Instr.beginTx ≠ .init ∧ ∃ t, exec .beginTx start = .next t :=
  ⟨by decide, fun _ _ _ _ _ _ h => (by cases h), fun _ _ _ _ _ _ h => (by cases h), fun _ h => (by cases h),
    fun _ _ _ _ _ h => (by cases h), fun _ h => (by cases h), fun _ _ _ _ _ h => (by cases h), (fun h => by cases h), _, rfl⟩
theorem witness_OnlyInitReadiesThePanel :
    start.params.ok ∧ Instr.setPower 1 ≠ .init ∧ start.panel.phase = .unknown ∧ (∃ t, exec (.setPower 1) start = .next t) ∧
      240 < (240 : Half).toNat + (1 : Half).toNat ∧
      (∃ t, exec (.setWindow 240 0 1 1) opened = .next t) ∧ (∃ t, exec (.fillRect 0 240 1 1 0) start = .next t) ∧
      (∃ t, exec (.blitImage 240 0 1 1 [1, 2]) start = .next t) ∧ Panel.refused.phase = .offPanel ∧
      ∃ t, exec .init { start with panel := Panel.refused } = .next t :=
  ⟨by decide, (fun h => by cases h), rfl, ⟨_, rfl⟩, by decide, ⟨_, rfl⟩, ⟨_, rfl⟩, ⟨_, rfl⟩, rfl, _, rfl⟩
/-- G10: the one cell of glyph 33 at (240, 254). -/
theorem witness_OnlyInitReadiesThePanel_char :
    (charRects { x := 238, y := 254, g := 33, fg := 1, bg := 1, scale := 1 } start).any
        (fun r => decide (240 < r.x + r.w ∨ 240 < r.y + r.h)) = true ∧
      (∃ t, exec (.drawChar 238 254 33 1 1 1) start = .next t) ∧
      (lineCalls { x := 238, y := 240, fg := 1, bg := 1, scale := 1 } start.params.wrapXMode 238 240
          (glyphsFrom (fun l c => remapLookup l c start) start.dec [0x21])).any
        (fun a => (charRects a start).any (fun r => decide (240 < r.x + r.w ∨ 240 < r.y + r.h))) = true ∧
      ∃ t, exec (.printLine 238 240 1 1 1 [0x21]) start = .next t :=
  ⟨by decide, ⟨_, rfl⟩, by decide, _, rfl⟩
theorem witness_OnlyInitReadiesThePanel_memWrite :
    (awaiting 0 239 0 240).panel.phase = .ready ∧ (∀ got, (awaiting 0 239 0 240).panel.mode ≠ .colParams got) ∧
      (∀ got, (awaiting 0 239 0 240).panel.mode ≠ .rowParams got) ∧ (awaiting 0 239 0 240).panel.cols.declared = true ∧
      (awaiting 0 239 0 240).panel.rows.declared = true ∧ 240 ≤ (awaiting 0 239 0 240).panel.rows.last.toNat ∧
      240 ≤ (awaiting 0 240 0 239).panel.cols.last.toNat ∧
      (awaiting 1 0 0 0).panel.cols.last.toNat < (awaiting 1 0 0 0).panel.cols.first.toNat ∧
      (awaiting 0 0 1 0).panel.rows.last.toNat < (awaiting 0 0 1 0).panel.rows.first.toNat ∧
      (∃ t, exec .memWrite (awaiting 0 239 0 240) = .next t) ∧ ∃ t, exec (.write 0 [0x2C]) (awaiting 0 239 0 240) = .next t :=
  ⟨rfl, fun _ h => (by cases h), fun _ h => (by cases h), rfl, rfl, by decide, by decide, by decide, by decide, ⟨_, rfl⟩, _, rfl⟩
theorem witness_InitReadiesThePanel : start.busSel = false ∧ start.panel.phase ≠ .offPanel := by decide
theorem witness_SetPowerSwitchesThePanel :
    ready.params.ok ∧ ready.params.distinctCmds ∧ ready.busSel = false ∧ ready.panel.phase = .ready ∧ ready.panel.mode = .idle ∧
      ready.params.frameKept = true ∧ (awaiting 0 0 0 0).params.ok ∧ (awaiting 0 0 0 0).params.distinctCmds ∧
      (awaiting 0 0 0 0).busSel = true ∧ (awaiting 0 0 0 0).panel.phase = .ready ∧ (awaiting 0 0 0 0).panel.mode = .idle := by
  decide
theorem witness_AddressCommandsDeclare :
    ({ ready with busSel := true } : State).busSel = true ∧ ready.panel.phase = .ready ∧ ready.panel.mode = .idle ∧
      ready.params.initCfg[1]? = some { cmd := 0x3A, params := [0x05] } ∧
      (0x3A : Byte) ∉ [0x2A, 0x2B, 0x2C, ready.params.cmdSleepIn, ready.params.cmdSleepOut, ready.params.cmdDisplayOn,
        ready.params.cmdDisplayOff] := by decide
theorem witness_AddressCommandsDeclare_memWrite :
    (awaiting 0 239 239 239).busSel = true ∧ (awaiting 0 239 239 239).panel.phase = .ready ∧
      (awaiting 0 239 239 239).panel.mode = .idle ∧ (awaiting 0 239 239 239).panel.cols.declared = true ∧
      (awaiting 0 239 239 239).panel.rows.declared = true ∧
      (awaiting 0 239 239 239).panel.cols.first.toNat ≤ (awaiting 0 239 239 239).panel.cols.last.toNat ∧
      (awaiting 0 239 239 239).panel.cols.last.toNat < 240 ∧
      (awaiting 0 239 239 239).panel.rows.first.toNat ≤ (awaiting 0 239 239 239).panel.rows.last.toNat ∧
      (awaiting 0 239 239 239).panel.rows.last.toNat < 240 := by decide
theorem witness_FillRectPaintsItsRectangle :
    ready.params.ok ∧ ready.busSel = false ∧ ready.panel.accepts ∧
      onPanel (0 : Half).toNat (0 : Half).toNat (240 : Half).toNat (240 : Half).toNat = true ∧
      onPanel (239 : Half).toNat (239 : Half).toNat (1 : Half).toNat (1 : Half).toNat = true := by decide
theorem witness_BlitImageLandsItsPixels :
    ready.params.ok ∧ ready.busSel = false ∧ ready.panel.accepts ∧
      onPanel (238 : Half).toNat (239 : Half).toNat (2 : Half).toNat (1 : Half).toNat = true ∧
      2 * (2 : Half).toNat * (1 : Half).toNat ≤ [(1 : Byte), 2, 3, 4].length ∧ 1 < (2 : Half).toNat * (1 : Half).toNat ∧
      [(1 : Byte), 2, 3, 4][2 * 1]? = some 3 ∧ [(1 : Byte), 2, 3, 4][2 * 1 + 1]? = some 4 := by decide
/-- Opaque with background 0 and foreground 1 at column 234; transparent with 1 and 1 at column 235, where the spacing column would
leave the panel. -/
theorem witness_DrawCharCoversItsCell :
    ready.params.ok ∧ ready.busSel = false ∧ ready.panel.accepts ∧ 32 ≤ (33 : Byte).toNat ∧ (1 : Half) ≠ 0 ∧
      ready.params.glyphBit0IsTop = true ∧ (0 : Half) ≠ 1 ∧ (234 : Half).toNat + 6 * (1 : Half).toNat ≤ 240 ∧
      ¬ (235 : Half).toNat + 6 * (1 : Half).toNat ≤ 240 := by decide
theorem witness_DrawCharCoversItsCell_cells (c r : Nat) (hc : c < 5) (hr : r < 8) :
    ((234 : Half).toNat + (c + 1) * (1 : Half).toNat ≤ 240 ∧ (232 : Half).toNat + (r + 1) * (1 : Half).toNat ≤ 240) ∧
      (235 : Half).toNat + (c + 1) * (1 : Half).toNat ≤ 240 := by
  rw [show (234 : Half).toNat = 234 from rfl, show (235 : Half).toNat = 235 from rfl, show (232 : Half).toNat = 232 from rfl,
    show (1 : Half).toNat = 1 from rfl]
  omega
/-- The set bit of glyph 33 is in the cell (2, 0): a set pixel, an unset one and one outside the cell. -/
theorem witness_DrawCharCoversItsCell_bits :
    236 < 234 + 5 ∧ (ready.glyphRom.byte .glyphRom (5 * 33 + (236 - 234) / 1)).getLsbD ((232 - 232) / 1) = true ∧
      (ready.glyphRom.byte .glyphRom (5 * 33 + (236 - 234) / 1)).getLsbD ((239 - 232) / 1) = false ∧
      ¬ (234 ≤ 0 ∧ 0 < 240 ∧ 232 ≤ 0 ∧ 0 < 240) := by decide

end Sys2Proof.Tests
end

section
/-! What every completed instruction does to the trace and to the controller, and the replay every step keeps (rules R11, R31,
R33). -/

namespace Sys2Proof.Machine

/-- From `s` to `t` the trace grows by `es`, and the controller has reacted to `es` or is marked refused (log entries 11, 13). -/
def Emits (es : List Event) (s t : State) : Prop :=
  t.params = s.params ∧ t.trace = s.trace ++ es ∧
    (t.panel = Panel.refused ∨ t.panel = es.foldl (Panel.observe s.params) s.panel)

/-- Registers other than the parameters, the trace and the controller have no part in it. -/
theorem Emits.congr {es : List Event} {s t u : State} (h : Emits es s u) (hparams : t.params = u.params)
    (htrace : t.trace = u.trace) (hpanel : t.panel = u.panel) : Emits es s t := by
  rw [Emits, hparams, htrace, hpanel]
  exact h

theorem emits_nil (s : State) : Emits [] s s := ⟨rfl, (List.append_nil _).symm, .inr rfl⟩

theorem emits_emitAll (es : List Event) (s : State) : Emits es s (emitAll es s) := ⟨rfl, rfl, .inr rfl⟩

/-- Events after the judgement of declared rectangles: once given, the mark stays. -/
theorem emits_judgeRects (es : List Event) (rs : List Rect) (s : State) : Emits es s (emitAll es (judgeRects rs s)) := by
  refine ⟨rfl, rfl, ?_⟩
  rw [emitAll_panel, judgeRects_panel, judgeRects_params]
  split
  · exact .inr rfl
  · exact .inl (observeAll_refused s.params es)

/-- Events after the judgement of one declared window. -/
theorem emits_judgeWindow (es : List Event) (x y w h : Nat) (s : State) : Emits es s (emitAll es (judgeWindow x y w h s)) :=
  (emits_judgeRects es [{ x := x, y := y, w := w, h := h, color := 0 }] s).congr rfl rfl
    (by simp only [emitAll_panel, judgeWindow_panel, judgeRects_panel, judgeWindow_params, judgeRects_params, List.all_cons,
      List.all_nil, Bool.and_true])

theorem emits_drawRects (rs : List Rect) (s : State) (hp : s.params.ok) :
    Emits (rs.flatMap (fun r => rectEvents s.params.txbufCap r.x r.y r.w r.h r.color)) s (drawRects rs s) := by
  rw [drawRects_eq rs s hp]
  exact (emits_judgeRects _ rs s).congr rfl rfl rfl

/-- Every instruction that completes appends events, and the controller only consumes them (rules R11, R31). -/
theorem exec_emits (i : Instr) (s t : State) (hp : s.params.ok) (hexec : exec i s = .next t) : ∃ es, Emits es s t := by
  obtain ⟨-, -, rfl⟩ | ⟨on, cs, -, -, -, rfl⟩ | ⟨x, y, w, h, color, -, -, -, -, rfl⟩ | ⟨x, y, w, h, data, -, -, -, -, -, rfl⟩ |
    ⟨x, y, g, fg, bg, scale, c, r, rs, -, -, -, -, -, rfl⟩ | ⟨x, y, fg, bg, scale, text, c, r, rs, -, -, -, -, -, rfl⟩ |
    ⟨-, -, rfl⟩ | ⟨-, -, rfl⟩ | ⟨dc, d, bs, -, -, -, rfl⟩ | ⟨x, y, w, h, -, -, -, -, rfl⟩ | ⟨color, -, -, -, rfl⟩ |
    ⟨data, -, -, -, -, rfl⟩ | ⟨b, -, rfl⟩ | ⟨g, c, -, rfl⟩ | ⟨c, ps, -, -, rfl⟩ := exec_next i s t hp hexec
  · exact ⟨_, (emits_emitAll _ s).congr rfl rfl rfl⟩ -- init
  · exact ⟨_, (emits_emitAll _ s).congr rfl rfl rfl⟩ -- setPower
  · exact ⟨_, (emits_judgeWindow _ _ _ _ _ s).congr rfl rfl rfl⟩ -- fillRect
  · exact ⟨_, (emits_judgeWindow _ _ _ _ _ s).congr rfl rfl rfl⟩ -- blitImage
  · exact ⟨_, (emits_drawRects rs s hp).congr rfl rfl rfl⟩ -- drawChar
  · exact ⟨_, (emits_drawRects rs s hp).congr rfl rfl rfl⟩ -- printLine
  · exact ⟨_, (emits_emitAll _ s).congr rfl rfl rfl⟩ -- beginTx
  · exact ⟨_, (emits_emitAll _ s).congr rfl rfl rfl⟩ -- endTx
  · exact ⟨_, (emits_emitAll _ s).congr rfl rfl rfl⟩ -- write
  · exact ⟨_, (emits_judgeWindow _ _ _ _ _ s).congr rfl rfl rfl⟩ -- setWindow
  · exact ⟨_, (emits_emitAll _ s).congr rfl rfl rfl⟩ -- fill
  · exact ⟨_, (emits_emitAll _ s).congr rfl rfl rfl⟩ -- blit
  · exact ⟨_, (emits_nil s).congr rfl rfl rfl⟩ -- decode
  · exact ⟨_, (emits_nil s).congr rfl rfl rfl⟩ -- glyphCol
  · exact ⟨_, (emits_emitAll _ s).congr rfl rfl rfl⟩ -- bus commands

/-- The fetch takes an instruction off the program or the bus port and touches neither the trace nor the controller, so a step does
to them what its instruction does. -/
theorem step_emits (s t : State) (hp : s.params.ok) (h : step s = .next t) : ∃ es, Emits es s t := by
  obtain rfl | ⟨i, u, hexec, ⟨rest, -, rfl⟩ | ⟨-, rfl⟩⟩ := step_next s t h
  · exact ⟨[], emits_nil t⟩
  · exact exec_emits i { s with prog := rest } t hp hexec
  · exact exec_emits i { s with busPort := none } t hp hexec

/-- A replay extended by events is the replay of the extended trace. -/
theorem replay_append (q : Params) (t es : List Event) :
    Panel.replay q (t ++ es) = es.foldl (Panel.observe q) (Panel.replay q t) := List.foldl_append

theorem Emits.panelReplays {es : List Event} {s t : State} (h : Emits es s t) (hs : s.panelReplays) : t.panelReplays := by
  obtain ⟨hparams, htrace, hmarked | hreacts⟩ := h
  · exact .inl hmarked
  · obtain hmark | hreplay := hs
    · exact .inl (by rw [hreacts, hmark, observeAll_refused])
    · exact .inr (by rw [hreacts, hreplay, hparams, htrace, replay_append])

/-- Settles O46: every step is an `Emits`, and events keep the controller the replay of the trace, or marked. -/
theorem stepKeepsThePanelAReplay : Obligations.StepKeepsThePanelAReplay := by
  intro s t hp hs hstep
  obtain ⟨es, hes⟩ := step_emits s t hp hstep
  exact hes.panelReplays hs

end Sys2Proof.Machine
end

section
/-! What the decoder delivers is well formed, and every register stays within its width (rules R20, R28, R96, R180, R216). -/

namespace Sys2Proof

/-- A descriptor that was read is a well-formed operation (rules R94 to R96). -/
theorem decode_ok_wf (p : Params) (bs rest : List Byte) (i : Instr) (h : decode bs = .ok (i, rest)) :
    i.isOperation = true ∧ i.wf p = true := by
  have field : ∀ {j : Instr} {r : List Byte}, (.ok (j, r) : Except DecodeError (Instr × List Byte)) = .ok (i, rest) →
      (j.isOperation && j.wf p) = true → i.isOperation = true ∧ i.wf p = true := by
    intro j r hr hj
    cases hr
    exact Bool.and_eq_true_iff.1 hj
  have payload : ∀ {f : List Byte → Instr} {n : Nat} {r : List Byte}, takePayload f n r = .ok (i, rest) →
      (∀ data, data.length = n → (f data).isOperation = true ∧ (f data).wf p = true) →
      i.isOperation = true ∧ i.wf p = true := by
    intro f n r hr hf
    obtain ⟨data, hlen, -, rfl⟩ := (takePayload_ok f n r rest i).1 hr
    exact hf data hlen
  cases bs with
  | nil => cases h
  | cons op bs =>
    simp only [decode] at h
    unfold decodeFields at h
    split at h
    · exact field h rfl -- init
    · split at h -- setPower
      · exact field h rfl
      · cases h
    · split at h -- fillRect
      · exact field h rfl
      · cases h
    · split at h -- blitImage
      · exact payload h (fun data hlen => ⟨rfl, by simpa [Instr.wf, hlen] using be32_lt _ _ _ _⟩)
      · cases h
    · split at h -- drawChar
      · exact field h rfl
      · cases h
    · split at h -- printLine
      · exact payload h (fun data hlen => ⟨rfl, by simpa [Instr.wf, hlen] using (be16 _ _).isLt⟩)
      · cases h
    · exact field h rfl -- beginTx
    · exact field h rfl -- endTx
    · split at h -- write
      · exact payload h (fun data hlen => ⟨rfl, by simpa [Instr.wf, hlen] using (be16 _ _).isLt⟩)
      · cases h
    · split at h -- setWindow
      · exact field h rfl
      · cases h
    · split at h -- fill
      · exact field h rfl
      · cases h
    · split at h -- blit
      · exact payload h (fun data hlen => ⟨rfl, by simpa [Instr.wf, hlen] using be32_lt _ _ _ _⟩)
      · cases h
    · split at h -- decode
      · exact field h rfl
      · cases h
    · split at h -- glyphCol
      · exact field h rfl
      · cases h
    · cases h -- reserved

end Sys2Proof

namespace Sys2Proof.Machine

/-- The fields of a window within their widths, and so the number of its bytes (rule R20). -/
def WindowFits (x y w h : Nat) : Prop :=
  x < 2 ^ 40 ∧ y < 2 ^ 40 ∧ w < 2 ^ 40 ∧ h < 2 ^ 40 ∧ streamBytes w h < 2 ^ 37

/-- The byte count of a window grows with its size. -/
theorem streamBytes_le {w h w' h' : Nat} (hw : w ≤ w') (hh : h ≤ h') : streamBytes w h ≤ streamBytes w' h' :=
  Nat.mul_le_mul (Nat.mul_le_mul_left _ hw) hh

/-- The window of 16-bit operands. -/
theorem windowFits_half (x y w h : Half) : WindowFits x.toNat y.toNat w.toNat h.toNat := by
  have := x.isLt
  have := y.isLt
  have hw : w.toNat ≤ 65535 := by omega
  have hh : h.toNat ≤ 65535 := by omega
  have hb : streamBytes 65535 65535 < 2 ^ 37 := by decide
  have := streamBytes_le hw hh
  refine ⟨?_, ?_, ?_, ?_, ?_⟩ <;> omega

/-- The rectangles of a character at an exact natural corner (rules R178, R180). -/
theorem windowFits_charRects (a : CharArgs) (s : State) (hscale : a.scale < 2 ^ 16) (hx : a.x < 2 ^ 39) (hy : a.y < 2 ^ 39) :
    ∀ r ∈ charRects a s, WindowFits r.x r.y r.w r.h := by
  intro r hr
  obtain ⟨hrx, hry, hw, hh⟩ := charRects_bounds a s r hr
  have hb : streamBytes 65535 (8 * 65535) < 2 ^ 37 := by decide
  have := streamBytes_le (show r.w ≤ 65535 by omega) (show r.h ≤ 8 * 65535 by omega)
  refine ⟨?_, ?_, ?_, ?_, ?_⟩ <;> omega

/-- The rectangles of DRAWCHAR with 16-bit operands. -/
theorem windowFits_drawChar (x y : Half) (g : Byte) (fg bg scale : Half) (s : State) :
    ∀ r ∈ charRects { x := x.toNat, y := y.toNat, g := g, fg := fg, bg := bg, scale := scale.toNat } s,
      WindowFits r.x r.y r.w r.h := by
  have := x.isLt
  have := y.isLt
  exact windowFits_charRects _ s scale.isLt (by simp only; omega) (by simp only; omega)

/-! ## The cursor of PRINTLINE -/

theorem restartX_le (x : Nat) (mode : WrapMode) : restartX x mode ≤ x := by
  cases mode
  · exact Nat.zero_le x
  · exact Nat.le_refl x

/-- Each glyph moves the cursor right by at most its advance and down by at most one line (rule R212): a bound on every DRAWCHAR
call of PRINTLINE and on the cursor it leaves. -/
theorem lineCursor_bounds (a : LineArgs) (mode : WrapMode) (gs : List Byte) (X x y : Nat) (ha : a.x ≤ X) (hx : x ≤ X) :
    (∀ c ∈ lineCalls a mode x y gs, c.scale = a.scale ∧ c.x ≤ X + 6 * (a.scale * gs.length) ∧
      c.y ≤ y + 8 * (a.scale * gs.length)) ∧
    (lineEnd a mode x y gs).1 ≤ X + 6 * (a.scale * gs.length) ∧ (lineEnd a mode x y gs).2 ≤ y + 8 * (a.scale * gs.length) := by
  induction gs generalizing X x y with
  | nil => simp [lineCalls, lineEnd, hx]
  | cons g gs ih =>
    have hrestart := restartX_le a.x mode
    simp only [lineCalls, lineEnd, List.length_cons, Nat.mul_succ]
    generalize hx' : (if 234 ≤ x then restartX a.x mode else x) = x'
    generalize hy' : (if 234 ≤ x then y + 8 * a.scale else y) = y'
    generalize hn : (if g.toNat < 32 then x' else x' + 6 * a.scale) = next
    have hbx : x' ≤ X := by rw [← hx']; split <;> omega
    have hby : y' ≤ y + 8 * a.scale := by rw [← hy']; split <;> omega
    have hbn : next ≤ X + 6 * a.scale := by rw [← hn]; split <;> omega
    obtain ⟨hcalls, hendX, hendY⟩ := ih (X + 6 * a.scale) next y' (by omega) hbn
    refine ⟨fun c hc => ?_, by omega, by omega⟩
    obtain rfl | hc := List.mem_cons.1 hc
    · exact ⟨rfl, by simp only; omega, by simp only; omega⟩
    · obtain ⟨h1, h2, h3⟩ := hcalls c hc
      exact ⟨h1, by omega, by omega⟩

/-- The rectangles of PRINTLINE with 16-bit operands and a text of 16-bit length, and the cursor it leaves. -/
theorem printLine_bounds (x y fg bg scale : Half) (text : List Byte) (s : State) (htext : text.length < 2 ^ 16) :
    let a : LineArgs := { x := x.toNat, y := y.toNat, fg := fg, bg := bg, scale := scale.toNat }
    let gs := glyphsFrom (fun l t => remapLookup l t s) s.dec text
    (∀ r ∈ (lineCalls a s.params.wrapXMode x.toNat y.toNat gs).flatMap (fun c => charRects c s), WindowFits r.x r.y r.w r.h) ∧
      (lineEnd a s.params.wrapXMode x.toNat y.toNat gs).1 < 2 ^ 40 ∧
      (lineEnd a s.params.wrapXMode x.toNat y.toNat gs).2 < 2 ^ 40 := by
  intro a gs
  have hx := x.isLt
  have hy := y.isLt
  have hscale : a.scale < 2 ^ 16 := scale.isLt
  have hglyphs : gs.length ≤ text.length := glyphsFrom_length _ _ _
  have hadvance : a.scale * gs.length ≤ 2 ^ 16 * 2 ^ 16 := Nat.mul_le_mul (by omega) (by omega)
  obtain ⟨hcalls, hendX, hendY⟩ :=
    lineCursor_bounds a s.params.wrapXMode gs x.toNat x.toNat y.toNat (Nat.le_refl _) (Nat.le_refl _)
  refine ⟨fun r hr => ?_, by omega, by omega⟩
  obtain ⟨c, hc, hr⟩ := List.mem_flatMap.1 hr
  obtain ⟨hcs, hcx, hcy⟩ := hcalls c hc
  exact windowFits_charRects c s (by omega) (by omega) (by omega) r hr

/-! ## Instructions and steps -/

theorem drawRects_fits (rs : List Rect) (s : State) (hp : s.params.ok) (hrs : ∀ r ∈ rs, WindowFits r.x r.y r.w r.h)
    (hs : s.fits) : (drawRects rs s).fits := by
  induction rs generalizing s with
  | nil => exact hs
  | cons r rs ih =>
    obtain ⟨hr, hrs⟩ := List.forall_mem_cons.1 hrs
    obtain ⟨hx, hy, hw, hh, hbytes⟩ := hr
    obtain ⟨-, -, -, -, -, -, hoff, hcol, hrow, hcurX, hcurY, hpos, hidx⟩ := hs
    rw [drawRects_cons]
    refine ih _ (by rw [fillRectOp_params _ _ _ _ _ _ hp]; exact hp) hrs ?_
    rw [fillRectOp_eq _ _ _ _ _ _ hp]
    exact ⟨hx, hy, hw, hh, hbytes, by simp only; omega, hoff, hcol, hrow, hcurX, hcurY, hpos, hidx⟩

/-- Every instruction that completes keeps the widths; a text of PRINTLINE has a 16-bit length (rules R94, R216). -/
theorem exec_fits (i : Instr) (s t : State) (hp : s.params.ok) (hs : s.fits)
    (htext : ∀ x y fg bg scale text, i = .printLine x y fg bg scale text → text.length < 2 ^ 16) (hexec : exec i s = .next t) :
    t.fits := by
  have ⟨hx, hy, hw, hh, hbytes, hrem, hoff, hcol, hrow, hcurX, hcurY, hpos, hidx⟩ := hs
  obtain ⟨-, -, rfl⟩ | ⟨on, cs, -, -, -, rfl⟩ | ⟨x, y, w, h, color, -, -, -, -, rfl⟩ | ⟨x, y, w, h, data, -, -, -, -, -, rfl⟩ |
    ⟨x, y, g, fg, bg, scale, c, r, rs, -, -, -, hcr, rfl, rfl⟩ |
    ⟨x, y, fg, bg, scale, text, c, r, rs, rfl, -, -, hcr, rfl, rfl⟩ |
    ⟨-, -, rfl⟩ | ⟨-, -, rfl⟩ | ⟨dc, d, bs, -, -, -, rfl⟩ | ⟨x, y, w, h, -, -, -, -, rfl⟩ | ⟨color, -, -, -, rfl⟩ |
    ⟨data, -, -, -, -, rfl⟩ | ⟨b, -, rfl⟩ | ⟨g, c, -, rfl⟩ | ⟨c, ps, -, -, rfl⟩ := exec_next i s t hp hexec
  · exact ⟨hx, hy, hw, hh, hbytes, hrem, hoff, hcol, hrow, hcurX, hcurY, hpos,
      by simp only [emitAll_params]; split <;> omega⟩ -- init
  · exact hs -- setPower
  · obtain ⟨wx, wy, ww, wh, wbytes⟩ := windowFits_half x y w h -- fillRect
    exact ⟨wx, wy, ww, wh, wbytes, Nat.two_pow_pos 40, hoff, hcol, hrow, hcurX, hcurY, hpos, hidx⟩
  · obtain ⟨wx, wy, ww, wh, wbytes⟩ := windowFits_half x y w h -- blitImage
    exact ⟨wx, wy, ww, wh, wbytes, Nat.two_pow_pos 40, by simp only; omega, hcol, hrow, hcurX, hcurY, hpos, hidx⟩
  · obtain ⟨wx, wy, ww, wh, wbytes, wrem, woff, -, -, wcurX, wcurY, wpos, widx⟩ := -- drawChar
      drawRects_fits _ s hp (windowFits_drawChar x y g fg bg scale s) hs
    exact ⟨wx, wy, ww, wh, wbytes, wrem, woff, by simp only; omega, by simp only; omega, wcurX, wcurY, wpos, widx⟩
  · have hlen := htext _ _ _ _ _ _ rfl -- printLine
    obtain ⟨hrects, hendX, hendY⟩ := printLine_bounds x y fg bg scale text s hlen
    obtain ⟨wx, wy, ww, wh, wbytes, wrem, woff, -, -, -, -, -, widx⟩ := drawRects_fits _ s hp hrects hs
    exact ⟨wx, wy, ww, wh, wbytes, wrem, woff, by simp only; omega, by simp only; omega, hendX, hendY,
      by simp only; split <;> omega, widx⟩
  · exact hs -- beginTx
  · exact hs -- endTx
  · exact hs -- write
  · obtain ⟨wx, wy, ww, wh, wbytes⟩ := windowFits_half x y w h -- setWindow
    exact ⟨wx, wy, ww, wh, wbytes, hrem, hoff, hcol, hrow, hcurX, hcurY, hpos, hidx⟩
  · exact ⟨hx, hy, hw, hh, hbytes, Nat.two_pow_pos 40, hoff, hcol, hrow, hcurX, hcurY, hpos, hidx⟩ -- fill
  · exact ⟨hx, hy, hw, hh, hbytes, Nat.two_pow_pos 40, by simp only; omega, hcol, hrow, hcurX, hcurY, hpos, hidx⟩ -- blit
  · exact hs -- decode
  · exact hs -- glyphCol
  · exact hs -- bus commands

/-- No instruction writes the parameters, a ROM, the program or the bus port (rules R26, R27, R35). -/
theorem exec_frame (i : Instr) (s t : State) (hp : s.params.ok) (hexec : exec i s = .next t) :
    t.params = s.params ∧ t.glyphRom = s.glyphRom ∧ t.remapRom = s.remapRom ∧ t.prog = s.prog ∧ t.busPort = s.busPort := by
  obtain ⟨-, -, rfl⟩ | ⟨on, cs, -, -, -, rfl⟩ | ⟨x, y, w, h, color, -, -, -, -, rfl⟩ | ⟨x, y, w, h, data, -, -, -, -, -, rfl⟩ |
    ⟨x, y, g, fg, bg, scale, c, r, rs, -, -, -, -, -, rfl⟩ | ⟨x, y, fg, bg, scale, text, c, r, rs, -, -, -, -, -, rfl⟩ |
    ⟨-, -, rfl⟩ | ⟨-, -, rfl⟩ | ⟨dc, d, bs, -, -, -, rfl⟩ | ⟨x, y, w, h, -, -, -, -, rfl⟩ | ⟨color, -, -, -, rfl⟩ |
    ⟨data, -, -, -, -, rfl⟩ | ⟨b, -, rfl⟩ | ⟨g, c, -, rfl⟩ | ⟨c, ps, -, -, rfl⟩ := exec_next i s t hp hexec
  case inr.inr.inr.inr.inl | inr.inr.inr.inr.inr.inl => -- the drawing operations
    rw [drawRects_eq rs s hp]
    exact ⟨rfl, rfl, rfl, rfl, rfl⟩
  all_goals exact ⟨rfl, rfl, rfl, rfl, rfl⟩

/-- Settles O43: a PRINTLINE that is fetched has a text of 16-bit length, since it comes from the decoder and not from the bus port;
from there every instruction keeps the widths and leaves the port alone. -/
theorem stepKeepsTheWidths : Obligations.StepKeepsTheWidths := by
  intro s t hp hport hs hstep
  obtain rfl | ⟨i, u, hexec, hfetch⟩ := step_next s t hstep
  · exact ⟨hs, hport⟩
  have hfetched : u.params.ok ∧ u.fits ∧ u.portOk ∧
      ∀ x y fg bg scale text, i = .printLine x y fg bg scale text → text.length < 2 ^ 16 := by
    obtain ⟨rest, hdecode, rfl⟩ | ⟨hi, rfl⟩ := hfetch
    · refine ⟨hp, hs, hport, ?_⟩
      rintro x y fg bg scale text rfl
      obtain ⟨-, hwf⟩ := decode_ok_wf s.params s.prog rest _ hdecode
      exact of_decide_eq_true hwf
    · refine ⟨hp, hs, fun j hj => (by cases hj), ?_⟩
      rintro x y fg bg scale text rfl
      cases hport _ hi
  obtain ⟨hpu, hfits, hok, htext⟩ := hfetched
  obtain ⟨-, -, -, -, hbus⟩ := exec_frame i u t hpu hexec
  exact ⟨exec_fits i u t hpu hfits htext hexec, by rw [State.portOk, hbus]; exact hok⟩

end Sys2Proof.Machine
end

section
/-! What a step fetches, what reset leaves, and which instruction writes which register: the frame of the parameters, the ROMs, the
decoder, the window, the reset line and the sequencer registers (rules R21, R22, R25 to R28, R31, R34, R220). -/

namespace Sys2Proof.Machine

/-! ## Fetching -/

theorem decode_nil : decode [] = .error .truncated := rfl

/-- A bus command at the port goes first (log entry 2). -/
theorem step_of_busPort (s : State) (i : Instr) (h : s.busPort = some i) : step s = exec i { s with busPort := none } := by
  simp only [step, fetch, h]

theorem step_of_exhausted (s : State) (hport : s.busPort = none) (hprog : s.prog = []) : step s = .next s := by
  simp only [step, fetch, fetchProgram, hport, hprog, if_true]

/-- The descriptor at the head of the program, when the port is empty (rules R93, R220). -/
theorem step_of_decode (s : State) (i : Instr) (rest : List Byte) (hport : s.busPort = none)
    (hdecode : decode s.prog = .ok (i, rest)) : step s = exec i { s with prog := rest } := by
  have hprog : s.prog ≠ [] := by
    intro h
    rw [h, decode_nil] at hdecode
    cases hdecode
  simp only [step, fetch, fetchProgram, hport, hdecode, if_neg hprog]

/-- The frame of a bus command is placed at the port (log entry 2). -/
theorem placeInstr_of_frame (s : State) (i : Instr) (bytes : List Byte) (hdecode : decode bytes = .error .reservedOp)
    (hframe : decodeFrame s.params (frameOf bytes) = some i) : placeInstr bytes s = { s with busPort := some i } := by
  simp only [placeInstr, hdecode, hframe]

/-- Settles O7, one lemma for each place an instruction can come from. -/
theorem stepRunsTheDecodedInstruction : Obligations.StepRunsTheDecodedInstruction := by
  refine ⟨step_of_decode, step_of_busPort, ?_, step_of_exhausted⟩
  intro s i bytes hdecode hframe
  rw [placeInstr_of_frame s i bytes hdecode hframe, step_of_busPort _ i rfl]

/-! ## Reset -/

/-- Settles O37: the glyph ROM lists no cell at reset, so every address of it reads as the parameter `GLYPH`. -/
theorem resetLeaves : Obligations.ResetLeaves :=
  ⟨rfl, rfl, rfl, rfl, rfl, rfl, fun _ _ _ _ => rfl, rfl⟩

/-- The OPEN parameters meet the constraint column of rule R6, whichever order SETPOWER sends its commands in. -/
theorem config_params_ok : Config.params.ok :=
  ⟨by decide, by decide, Nat.succ_pos _, Nat.succ_pos _, ite_eq_or_eq _ _ _, ite_eq_or_eq _ _ _⟩

theorem reset_fits : State.reset.fits := by
  have hbytes : streamBytes 0 0 < 2 ^ 37 := by decide
  have h40 := Nat.two_pow_pos 40
  exact ⟨h40, h40, h40, h40, hbytes, h40, h40, Nat.two_pow_pos 3, Nat.two_pow_pos 3, h40, h40, Nat.two_pow_pos 16, Nat.zero_le _⟩

/-- Settles O38: the memories and the trace are empty, the port holds nothing, no window is open and the decoder waits for nothing, so
that what is left are the parameters and the widths. -/
theorem resetMeetsTheInvariants : Obligations.ResetMeetsTheInvariants := by
  refine ⟨config_params_ok, ⟨.nil, .nil, .nil⟩, reset_fits, ?_, rfl, ?_, ?_, .inr rfl⟩
  · intro i hi
    cases hi
  · intro hopen
    cases hopen
  · intro l hl
    cases hl

/-! ## What no instruction takes back or changes -/

/-- Settles O47: a step only appends events. -/
theorem traceOnlyGrows : Obligations.TraceOnlyGrows := by
  intro s t hp hstep
  obtain ⟨es, -, htrace, -⟩ := step_emits s t hp hstep
  exact ⟨es, htrace⟩

/-- Settles O48, by the frame of every instruction. -/
theorem configurationAndRomsNeverChange : Obligations.ConfigurationAndRomsNeverChange := by
  intro i s t hp hexec
  obtain ⟨hparams, hglyph, hremap, -, -⟩ := exec_frame i s t hp hexec
  exact ⟨hparams, hremap, fun a => by rw [hglyph]⟩

/-! ## The registers -/

/-- Which instructions write which register: the decoder (rule R21), the origin and size of the window (rule R22), the reset line and
`IDX` (rules R25, R28), the cursor and `POS`, the cell, `OFF`, `REM` (rule R28). Every other instruction leaves it as it is. -/
theorem exec_registers (i : Instr) (s t : State) (hp : s.params.ok) (hexec : exec i s = .next t) :
    ((∀ b, i ≠ .decode b) → (∀ x y fg bg sc text, i ≠ .printLine x y fg bg sc text) → t.dec = s.dec) ∧
    ((∀ x y w h, i ≠ .setWindow x y w h) → (∀ x y w h c, i ≠ .fillRect x y w h c) →
      (∀ x y w h d, i ≠ .blitImage x y w h d) → (∀ x y g fg bg sc, i ≠ .drawChar x y g fg bg sc) →
      (∀ x y fg bg sc text, i ≠ .printLine x y fg bg sc text) →
      t.win.x = s.win.x ∧ t.win.y = s.win.y ∧ t.win.w = s.win.w ∧ t.win.h = s.win.h) ∧
    (i ≠ .init → t.rstl = s.rstl ∧ t.idx = s.idx) ∧
    ((∀ x y fg bg sc text, i ≠ .printLine x y fg bg sc text) → t.curX = s.curX ∧ t.curY = s.curY ∧ t.pos = s.pos) ∧
    ((∀ x y fg bg sc text, i ≠ .printLine x y fg bg sc text) → (∀ x y g fg bg sc, i ≠ .drawChar x y g fg bg sc) →
      t.col = s.col ∧ t.row = s.row) ∧
    ((∀ d, i ≠ .blit d) → (∀ x y w h d, i ≠ .blitImage x y w h d) → t.off = s.off) ∧
    ((∀ c, i ≠ .fill c) → (∀ d, i ≠ .blit d) → (∀ x y w h c, i ≠ .fillRect x y w h c) →
      (∀ x y w h d, i ≠ .blitImage x y w h d) → (∀ x y g fg bg sc, i ≠ .drawChar x y g fg bg sc) →
      (∀ x y fg bg sc text, i ≠ .printLine x y fg bg sc text) → t.rem = s.rem) := by
  obtain ⟨rfl, -, rfl⟩ | ⟨on, cs, -, -, -, rfl⟩ | ⟨x, y, w, h, color, rfl, -, -, -, rfl⟩ |
    ⟨x, y, w, h, data, rfl, -, -, -, -, rfl⟩ | ⟨x, y, g, fg, bg, scale, c, r, rs, rfl, -, -, -, -, rfl⟩ |
    ⟨x, y, fg, bg, scale, text, c, r, rs, rfl, -, -, -, -, rfl⟩ | ⟨-, -, rfl⟩ | ⟨-, -, rfl⟩ | ⟨dc, d, bs, -, -, -, rfl⟩ |
    ⟨x, y, w, h, rfl, -, -, -, rfl⟩ | ⟨color, rfl, -, -, rfl⟩ | ⟨data, rfl, -, -, -, rfl⟩ | ⟨b, rfl, rfl⟩ | ⟨g, c, -, rfl⟩ |
    ⟨c, ps, -, -, rfl⟩ := exec_next i s t hp hexec
  case inr.inr.inr.inr.inl | inr.inr.inr.inr.inr.inl => -- the drawing operations
    rw [drawRects_eq rs s hp]
    simp
  all_goals simp -- a writer of the register is excluded by the premise, any other update keeps the field

/-- Settles O49. -/
theorem onlyDecodeAndPrintLineWriteTheDecoder : Obligations.OnlyDecodeAndPrintLineWriteTheDecoder := by
  intro i s t hp hdecode hprint hexec
  obtain ⟨hdec, -⟩ := exec_registers i s t hp hexec
  exact hdec hdecode hprint

/-- Settles O51. -/
theorem onlyWindowDeclarationsMoveTheWindow : Obligations.OnlyWindowDeclarationsMoveTheWindow := by
  intro i s t hp hexec
  obtain ⟨-, hwin, -⟩ := exec_registers i s t hp hexec
  exact hwin

/-- Settles O53. -/
theorem sequencerFrame : Obligations.SequencerFrame := by
  intro i s t hp hexec
  obtain ⟨-, -, hinit, hcursor, hcell, hoff, hrem⟩ := exec_registers i s t hp hexec
  obtain ⟨-, -, -, hprog, hport⟩ := exec_frame i s t hp hexec
  exact ⟨hcursor, hcell, hoff, hrem, fun hi => (hinit hi).2, hprog, hport⟩

/-! ## The reset line -/

/-- Events of the bus alone: none drives the reset line, and none is a `Wait` (rules R9, R237). -/
def BusOnly (es : List Event) : Prop := ∀ e ∈ es, (∀ b, e ≠ .rst b) ∧ ∀ n, e ≠ .wait n

theorem busOnly_nil : BusOnly [] := List.forall_mem_nil _

theorem busOnly_append {es fs : List Event} (hes : BusOnly es) (hfs : BusOnly fs) : BusOnly (es ++ fs) :=
  List.forall_mem_append.2 ⟨hes, hfs⟩

theorem busOnly_sel (b : Bool) : BusOnly [.sel b] := by simp [BusOnly]

theorem busOnly_wr (dc : DC) (bs : List Byte) : BusOnly [.wr dc bs] := by simp [BusOnly]

/-- A bracket around events of the bus (rule R114). -/
theorem busOnly_bracket {es : List Event} (hes : BusOnly es) : BusOnly (.sel true :: (es ++ [.sel false])) :=
  busOnly_append (busOnly_sel true) (busOnly_append hes (busOnly_sel false))

/-- Bus writes, one for each element of a list. -/
theorem busOnly_writes {α : Type} (dc : DC) (f : α → List Byte) (l : List α) : BusOnly (l.map (fun a => Event.wr dc (f a))) := by
  simp [BusOnly]

theorem busOnly_frame (c : Byte) (ps : List Byte) : BusOnly (frameEvents c ps) := by
  by_cases h : ps = [] <;> simp [BusOnly, frameEvents, h]

theorem busOnly_power (cs : List Byte) : BusOnly (powerEvents cs) := busOnly_bracket (busOnly_writes .cmd (fun c => [c]) cs)

theorem busOnly_window (x y w h : Nat) : BusOnly (windowEvents x y w h) := by simp [BusOnly, windowEvents]

theorem busOnly_stream (cap : Nat) (bs : List Byte) : BusOnly (streamEvents cap bs) := busOnly_writes .dat id _

theorem busOnly_rect (cap x y w h : Nat) (color : Half) : BusOnly (rectEvents cap x y w h color) :=
  busOnly_bracket (busOnly_append (busOnly_window x y w h) (busOnly_stream cap _))

theorem busOnly_image (cap x y w h : Nat) (data : List Byte) : BusOnly (imageEvents cap x y w h data) :=
  busOnly_bracket (busOnly_append (busOnly_window x y w h) (busOnly_stream cap _))

theorem busOnly_rects (cap : Nat) (rs : List Rect) :
    BusOnly (rs.flatMap (fun r => rectEvents cap r.x r.y r.w r.h r.color)) := by
  intro e he
  obtain ⟨r, -, he⟩ := List.mem_flatMap.1 he
  exact busOnly_rect cap r.x r.y r.w r.h r.color e he

/-- Every instruction but INIT appends events of the bus alone (rule R237), and the controller only consumes them. -/
theorem exec_emits_busOnly (i : Instr) (s t : State) (hp : s.params.ok) (hi : i ≠ .init) (hexec : exec i s = .next t) :
    ∃ es, BusOnly es ∧ Emits es s t := by
  obtain ⟨hinit, -, -⟩ | ⟨on, cs, -, -, -, rfl⟩ | ⟨x, y, w, h, color, -, -, -, -, rfl⟩ |
    ⟨x, y, w, h, data, -, -, -, -, -, rfl⟩ | ⟨x, y, g, fg, bg, scale, c, r, rs, -, -, -, -, -, rfl⟩ |
    ⟨x, y, fg, bg, scale, text, c, r, rs, -, -, -, -, -, rfl⟩ | ⟨-, -, rfl⟩ | ⟨-, -, rfl⟩ | ⟨dc, d, bs, -, -, -, rfl⟩ |
    ⟨x, y, w, h, -, -, -, -, rfl⟩ | ⟨color, -, -, -, rfl⟩ | ⟨data, -, -, -, -, rfl⟩ | ⟨b, -, rfl⟩ | ⟨g, c, -, rfl⟩ |
    ⟨c, ps, -, -, rfl⟩ := exec_next i s t hp hexec
  · exact absurd hinit hi
  · exact ⟨_, busOnly_power cs, (emits_emitAll _ s).congr rfl rfl rfl⟩ -- setPower
  · exact ⟨_, busOnly_rect _ _ _ _ _ _, (emits_judgeWindow _ _ _ _ _ s).congr rfl rfl rfl⟩ -- fillRect
  · exact ⟨_, busOnly_image _ _ _ _ _ _, (emits_judgeWindow _ _ _ _ _ s).congr rfl rfl rfl⟩ -- blitImage
  · exact ⟨_, busOnly_rects _ rs, (emits_drawRects rs s hp).congr rfl rfl rfl⟩ -- drawChar
  · exact ⟨_, busOnly_rects _ rs, (emits_drawRects rs s hp).congr rfl rfl rfl⟩ -- printLine
  · exact ⟨_, busOnly_sel true, (emits_emitAll _ s).congr rfl rfl rfl⟩ -- beginTx
  · exact ⟨_, busOnly_sel false, (emits_emitAll _ s).congr rfl rfl rfl⟩ -- endTx
  · refine ⟨_, ?_, (emits_emitAll _ s).congr rfl rfl rfl⟩ -- write
    split
    · exact busOnly_nil
    · exact busOnly_wr d bs
  · exact ⟨_, busOnly_window _ _ _ _, (emits_judgeWindow _ _ _ _ _ s).congr rfl rfl rfl⟩ -- setWindow
  · exact ⟨_, busOnly_stream _ _, (emits_emitAll _ s).congr rfl rfl rfl⟩ -- fill
  · exact ⟨_, busOnly_stream _ _, (emits_emitAll _ s).congr rfl rfl rfl⟩ -- blit
  · exact ⟨_, busOnly_nil, (emits_nil s).congr rfl rfl rfl⟩ -- decode
  · exact ⟨_, busOnly_nil, (emits_nil s).congr rfl rfl rfl⟩ -- glyphCol
  · exact ⟨_, busOnly_frame c ps, (emits_emitAll _ s).congr rfl rfl rfl⟩ -- bus commands

/-- INIT ends its pulse with the reset line released (rule R134). -/
theorem execInit_rstl (s t : State) (h : execInit s = .next t) : t.rstl = false := by
  rw [execInit, initOp_eq] at h
  split at h
  · cases h
  · cases h
    rfl

/-- Settles O50: INIT releases the line again, and no other instruction drives it or emits more than events of the bus. -/
theorem onlyInitDrivesTheResetLine : Obligations.OnlyInitDrivesTheResetLine := by
  intro i s t hp hexec
  by_cases hi : i = .init
  · subst hi
    exact ⟨fun _ => execInit_rstl s t hexec, fun hne => absurd rfl hne⟩
  · obtain ⟨-, -, hinit, -⟩ := exec_registers i s t hp hexec
    obtain ⟨hrstl, -⟩ := hinit hi
    obtain ⟨es, hbus, -, htrace, -⟩ := exec_emits_busOnly i s t hp hi hexec
    exact ⟨fun hreleased => hrstl.trans hreleased, fun _ => ⟨hrstl, es, htrace, hbus⟩⟩

end Sys2Proof.Machine
end

section
/-! What an instruction does with `TXBUF` and the frame memory: the canonical form is kept, nothing at or above the capacity is
written, and only the streaming instructions write at all (rules R50 to R52, R55, R156, R223). -/

namespace Sys2Proof.Machine

/-- The instructions that send a pixel stream through `TXBUF` (rules R152, R154, R157, R158, R178, R212). -/
def streams : Instr → Bool
  | .fillRect .. | .blitImage .. | .drawChar .. | .printLine .. | .fill _ | .blit _ => true
  | _ => false

/-- `TXBUF` takes a list of chunks, none larger than its capacity, and none at all from an instruction that streams nothing
(rules R151, R156). -/
theorem exec_txbuf (i : Instr) (s t : State) (hp : s.params.ok) (hexec : exec i s = .next t) :
    ∃ cs, t.txbuf = loadChunks cs s.txbuf ∧ (∀ c ∈ cs, c.length ≤ s.params.txbufCap) ∧ (streams i = false → cs = []) := by
  have unwritten : s.txbuf = loadChunks [] s.txbuf ∧ (∀ c ∈ ([] : List (List Byte)), c.length ≤ s.params.txbufCap) ∧
      (streams i = false → ([] : List (List Byte)) = []) := ⟨rfl, List.forall_mem_nil _, fun _ => rfl⟩
  have chunks (bs : List Byte) : ∀ c ∈ chunksOf s.params.txbufCap bs, c.length ≤ s.params.txbufCap := cutChunks_le _ _ bs
  have rects (rs : List Rect) : ∃ cs, (drawRects rs s).txbuf = loadChunks cs s.txbuf ∧
      ∀ c ∈ cs, c.length ≤ s.params.txbufCap := by
    rw [drawRects_eq rs s hp]
    refine ⟨_, rfl, fun c hc => ?_⟩
    obtain ⟨r, -, hc⟩ := List.mem_flatMap.1 hc
    exact chunks _ c hc
  obtain ⟨-, -, rfl⟩ | ⟨on, cs, -, -, -, rfl⟩ | ⟨x, y, w, h, color, rfl, -, -, -, rfl⟩ |
    ⟨x, y, w, h, data, rfl, -, -, -, -, rfl⟩ | ⟨x, y, g, fg, bg, scale, c, r, rs, rfl, -, -, -, -, rfl⟩ |
    ⟨x, y, fg, bg, scale, text, c, r, rs, rfl, -, -, -, -, rfl⟩ | ⟨-, -, rfl⟩ | ⟨-, -, rfl⟩ | ⟨dc, d, bs, -, -, -, rfl⟩ |
    ⟨x, y, w, h, -, -, -, -, rfl⟩ | ⟨color, rfl, -, -, rfl⟩ | ⟨data, rfl, -, -, -, rfl⟩ | ⟨b, -, rfl⟩ | ⟨g, c, -, rfl⟩ |
    ⟨c, ps, -, -, rfl⟩ := exec_next i s t hp hexec
  · exact ⟨[], unwritten⟩ -- init
  · exact ⟨[], unwritten⟩ -- setPower
  · exact ⟨_, rfl, chunks _, fun hs => by cases hs⟩ -- fillRect
  · exact ⟨_, rfl, chunks _, fun hs => by cases hs⟩ -- blitImage
  · obtain ⟨cs, htxbuf, hcs⟩ := rects rs -- drawChar
    exact ⟨cs, htxbuf, hcs, fun hs => by cases hs⟩
  · obtain ⟨cs, htxbuf, hcs⟩ := rects rs -- printLine
    exact ⟨cs, htxbuf, hcs, fun hs => by cases hs⟩
  · exact ⟨[], unwritten⟩ -- beginTx
  · exact ⟨[], unwritten⟩ -- endTx
  · exact ⟨[], unwritten⟩ -- write
  · exact ⟨[], unwritten⟩ -- setWindow
  · exact ⟨_, rfl, chunks _, fun hs => by cases hs⟩ -- fill
  · exact ⟨_, rfl, chunks _, fun hs => by cases hs⟩ -- blit
  · exact ⟨[], unwritten⟩ -- decode
  · exact ⟨[], unwritten⟩ -- glyphCol
  · exact ⟨[], unwritten⟩ -- bus commands

/-- An instruction that streams nothing leaves `TXBUF` as it is (rule R156). -/
theorem exec_txbuf_of_not_streams (i : Instr) (s t : State) (hp : s.params.ok) (hi : streams i = false)
    (hexec : exec i s = .next t) : t.txbuf = s.txbuf := by
  obtain ⟨cs, htxbuf, -, hnone⟩ := exec_txbuf i s t hp hexec
  rw [htxbuf, hnone hi]
  rfl

/-- What is neither public nor FILL nor BLIT streams nothing. -/
theorem streams_of_not_public (i : Instr) (hpublic : i.isPublic = false) (hfill : ∀ c, i ≠ .fill c) (hblit : ∀ d, i ≠ .blit d) :
    streams i = false := by
  cases i with
  | fillRect | blitImage | drawChar | printLine => cases hpublic
  | fill c => exact absurd rfl (hfill c)
  | blit d => exact absurd rfl (hblit d)
  | _ => rfl

/-- The controller's reactions, and the mark, keep the frame memory in its canonical form. -/
theorem Emits.frame_wf {es : List Event} {s t : State} (h : Emits es s t) (hs : s.panel.frame.wf) : t.panel.frame.wf := by
  obtain ⟨-, -, hmarked | hreacts⟩ := h
  · rw [hmarked]
    exact List.Pairwise.nil
  · rw [hreacts]
    exact observeAll_wf _ es _ hs

theorem exec_memoriesWf (i : Instr) (s t : State) (hp : s.params.ok) (hs : s.memoriesWf) (hexec : exec i s = .next t) :
    t.memoriesWf := by
  obtain ⟨hrom, htx, hframe⟩ := hs
  obtain ⟨-, hglyph, -⟩ := exec_frame i s t hp hexec
  obtain ⟨cs, htxbuf, -⟩ := exec_txbuf i s t hp hexec
  obtain ⟨es, hes⟩ := exec_emits i s t hp hexec
  exact ⟨by rw [hglyph]; exact hrom, by rw [htxbuf]; exact loadChunks_wf cs _ htx, hes.frame_wf hframe⟩

/-- Settles O44: a ROM is never written, `TXBUF` is written in whole runs, and every reaction of the controller keeps the form; the
fetch touches no memory. -/
theorem stepKeepsTheMemories : Obligations.StepKeepsTheMemories := by
  intro s t hp hs hstep
  obtain rfl | ⟨i, u, hexec, ⟨rest, -, rfl⟩ | ⟨-, rfl⟩⟩ := step_next s t hstep
  · exact hs
  · exact exec_memoriesWf i { s with prog := rest } t hp hs hexec
  · exact exec_memoriesWf i { s with busPort := none } t hp hs hexec

/-- DECODE and GLYPHCOL send nothing, and the controller does not react to the assertion of select (rule R223). -/
theorem exec_panel_of_silent (i : Instr) (s t : State)
    (hi : (∃ b, i = .decode b) ∨ (∃ g c, i = .glyphCol g c) ∨ i = .beginTx) (hexec : exec i s = .next t) :
    t.panel = s.panel := by
  obtain ⟨b, rfl⟩ | ⟨g, c, rfl⟩ | rfl := hi
  · cases hexec
    rfl
  · rw [exec, execGlyphCol] at hexec
    split at hexec <;> cases hexec
    rfl
  · rw [exec, execBeginTx] at hexec
    split at hexec <;> cases hexec
    rfl

/-- Settles O52: chunks within the capacity leave what is above it alone, and without a stream there is no chunk. -/
theorem memoryFrame : Obligations.MemoryFrame := by
  intro i s t hp hexec
  refine ⟨fun a ha => ?_, fun hpublic hfill hblit a => ?_, fun hi a => ?_, fun hi => ?_⟩
  · obtain ⟨cs, htxbuf, hcs, -⟩ := exec_txbuf i s t hp hexec
    rw [htxbuf, loadChunks_read_ge cs _ _ hcs a ha]
  · rw [exec_txbuf_of_not_streams i s t hp (streams_of_not_public i hpublic hfill hblit) hexec]
  · have hstreams : streams i = false := by obtain rfl | ⟨on, rfl⟩ := hi <;> rfl
    rw [exec_txbuf_of_not_streams i s t hp hstreams hexec]
  · have hpanel := exec_panel_of_silent i s t hi hexec
    exact ⟨hpanel, fun px py => by rw [hpanel]⟩

end Sys2Proof.Machine
end

section
/-! The picture FILLRECT, BLITIMAGE and DRAWCHAR leave on a controller that takes pixels (rules R58, R157, R158, R179). -/

namespace Sys2Proof.Machine

/-! ## FILLRECT -/

/-- Whether a pixel lies in a rectangle. -/
def Rect.covers (r : Rect) (px py : Nat) : Prop := r.x ≤ px ∧ px < r.x + r.w ∧ r.y ≤ py ∧ py < r.y + r.h

/-- The content of a pixel that has a colour, high byte first (rule R85). -/
def pixelOf (color : Half) : Byte × Byte := (hi8 color.toNat, lo8 color.toNat)

/-- The number, in the pixel stream of a window, of one of its pixels. -/
theorem pixelIndex_lt {w h i j : Nat} (hi : i < w) (hj : j < h) : w * j + i < w * h :=
  calc w * j + i < w * j + w := by omega
    _ = w * (j + 1) := (Nat.mul_succ w j).symm
    _ ≤ w * h := Nat.mul_le_mul_left w hj

/-- A rectangle on the panel, filled: its pixels get its colour, the others keep theirs, and the controller takes pixels again
(rules R58, R157). -/
theorem fillRectOp_paints (r : Rect) (s : State) (hp : s.params.ok) (hs : s.panel.accepts)
    (hon : onPanel r.x r.y r.w r.h = true) :
    (fillRectOp r.x r.y r.w r.h r.color s).panel.accepts ∧
      (∀ px py, r.covers px py → (fillRectOp r.x r.y r.w r.h r.color s).panel.pixel px py = pixelOf r.color) ∧
      ∀ px py, px < 240 → ¬ r.covers px py →
        (fillRectOp r.x r.y r.w r.h r.color s).panel.pixel px py = s.panel.pixel px py := by
  have hcap : 1 ≤ s.params.txbufCap := Nat.le_of_succ_le hp.2.1
  rw [fillRectOp_eq _ _ _ _ _ _ hp, judgeWindow_of_onPanel _ _ _ _ _ hon]
  obtain ⟨haccepts, hinside, houtside⟩ := observe_rect_pixels s.params s.params.txbufCap r.x r.y r.w r.h hcap hon
    (colorStream (r.w * r.h) r.color) (by rw [colorStream_length, streamBytes_eq]) s.panel _ hs rfl
  refine ⟨haccepts, fun px py hin => ?_, houtside⟩
  have ⟨hx, hxw, hy, hyh⟩ := hin
  obtain ⟨hhi, hlo⟩ := colorStream_getElem (r.w * r.h) r.color (r.w * (py - r.y) + (px - r.x))
    (pixelIndex_lt (by omega) (by omega))
  exact hinside px py hin _ _ hhi hlo

/-- Operands of a window on the panel declare no empty rectangle. -/
theorem not_zeroArea_of_onPanel (x y w h : Half) (hon : onPanel x.toNat y.toNat w.toNat h.toNat = true) : ¬ (w = 0 ∨ h = 0) := by
  obtain ⟨hw, hh, -, -⟩ := (onPanel_iff _ _ _ _).1 hon
  rintro (rfl | rfl)
  · exact absurd hw (by decide)
  · exact absurd hh (by decide)

/-- Settles O58: the operands declare a rectangle on the panel, and FILLRECT paints it. -/
theorem fillRectPaintsItsRectangle : Obligations.FillRectPaintsItsRectangle := by
  intro s x y w h color hp hsel hs hon
  have hexec : exec (.fillRect x y w h color) s = finish .none (fillRectOp x.toNat y.toNat w.toNat h.toNat color s) := by
    rw [exec, execFillRect, hsel, if_neg Bool.false_ne_true, if_neg (not_zeroArea_of_onPanel x y w h hon)]
  obtain ⟨haccepts, hinside, houtside⟩ :=
    fillRectOp_paints { x := x.toNat, y := y.toNat, w := w.toNat, h := h.toNat, color := color } s hp hs hon
  refine ⟨_, hexec, haccepts, fun px py hpx _ => ?_⟩
  split
  case isTrue hin => exact hinside px py hin
  case isFalse hout => exact houtside px py hpx hout

/-! ## BLITIMAGE -/

/-- Settles O59: pixel `k` of the buffer is in row `k div w` of the window at column `k mod w`. -/
theorem blitImageLandsItsPixels : Obligations.BlitImageLandsItsPixels := by
  intro s x y w h data hp hsel hs hon hlen
  obtain ⟨hw, -, -, -⟩ := (onPanel_iff _ _ _ _).1 hon
  have hcap : 1 ≤ s.params.txbufCap := Nat.le_of_succ_le hp.2.1
  have hbytes : streamBytes w.toNat h.toNat ≤ data.length := hlen
  have hexec : exec (.blitImage x y w h data) s =
      finish .none (blitImageOp x.toNat y.toNat w.toNat h.toNat data s) := by
    rw [exec, execBlitImage, hsel, if_neg Bool.false_ne_true, if_neg (not_zeroArea_of_onPanel x y w h hon),
      if_neg (Nat.not_lt.2 hbytes)]
  rw [blitImageOp_eq _ _ _ _ _ _ hp hbytes, judgeWindow_of_onPanel _ _ _ _ _ hon] at hexec
  obtain ⟨haccepts, hinside, houtside⟩ := observe_rect_pixels s.params s.params.txbufCap x.toNat y.toNat w.toNat h.toNat hcap hon
    (data.take (2 * w.toNat * h.toNat)) (List.length_take_of_le hlen) s.panel _ hs rfl
  refine ⟨_, hexec, haccepts, fun k hk hi lo hhi hlo => ?_, fun px py hpx _ hout => houtside px py hpx hout⟩
  have hcol : k % w.toNat < w.toNat := Nat.mod_lt k hw
  have hrow : k / w.toNat < h.toNat := Nat.div_lt_of_lt_mul hk
  have hindex : w.toNat * (y.toNat + k / w.toNat - y.toNat) + (x.toNat + k % w.toNat - x.toNat) = k := by
    rw [Nat.add_sub_cancel_left, Nat.add_sub_cancel_left, Nat.div_add_mod]
  have hlast : 2 * k + 1 < 2 * w.toNat * h.toNat := by
    rw [Nat.mul_assoc]
    omega
  refine hinside _ _ ⟨Nat.le_add_right _ _, Nat.add_lt_add_left hcol _, Nat.le_add_right _ _, Nat.add_lt_add_left hrow _⟩
    hi lo ?_ ?_
  · rw [hindex, List.getElem?_take_of_lt (Nat.lt_of_succ_lt hlast), hhi]
  · rw [hindex, List.getElem?_take_of_lt hlast, hlo]

/-! ## Rectangles filled one after the other -/

/-- Rectangles on the panel, filled one after the other: a pixel that only rectangles of one colour cover gets that colour, and a pixel
that none covers keeps its value. -/
theorem drawRects_paints (rs : List Rect) (s : State) (hp : s.params.ok) (hs : s.panel.accepts)
    (hon : ∀ r ∈ rs, onPanel r.x r.y r.w r.h = true) :
    (drawRects rs s).panel.accepts ∧
      (∀ px py color, px < 240 → (∃ r ∈ rs, r.covers px py) → (∀ r ∈ rs, r.covers px py → r.color = color) →
        (drawRects rs s).panel.pixel px py = pixelOf color) ∧
      ∀ px py, px < 240 → (∀ r ∈ rs, ¬ r.covers px py) → (drawRects rs s).panel.pixel px py = s.panel.pixel px py := by
  induction rs generalizing s with
  | nil => exact ⟨hs, fun _ _ _ _ ⟨_, hr, _⟩ => absurd hr List.not_mem_nil, fun _ _ _ _ => rfl⟩
  | cons r rs ih =>
    obtain ⟨honr, hon⟩ := List.forall_mem_cons.1 hon
    obtain ⟨haccepts, hinside, houtside⟩ := fillRectOp_paints r s hp hs honr
    obtain ⟨ihaccepts, ihcovered, ihkept⟩ := ih (fillRectOp r.x r.y r.w r.h r.color s)
      (by rw [fillRectOp_params _ _ _ _ _ _ hp]; exact hp) haccepts hon
    rw [drawRects_cons]
    refine ⟨ihaccepts, fun px py color hpx hcovered hcolor => ?_, fun px py hpx hkept => ?_⟩
    · obtain ⟨hcolorr, hcolor⟩ := List.forall_mem_cons.1 hcolor
      by_cases hlater : ∃ q ∈ rs, q.covers px py
      · exact ihcovered px py color hpx hlater hcolor
      · have hr : r.covers px py := ((List.exists_mem_cons_iff ..).1 hcovered).resolve_right hlater
        rw [ihkept px py hpx (fun q hq hc => hlater ⟨q, hq, hc⟩), hinside px py hr, hcolorr hr]
    · obtain ⟨hr, hkept⟩ := List.forall_mem_cons.1 hkept
      rw [ihkept px py hpx hkept, houtside px py hpx hr]

/-! ## The squares of a glyph cell: six columns, of which the last is the spacing, and eight rows (rules R178, R179) -/

/-- The square of column `c`, row `r`. -/
def CharArgs.square (a : CharArgs) (c r : Nat) (color : Half) : Rect :=
  { x := a.x + c * a.scale, y := a.y + r * a.scale, w := a.scale, h := a.scale, color := color }

/-- The spacing column. -/
def CharArgs.spacing (a : CharArgs) : Rect :=
  { x := a.x + 5 * a.scale, y := a.y, w := a.scale, h := 8 * a.scale, color := a.bg }

/-- Whether a pixel lies in the glyph cell. -/
def CharArgs.inCell (a : CharArgs) (px py : Nat) : Prop :=
  a.x ≤ px ∧ px < a.x + 6 * a.scale ∧ a.y ≤ py ∧ py < a.y + 8 * a.scale

/-- Whether a pixel of the glyph cell lies in a set bit's square. -/
def CharArgs.inSetBit (a : CharArgs) (s : State) (px py : Nat) : Prop :=
  px < a.x + 5 * a.scale ∧ cellSet a ((px - a.x) / a.scale) ((py - a.y) / a.scale) s = true

theorem mem_cellOrder (c r : Nat) : (c, r) ∈ cellOrder ↔ c < 5 ∧ r < 8 := by simp [cellOrder]

/-- The square of a cell is drawn where the bit is set or the background is opaque, in the colour the bit says. -/
theorem cellRect_eq_some (a : CharArgs) (s : State) (c r : Nat) (q : Rect) :
    cellRect a s (c, r) = some q ↔
      (cellSet a c r s = true ∨ a.bg ≠ a.fg) ∧ q = a.square c r (if cellSet a c r s then a.fg else a.bg) := by
  by_cases hset : cellSet a c r s = true
  · simp [cellRect, hset, CharArgs.square, eq_comm]
  · by_cases hopaque : a.bg = a.fg
    · simp [cellRect, hset, hopaque]
    · simp [cellRect, hset, hopaque, CharArgs.square, eq_comm]

/-- The rectangles of a glyph that is drawn: the squares of its cells, and the spacing column of an opaque one. -/
theorem mem_charRects (a : CharArgs) (s : State) (hg : 32 ≤ a.g.toNat) (q : Rect) :
    q ∈ charRects a s ↔
      (∃ c r, c < 5 ∧ r < 8 ∧ cellRect a s (c, r) = some q) ∨ (a.bg ≠ a.fg ∧ q = a.spacing) := by
  have hcells : q ∈ cellOrder.filterMap (cellRect a s) ↔ ∃ c r, c < 5 ∧ r < 8 ∧ cellRect a s (c, r) = some q := by
    simp only [List.mem_filterMap, Prod.exists, mem_cellOrder, and_assoc]
  rw [charRects, if_neg (Nat.not_lt.2 hg), List.mem_append, hcells]
  by_cases hopaque : a.bg = a.fg
  · simp [hopaque]
  · simp [hopaque, CharArgs.spacing]

/-- Each pixel right of and below the corner lies in one square. -/
theorem square_covers_iff (a : CharArgs) (hscale : 0 < a.scale) (c r : Nat) (color : Half) (px py : Nat) :
    (a.square c r color).covers px py ↔
      a.x ≤ px ∧ a.y ≤ py ∧ (px - a.x) / a.scale = c ∧ (py - a.y) / a.scale = r := by
  rw [Nat.div_eq_iff hscale, Nat.div_eq_iff hscale]
  simp only [Rect.covers, CharArgs.square]
  omega

/-- The glyph cell in terms of the column and the row of the square a pixel lies in. -/
theorem inCell_iff (a : CharArgs) (hscale : 0 < a.scale) (px py : Nat) :
    a.inCell px py ↔ a.x ≤ px ∧ a.y ≤ py ∧ (px - a.x) / a.scale < 6 ∧ (py - a.y) / a.scale < 8 := by
  rw [Nat.div_lt_iff_lt_mul hscale, Nat.div_lt_iff_lt_mul hscale, CharArgs.inCell]
  omega

/-- A rectangle of a glyph lies in the glyph cell and has the foreground colour exactly on the squares of set bits. -/
theorem charRects_color (a : CharArgs) (s : State) (hg : 32 ≤ a.g.toNat) (hscale : 0 < a.scale) (q : Rect)
    (hq : q ∈ charRects a s) (px py : Nat) (hcovers : q.covers px py) :
    a.inCell px py ∧ (a.inSetBit s px py ∧ q.color = a.fg ∨ ¬ a.inSetBit s px py ∧ a.bg ≠ a.fg ∧ q.color = a.bg) := by
  obtain ⟨c, r, hc, hr, hcell⟩ | ⟨hopaque, rfl⟩ := (mem_charRects a s hg q).1 hq
  · obtain ⟨hdrawn, rfl⟩ := (cellRect_eq_some a s c r q).1 hcell
    obtain ⟨hx, hy, hcol, hrow⟩ := (square_covers_iff a hscale c r _ px py).1 hcovers
    have hin : a.inCell px py := (inCell_iff a hscale px py).2 ⟨hx, hy, by omega, by omega⟩
    have hleft : px < a.x + 5 * a.scale := by
      have := (Nat.div_lt_iff_lt_mul hscale).1 (hcol.trans_lt hc)
      omega
    refine ⟨hin, ?_⟩
    by_cases hset : cellSet a c r s = true
    · exact .inl ⟨⟨hleft, by rw [hcol, hrow]; exact hset⟩, if_pos hset⟩
    · exact .inr ⟨fun h => hset (by rw [← hcol, ← hrow]; exact h.2), hdrawn.resolve_left hset, if_neg hset⟩
  · obtain ⟨hx, hxw, hy, hyh⟩ := hcovers
    simp only [CharArgs.spacing] at hx hxw hy hyh
    refine ⟨⟨by omega, by omega, hy, hyh⟩, .inr ⟨fun h => ?_, hopaque, rfl⟩⟩
    exact absurd h.1 (Nat.not_lt.2 hx)

/-- The rectangles of an opaque glyph cover its cell, those of a transparent one the squares of its set bits. -/
theorem charRects_cover (a : CharArgs) (s : State) (hg : 32 ≤ a.g.toNat) (hscale : 0 < a.scale) (px py : Nat)
    (hin : a.inCell px py) (hdrawn : a.inSetBit s px py ∨ a.bg ≠ a.fg) : ∃ q ∈ charRects a s, q.covers px py := by
  obtain ⟨hx, hy, -, hrow⟩ := (inCell_iff a hscale px py).1 hin
  by_cases hleft : px < a.x + 5 * a.scale
  · have hcol : (px - a.x) / a.scale < 5 := (Nat.div_lt_iff_lt_mul hscale).2 (by omega)
    exact ⟨_, (mem_charRects a s hg _).2 (.inl ⟨_, _, hcol, hrow, (cellRect_eq_some a s _ _ _).2 ⟨hdrawn.imp_left And.right, rfl⟩⟩),
      (square_covers_iff a hscale _ _ _ px py).2 ⟨hx, hy, rfl, rfl⟩⟩
  · have hopaque : a.bg ≠ a.fg := hdrawn.resolve_left (fun h => hleft h.1)
    obtain ⟨-, hxw, -, hyh⟩ := hin
    refine ⟨_, (mem_charRects a s hg _).2 (.inr ⟨hopaque, rfl⟩), ?_⟩
    simp only [Rect.covers, CharArgs.spacing]
    omega

/-- Every rectangle of a glyph is on the panel when its drawn cells, and the spacing column of an opaque one, are. -/
theorem charRects_onPanel (a : CharArgs) (s : State) (hg : 32 ≤ a.g.toNat) (hscale : 0 < a.scale)
    (hcells : ∀ c r, c < 5 → r < 8 → a.bg ≠ a.fg ∨ cellSet a c r s = true →
      a.x + (c + 1) * a.scale ≤ 240 ∧ a.y + (r + 1) * a.scale ≤ 240)
    (hspacing : a.bg ≠ a.fg → a.x + 6 * a.scale ≤ 240) : ∀ q ∈ charRects a s, onPanel q.x q.y q.w q.h = true := by
  intro q hq
  rw [onPanel_iff]
  obtain ⟨c, r, hc, hr, hcell⟩ | ⟨hopaque, rfl⟩ := (mem_charRects a s hg q).1 hq
  · obtain ⟨hdrawn, rfl⟩ := (cellRect_eq_some a s c r q).1 hcell
    have ⟨hx, hy⟩ := hcells c r hc hr hdrawn.symm
    rw [Nat.succ_mul] at hx hy
    simp only [CharArgs.square]
    omega
  · have hx := hspacing hopaque
    have ⟨_, hy⟩ := hcells 0 7 (by omega) (by omega) (.inl hopaque)
    simp only [CharArgs.spacing]
    omega

/-! ## DRAWCHAR -/

/-- The bit a cell shows (rules R51, R57, R86). -/
theorem cellSet_eq (a : CharArgs) (c r : Nat) (s : State) :
    cellSet a c r s =
      (s.glyphRom.byte .glyphRom (5 * a.g.toNat + c)).getLsbD (if s.params.glyphBit0IsTop then r else 7 - r) := by
  rw [cellSet, rowBit]
  split <;> rfl

/-- The controller after DRAWCHAR is the one after the rectangles of the glyph. -/
theorem drawCharOp_panel (a : CharArgs) (s : State) (hp : s.params.ok) (hg : 32 ≤ a.g.toNat) :
    (drawCharOp a s).panel = (drawRects (charRects a s) s).panel := by
  rw [drawCharOp_eq a s hp, if_neg (Nat.not_lt.2 hg)]
  rfl

/-- A glyph whose rectangles are on the panel: the squares of its set bits get the foreground colour, the rest of its cell the
background colour, unless it is transparent, and every other pixel keeps its value (rule R179). -/
theorem drawCharOp_paints (a : CharArgs) (s : State) (hp : s.params.ok) (hs : s.panel.accepts) (hg : 32 ≤ a.g.toNat)
    (hscale : 0 < a.scale) (hon : ∀ q ∈ charRects a s, onPanel q.x q.y q.w q.h = true) :
    (drawCharOp a s).panel.accepts ∧ ∀ px py, px < 240 →
      (a.inCell px py → a.inSetBit s px py → (drawCharOp a s).panel.pixel px py = pixelOf a.fg) ∧
      (a.inCell px py → ¬ a.inSetBit s px py → a.bg ≠ a.fg → (drawCharOp a s).panel.pixel px py = pixelOf a.bg) ∧
      (a.inCell px py → ¬ a.inSetBit s px py → a.bg = a.fg → (drawCharOp a s).panel.pixel px py = s.panel.pixel px py) ∧
      (¬ a.inCell px py → (drawCharOp a s).panel.pixel px py = s.panel.pixel px py) := by
  obtain ⟨haccepts, hcovered, hkept⟩ := drawRects_paints (charRects a s) s hp hs hon
  rw [← drawCharOp_panel a s hp hg] at haccepts hcovered hkept
  have color := charRects_color a s hg hscale
  have cover := charRects_cover a s hg hscale
  refine ⟨haccepts, fun px py hpx => ⟨fun hin hset => ?_, fun hin hunset hopaque => ?_, fun hin hunset hclear => ?_, fun hout => ?_⟩⟩
  · refine hcovered px py a.fg hpx (cover px py hin (.inl hset)) (fun q hq hc => ?_)
    obtain ⟨-, ⟨-, hcolor⟩ | ⟨hunset, -⟩⟩ := color q hq px py hc
    · exact hcolor
    · exact absurd hset hunset
  · refine hcovered px py a.bg hpx (cover px py hin (.inr hopaque)) (fun q hq hc => ?_)
    obtain ⟨-, ⟨hset, -⟩ | ⟨-, -, hcolor⟩⟩ := color q hq px py hc
    · exact absurd hset hunset
    · exact hcolor
  · refine hkept px py hpx (fun q hq hc => ?_)
    obtain ⟨-, ⟨hset, -⟩ | ⟨-, hopaque, -⟩⟩ := color q hq px py hc
    · exact hunset hset
    · exact hopaque hclear
  · exact hkept px py hpx (fun q hq hc => hout (color q hq px py hc).1)

/-- Settles O60: the bits the statement reads off the ROM are those the cells show. -/
theorem drawCharCoversItsCell : Obligations.DrawCharCoversItsCell := by
  intro s x y g fg bg scale hp hsel hs hg hne bit hcells hspacing
  let a : CharArgs := { x := x.toNat, y := y.toNat, g := g, fg := fg, bg := bg, scale := scale.toNat }
  have hbit (c r : Nat) : bit c r ↔ cellSet a c r s = true := by rw [cellSet_eq]
  have hscale : 0 < a.scale := Nat.pos_of_ne_zero (fun h => hne (BitVec.eq_of_toNat_eq h))
  have hon : ∀ q ∈ charRects a s, onPanel q.x q.y q.w q.h = true :=
    charRects_onPanel a s hg hscale
      (fun c r hc hr hdrawn => hcells c r hc hr (hdrawn.imp_right (hbit c r).2)) hspacing
  obtain ⟨haccepts, hpaints⟩ := drawCharOp_paints a s hp hs hg hscale hon
  have hexec : exec (.drawChar x y g fg bg scale) s = finish (.drawn (drawnGlyph g)) (drawCharOp a s) := by
    rw [exec, execDrawChar, hsel, if_neg Bool.false_ne_true, if_neg hne]
  refine ⟨_, hexec, haccepts, fun px py hpx _ => ?_⟩
  intro inCell isSet
  have hset : isSet ↔ a.inSetBit s px py := and_congr_right' (hbit _ _)
  rw [hset]
  exact hpaints px py hpx

end Sys2Proof.Machine
end

section
/-! The descriptor decoder and the encoder undo each other, and what the decoder refuses (rules R93 to R97, R229). -/

namespace Sys2Proof

/-! ## The round trip -/

/-- The descriptor of a well-formed operation is read back, whatever follows it: every field by `be16_bytes16`, a payload by its
length field (rules R93, R94, R96). -/
theorem decode_encode_append (p : Params) (i : Instr) (rest : List Byte) (hop : i.isOperation = true) (hwf : i.wf p = true) :
    decode (encode p i ++ rest) = .ok (i, rest) := by
  cases i with
  | init => rfl
  | setPower on => rfl
  | beginTx => rfl
  | endTx => rfl
  | decode b => rfl
  | glyphCol g c => rfl
  | fillRect x y w h color => simp [encode, bytes16, decode, decodeFields, be16_setWidth]
  | drawChar x y g fg bg scale => simp [encode, bytes16, decode, decodeFields, be16_setWidth]
  | setWindow x y w h => simp [encode, bytes16, decode, decodeFields, be16_setWidth]
  | fill color => simp [encode, bytes16, decode, decodeFields, be16_setWidth]
  | blitImage x y w h data =>
    have hlen : data.length < 2 ^ 32 := of_decide_eq_true hwf
    simp [encode, bytes16, bytes32, decode, decodeFields, be16_setWidth, be32_length _ hlen, takePayload_append]
  | blit data =>
    have hlen : data.length < 2 ^ 32 := of_decide_eq_true hwf
    simp [encode, bytes32, decode, decodeFields, be32_length _ hlen, takePayload_append]
  | printLine x y fg bg scale text =>
    have hlen : text.length < 2 ^ 16 := of_decide_eq_true hwf
    simp [encode, bytes16, decode, decodeFields, be16_setWidth, be16_length _ hlen, takePayload_append]
  | write dc bytes =>
    have hlen : bytes.length < 2 ^ 16 := of_decide_eq_true hwf
    simp [encode, bytes16, decode, decodeFields, be16_length _ hlen, takePayload_append]
  | colAddrSet sh sl eh el => cases hop
  | rowAddrSet sh sl eh el => cases hop
  | memWrite => cases hop
  | sleepIn => cases hop
  | sleepOut => cases hop
  | displayOn => cases hop
  | displayOff => cases hop
  | cfg n => cases hop

/-- Settles O1: each layout of rule R96 is read back field by field. -/
theorem descriptorsRoundTrip : Obligations.DescriptorsRoundTrip := decode_encode_append

/-! ## One spelling -/

/-- A byte is the operation code its number says. -/
theorem op_eq_ofNat {op : Byte} {n : Nat} (h : op.toNat = n) : op = BitVec.ofNat 8 n := by
  rw [← h, BitVec.ofNat_toNat, BitVec.setWidth_eq]

/-- What is read from a descriptor spells it (rules R93, R96). -/
theorem encode_of_decode (p : Params) (bs rest : List Byte) (i : Instr) (h : decode bs = .ok (i, rest)) :
    bs = encode p i ++ rest := by
  have field : ∀ {bs r : List Byte} {j : Instr}, (.ok (j, r) : Except DecodeError (Instr × List Byte)) = .ok (i, rest) →
      bs = encode p j ++ r → bs = encode p i ++ rest := by
    intro bs r j hr hj
    cases hr
    exact hj
  have payload : ∀ {bs r : List Byte} {f : List Byte → Instr} {n : Nat}, takePayload f n r = .ok (i, rest) →
      (∀ data, data.length = n → r = data ++ rest → bs = encode p (f data) ++ rest) → bs = encode p i ++ rest := by
    intro bs r f n hr hf
    obtain ⟨data, hlen, hbs, rfl⟩ := (takePayload_ok f n r rest i).1 hr
    exact hf data hlen hbs
  cases bs with
  | nil => cases h
  | cons op bs =>
    simp only [decode] at h
    unfold decodeFields at h
    split at h
    · exact field h (by simp [encode, op_eq_ofNat ‹op.toNat = 0x01›]) -- init
    · split at h -- setPower
      · exact field h (by simp [encode, op_eq_ofNat ‹op.toNat = 0x02›])
      · cases h
    · split at h -- fillRect
      · exact field h (by simp [encode, op_eq_ofNat ‹op.toNat = 0x03›, bytes16_be16])
      · cases h
    · split at h -- blitImage
      · exact payload h (fun data hlen hr => by simp [encode, op_eq_ofNat ‹op.toNat = 0x04›, bytes16_be16, hlen,
          bytes32_be32, hr])
      · cases h
    · split at h -- drawChar
      · exact field h (by simp [encode, op_eq_ofNat ‹op.toNat = 0x05›, bytes16_be16])
      · cases h
    · split at h -- printLine
      · exact payload h (fun data hlen hr => by simp [encode, op_eq_ofNat ‹op.toNat = 0x06›, bytes16_be16, hlen, hr])
      · cases h
    · exact field h (by simp [encode, op_eq_ofNat ‹op.toNat = 0x10›]) -- beginTx
    · exact field h (by simp [encode, op_eq_ofNat ‹op.toNat = 0x11›]) -- endTx
    · split at h -- write
      · exact payload h (fun data hlen hr => by simp [encode, op_eq_ofNat ‹op.toNat = 0x12›, bytes16_be16, hlen, hr])
      · cases h
    · split at h -- setWindow
      · exact field h (by simp [encode, op_eq_ofNat ‹op.toNat = 0x13›, bytes16_be16])
      · cases h
    · split at h -- fill
      · exact field h (by simp [encode, op_eq_ofNat ‹op.toNat = 0x14›, bytes16_be16])
      · cases h
    · split at h -- blit
      · exact payload h (fun data hlen hr => by simp [encode, op_eq_ofNat ‹op.toNat = 0x15›, hlen, bytes32_be32, hr])
      · cases h
    · split at h -- decode
      · exact field h (by simp [encode, op_eq_ofNat ‹op.toNat = 0x16›])
      · cases h
    · split at h -- glyphCol
      · exact field h (by simp [encode, op_eq_ofNat ‹op.toNat = 0x17›])
      · cases h
    · cases h -- reserved

/-- Settles O2: the spelling of what was read, and that it is a well-formed operation. -/
theorem descriptorsHaveOneSpelling : Obligations.DescriptorsHaveOneSpelling := fun p bs rest i h =>
  ⟨encode_of_decode p bs rest i h, decode_ok_wf p bs rest i h⟩

/-! ## Refusals of the decoder -/

/-- The reserved operation codes (rule R97). -/
def ReservedOpcode (op : Byte) : Prop := op.toNat = 0 ∨ 7 ≤ op.toNat ∧ op.toNat ≤ 0x0F ∨ 0x18 ≤ op.toNat

theorem takePayload_ne_reservedOp (f : List Byte → Instr) (n : Nat) (bs : List Byte) :
    takePayload f n bs ≠ .error .reservedOp := by
  rw [takePayload]
  split <;> simp

/-- `ReservedOp` is a verdict on the operation code alone (rule R97). -/
theorem decode_cons_eq_reservedOp (op : Byte) (bs : List Byte) :
    decode (op :: bs) = .error .reservedOp ↔ ReservedOpcode op := by
  simp only [decode, ReservedOpcode]
  constructor
  · intro h
    unfold decodeFields at h
    split at h
    case h_15 => -- no operation has the code
      simp only [imp_false] at *
      omega
    case h_1 | h_7 | h_8 => cases h -- no field
    case h_4 | h_6 | h_9 | h_12 => -- a payload
      split at h
      · exact absurd h (takePayload_ne_reservedOp _ _ _)
      · cases h
    all_goals split at h <;> cases h -- fields of fixed length
  · intro h
    unfold decodeFields
    split
    case h_15 => rfl
    all_goals omega

/-- A descriptor that is cut is refused as cut short. Were it read, it would spell a descriptor `j` of its own, and the whole
would be read as `j` with the bytes that were cut off left over; were its code reserved, the whole would be refused too (rule R96). -/
theorem decode_take_encode (p : Params) (i : Instr) (n : Nat) (hop : i.isOperation = true) (hwf : i.wf p = true)
    (hpos : 0 < n) (hcut : n < (encode p i).length) : decode ((encode p i).take n) = .error .truncated := by
  have hwhole : decode (encode p i) = .ok (i, []) := by simpa using decode_encode_append p i [] hop hwf
  cases hread : decode ((encode p i).take n) with
  | ok read =>
    obtain ⟨j, rest⟩ := read
    obtain ⟨hjop, hjwf⟩ := decode_ok_wf p _ _ _ hread
    have hspell : encode p i = encode p j ++ (rest ++ (encode p i).drop n) := by
      rw [← List.append_assoc, ← encode_of_decode p _ _ _ hread, List.take_append_drop]
    rw [hspell, decode_encode_append p j _ hjop hjwf, Except.ok.injEq, Prod.mk.injEq, List.append_eq_nil_iff,
      List.drop_eq_nil_iff] at hwhole
    omega
  | error e =>
    cases e with
    | truncated => rfl
    | reservedOp =>
      obtain ⟨op, bs, hcode⟩ := List.exists_cons_of_length_pos (Nat.lt_trans hpos hcut)
      obtain ⟨m, rfl⟩ := Nat.exists_eq_add_of_lt hpos
      rw [hcode, List.take_succ_cons, decode_cons_eq_reservedOp] at hread
      rw [hcode, (decode_cons_eq_reservedOp op bs).2 hread] at hwhole
      cases hwhole

end Sys2Proof

namespace Sys2Proof.Machine

/-- What the descriptor decoder refuses stops the step with the reason of rule R229. -/
theorem step_of_decode_error (s : State) (e : DecodeError) (hport : s.busPort = none) (hprog : s.prog ≠ [])
    (hdecode : decode s.prog = .error e) : step s = .refused (refusalOf e) := by
  simp only [step, fetch, fetchProgram, hport, hdecode, if_neg hprog]

/-- A flag byte above its range is neither of the two values that rule R94 gives it. -/
theorem flag_out_of_range {v : Byte} (hv : 2 ≤ v.toNat) : v ≠ 0 ∧ v ≠ 1 := by
  constructor <;> rintro rfl <;> exact absurd hv (by decide)

/-- Settles O4: the decoder refuses the reserved codes, the meanings the reserved field values. -/
theorem reservedEncodingsAreRefused : Obligations.ReservedEncodingsAreRefused := by
  refine ⟨?_, ?_, ?_, ?_⟩
  · intro s op bs hport hprog hop
    refine step_of_decode_error s .reservedOp hport ?_ ?_
    · rw [hprog]
      exact List.cons_ne_nil op bs
    · rw [hprog]
      exact (decode_cons_eq_reservedOp op bs).2 hop
  · intro s v hsel hv
    obtain ⟨h0, h1⟩ := flag_out_of_range hv
    rw [exec, execSetPower, hsel, if_neg Bool.false_ne_true, if_neg h0, if_neg h1]
  · intro s v bs hsel hv
    obtain ⟨h0, h1⟩ := flag_out_of_range hv
    rw [exec, execWrite, if_pos hsel, tagOf, if_neg h0, if_neg h1]
  · intro s g v hv
    rw [exec, execGlyphCol, if_neg (Nat.not_lt.2 hv)]

/-- Settles O5: a cut descriptor is refused by the decoder, and the step stops with that reason. -/
theorem cutDescriptorsAreRefused : Obligations.CutDescriptorsAreRefused := by
  intro s i n hop hwf hpos hcut hport hprog
  refine step_of_decode_error s .truncated hport ?_ ?_
  · rw [hprog]
    apply List.ne_nil_of_length_pos
    rw [List.length_take]
    omega
  · rw [hprog]
    exact decode_take_encode s.params i n hop hwf hpos hcut

/-- Settles O6: each descriptor by its layout of rule R96, each frame by rules R82 and R83 before any OPEN row is looked at. -/
theorem spelledWordsDecode : Obligations.SpelledWordsDecode :=
  ⟨rfl, rfl, rfl, rfl, rfl, rfl, rfl, rfl, fun _ => ⟨rfl, rfl⟩⟩

end Sys2Proof.Machine
end

section
/-! The frames of the bus commands, read back and sent (rules R80 to R84, R131, R132, R148; log entries 2, 26). -/

namespace Sys2Proof

/-! ## Reading a frame -/

/-- The frame of an entry that is there is its command byte and its parameters (rule R148). -/
theorem encode_cfg (p : Params) (n : Nat) (e : CfgEntry) (h : p.initCfg[n]? = some e) : encode p (.cfg n) = e.cmd :: e.params := by
  simp only [encode, h]

/-- What a frame is read as is a well-formed bus command with that frame: here by the fixed rows (rules R82 to R84). -/
theorem decodeFixed_eq_some (p : Params) (c : Byte) (ps : List Byte) (j : Instr) (h : decodeFixed c ps = some j) :
    j.isOperation = false ∧ j.wf p = true ∧ encode p j = c :: ps := by
  unfold decodeFixed at h
  split at h
  · rename_i hc -- COL_ADDR_SET
    split at h
    · cases h
      exact ⟨rfl, rfl, by rw [hc]; rfl⟩
    · cases h
  · split at h
    · rename_i hc -- ROW_ADDR_SET
      split at h
      · cases h
        exact ⟨rfl, rfl, by rw [hc]; rfl⟩
      · cases h
    · split at h
      · rename_i hc -- MEM_WRITE
        cases h
        exact ⟨rfl, rfl, by rw [hc.1, hc.2]; rfl⟩
      · cases h

/-- The same by the whole table (rule R81). -/
theorem decodeCommand_eq_some (p : Params) (c : Byte) (ps : List Byte) (j : Instr) (h : decodeCommand p c ps = some j) :
    j.isOperation = false ∧ j.wf p = true ∧ encode p j = c :: ps := by
  have open_row : ∀ {k : Instr} {o : Byte}, c = o ∧ ps = [] → some k = some j →
      k.isOperation = false ∧ k.wf p = true ∧ encode p k = [o] →
      j.isOperation = false ∧ j.wf p = true ∧ encode p j = c :: ps := by
    rintro k o ⟨rfl, rfl⟩ hk hkj
    cases hk
    exact hkj
  rw [decodeCommand] at h
  split at h
  · rename_i k hk
    cases h
    exact decodeFixed_eq_some p c ps _ hk
  · split at h
    · exact open_row ‹_› h ⟨rfl, rfl, rfl⟩
    · split at h
      · exact open_row ‹_› h ⟨rfl, rfl, rfl⟩
      · split at h
        · exact open_row ‹_› h ⟨rfl, rfl, rfl⟩
        · split at h
          · exact open_row ‹_› h ⟨rfl, rfl, rfl⟩
          · obtain ⟨m, hm, rfl⟩ := Option.map_eq_some_iff.1 h
            obtain ⟨hlt, he, -⟩ := List.findIdx?_eq_some_iff_getElem.1 hm
            have he : p.initCfg[m] = { cmd := c, params := ps } := of_decide_eq_true he
            exact ⟨rfl, decide_eq_true hlt, by rw [encode_cfg p m _ (List.getElem?_eq_getElem hlt), he]⟩

theorem decodeFrame_eq_some (p : Params) (bs : List Byte) (j : Instr) (h : decodeFrame p bs = some j) :
    j.isOperation = false ∧ j.wf p = true ∧ encode p j = bs := by
  cases bs with
  | nil => cases h
  | cons c ps => exact decodeCommand_eq_some p c ps j h

/-- What is read as nothing is the frame neither of an OPEN row nor of an entry of `INIT_CFG`. -/
theorem decodeCommand_eq_none (p : Params) (c : Byte) (ps : List Byte) (h : decodeCommand p c ps = none) :
    ¬ (c = p.cmdSleepIn ∧ ps = []) ∧ ¬ (c = p.cmdSleepOut ∧ ps = []) ∧
      ¬ (c = p.cmdDisplayOn ∧ ps = []) ∧ ¬ (c = p.cmdDisplayOff ∧ ps = []) ∧
      ∀ e ∈ p.initCfg, e ≠ { cmd := c, params := ps } := by
  cases hfixed : decodeFixed c ps with
  | some i => simp [decodeCommand, hfixed] at h
  | none =>
    simp only [decodeCommand, hfixed] at h
    split_ifs at h
    refine ⟨‹_›, ‹_›, ‹_›, ‹_›, ?_⟩
    simpa using h

/-- The frame of every well-formed bus command is read as some bus command. -/
theorem decodeFrame_encode_ne_none (p : Params) (i : Instr) (hop : i.isOperation = false) (hwf : i.wf p = true) :
    decodeFrame p (encode p i) ≠ none := by
  intro h
  cases i with
  | colAddrSet sh sl eh el => cases h
  | rowAddrSet sh sl eh el => cases h
  | memWrite => cases h
  | sleepIn =>
    obtain ⟨hopen, -⟩ := decodeCommand_eq_none _ _ _ h
    exact hopen ⟨rfl, rfl⟩
  | sleepOut =>
    obtain ⟨-, hopen, -⟩ := decodeCommand_eq_none _ _ _ h
    exact hopen ⟨rfl, rfl⟩
  | displayOn =>
    obtain ⟨-, -, hopen, -⟩ := decodeCommand_eq_none _ _ _ h
    exact hopen ⟨rfl, rfl⟩
  | displayOff =>
    obtain ⟨-, -, -, hopen, -⟩ := decodeCommand_eq_none _ _ _ h
    exact hopen ⟨rfl, rfl⟩
  | cfg n =>
    have hn : n < p.initCfg.length := of_decide_eq_true hwf
    rw [encode_cfg p n _ (List.getElem?_eq_getElem hn)] at h
    obtain ⟨-, -, -, -, hentry⟩ := decodeCommand_eq_none _ _ _ h
    exact hentry _ (List.getElem_mem hn) rfl
  | _ => cases hop

/-- A command byte alone is the frame of MEM_WRITE or else of the first OPEN row or entry that has it (log entry 2). -/
theorem decodeFrame_singleton (p : Params) (c : Byte) (hc : Config.cmdMemWrite ≠ c) :
    decodeFrame p [c] =
      if c = p.cmdSleepIn then some .sleepIn
      else if c = p.cmdSleepOut then some .sleepOut
      else if c = p.cmdDisplayOn then some .displayOn
      else if c = p.cmdDisplayOff then some .displayOff
      else (p.initCfg.findIdx? (fun e => decide (e = { cmd := c, params := [] }))).map .cfg := by
  have hfixed : decodeFixed c [] = none := by
    unfold decodeFixed
    rw [if_neg (fun h : c = Config.cmdMemWrite ∧ [] = [] => hc h.1.symm)]
    split
    · rfl
    · split <;> rfl
  simp [decodeFrame, decodeCommand, hfixed]

/-- When the seven command bytes differ, a named row is read as itself: no earlier row has its frame. -/
theorem decodeFrame_encode_named (p : Params) (i : Instr) (hop : i.isOperation = false) (hnamed : ∀ n, i ≠ .cfg n)
    (hcmds : p.distinctCmds) : decodeFrame p (encode p i) = some i := by
  simp only [Params.distinctCmds, List.nodup_cons, List.mem_cons, List.not_mem_nil, or_false, not_or] at hcmds
  obtain ⟨-, -, ⟨hmemIn, hmemOut, hmemOn, hmemOff⟩, ⟨hinOut, hinOn, hinOff⟩, ⟨houtOn, houtOff⟩, honOff, -⟩ := hcmds
  cases i with
  | colAddrSet sh sl eh el => rfl
  | rowAddrSet sh sl eh el => rfl
  | memWrite => rfl
  | sleepIn => rw [encode, decodeFrame_singleton p _ hmemIn, if_pos rfl]
  | sleepOut => rw [encode, decodeFrame_singleton p _ hmemOut, if_neg (Ne.symm hinOut), if_pos rfl]
  | displayOn =>
    rw [encode, decodeFrame_singleton p _ hmemOn, if_neg (Ne.symm hinOn), if_neg (Ne.symm houtOn), if_pos rfl]
  | displayOff =>
    rw [encode, decodeFrame_singleton p _ hmemOff, if_neg (Ne.symm hinOff), if_neg (Ne.symm houtOff), if_neg (Ne.symm honOff),
      if_pos rfl]
  | cfg n => exact absurd rfl (hnamed n)
  | _ => cases hop

/-- Settles O3: a frame is read as some row that has it; when no named row has it, that row is an entry, and its content is the frame. -/
theorem framesRoundTrip : Obligations.FramesRoundTrip := by
  intro p i hop hwf
  obtain ⟨j, hread⟩ := Option.ne_none_iff_exists'.1 (decodeFrame_encode_ne_none p i hop hwf)
  obtain ⟨hjop, hjwf, hjframe⟩ := decodeFrame_eq_some p _ j hread
  refine ⟨⟨j, hread, hjop, hjwf, hjframe⟩, fun hcmds hnamed => decodeFrame_encode_named p i hop hnamed hcmds, ?_⟩
  rintro n e rfl he hapart
  obtain ⟨m, rfl⟩ : ∃ m, j = .cfg m := by
    by_contra hj
    exact hapart j hjop (not_exists.1 hj) hjframe
  obtain ⟨e', he'⟩ : ∃ e', p.initCfg[m]? = some e' := ⟨_, List.getElem?_eq_getElem (of_decide_eq_true hjwf)⟩
  rw [encode_cfg p m e' he', encode_cfg p n e he, List.cons.injEq] at hjframe
  have hcontent : e' = e := CfgEntry.mk.injEq .. ▸ hjframe
  exact ⟨m, hread, hcontent ▸ he'⟩

end Sys2Proof

namespace Sys2Proof.Machine

/-! ## Sending a frame -/

theorem frameOp_of_selected (c : Byte) (ps : List Byte) (s : State) (hsel : s.busSel = true) :
    frameOp c ps s =
      .next { emitAll (frameEvents c ps) s with win := { s.win with isOpen := false }, result := .none } := by
  rw [frameOp, if_pos hsel, sendFrame_eq, finish_eq]
  rfl

theorem frameOp_of_unselected (c : Byte) (ps : List Byte) (s : State) (hsel : s.busSel = false) :
    frameOp c ps s = .refused .writeUnselected := by
  rw [frameOp, hsel, if_neg Bool.false_ne_true]

/-- Settles O17: the meaning of each bus command is `frameOp` of its frame. -/
theorem busCommandsComplete : Obligations.BusCommandsComplete := by
  intro s i c ps hrow
  have hexec : exec i s = frameOp c ps s := by
    obtain ⟨sh, sl, eh, el, rfl, rfl, rfl⟩ | ⟨sh, sl, eh, el, rfl, rfl, rfl⟩ | ⟨rfl, rfl, rfl⟩ | ⟨rfl, rfl, rfl⟩ |
      ⟨rfl, rfl, rfl⟩ | ⟨rfl, rfl, rfl⟩ | ⟨rfl, rfl, rfl⟩ | ⟨n, rfl, hentry⟩ := hrow
    case inr.inr.inr.inr.inr.inr.inr => simp only [exec, execCfg, hentry]
    all_goals rfl
  rw [hexec]
  exact ⟨frameOp_of_selected c ps s, frameOp_of_unselected c ps s⟩

end Sys2Proof.Machine
end

section
/-! FILLRECT and BLITIMAGE, operation by operation (rules R101, R157, R158). -/

namespace Sys2Proof.Machine

/-! ## The result register has no part in what an operation does (log entry 12) -/

theorem setWindowOp_result (x y w h : Nat) (r : Result) (s : State) :
    setWindowOp x y w h { s with result := r } = { setWindowOp x y w h s with result := r } := by
  rw [setWindowOp_eq, setWindowOp_eq]
  rfl

theorem fillOp_result (color : Half) (r : Result) (s : State) (hp : s.params.ok) :
    fillOp color { s with result := r } = { fillOp color s with result := r } := by
  rw [fillOp_eq color { s with result := r } hp, fillOp_eq color s hp]
  rfl

theorem blitOp_result (data : List Byte) (r : Result) (s : State) (hp : s.params.ok)
    (hlen : streamBytes s.win.w s.win.h ≤ data.length) :
    blitOp data { s with result := r } = { blitOp data s with result := r } := by
  rw [blitOp_eq data { s with result := r } hp hlen, blitOp_eq data s hp hlen]
  rfl

/-! ## The bracket around a stream -/

/-- BEGIN and then SETWINDOW, from an idle bus: both complete, in the bracket with the window declared (rules R111, R140). -/
theorem exec_begin_setWindow (s : State) (x y w h : Half) (hsel : s.busSel = false) (hw : w ≠ 0) (hh : h ≠ 0) :
    ∃ s1 t, exec .beginTx s = .next s1 ∧ exec (.setWindow x y w h) s1 = .next { t with result := .none } ∧
      t = setWindowOp x.toNat y.toNat w.toNat h.toNat (beginOp s) ∧ t.params = s.params ∧ t.busSel = true ∧
      t.win = { x := x.toNat, y := y.toNat, w := w.toNat, h := h.toNat, isOpen := true } := by
  refine ⟨{ beginOp s with result := .none }, _, ?_, ?_, rfl, ?_⟩
  · rw [exec, execBeginTx, hsel, if_neg Bool.false_ne_true, finish_eq]
  · rw [exec, execSetWindow, if_pos (beginOp_busSel s), if_neg (not_or.2 ⟨hw, hh⟩), finish_eq, setWindowOp_result]
  · rw [setWindowOp_eq]
    exact ⟨rfl, rfl, rfl⟩

/-- END in a bracket completes (rule R112). -/
theorem exec_endTx_of_selected (s : State) (hsel : s.busSel = true) :
    exec .endTx s = .next { endOp s with result := .none } := by
  rw [exec, execEndTx, if_pos hsel, finish_eq]

/-- Settles O25: each of the four completes in the state its effect gives, and FILLRECT is the four effects (rule R157). -/
theorem fillRectIsItsExpansion : Obligations.FillRectIsItsExpansion := by
  intro s x y w h color hp hsel hw hh
  obtain ⟨s1, t, hbegin, hwindow, ht, htparams, htsel, htwin⟩ := exec_begin_setWindow s x y w h hsel hw hh
  have htp : t.params.ok := htparams ▸ hp
  have hfill : exec (.fill color) { t with result := .none } = .next { fillOp color t with result := .none } := by
    rw [exec, execFill, if_pos htsel, if_pos (by rw [htwin]), finish_eq, fillOp_result color .none t htp]
  have hsel3 : (fillOp color t).busSel = true := by
    rw [fillOp_eq color t htp]
    exact htsel
  refine ⟨s1, _, _, _, hbegin, hwindow, hfill, exec_endTx_of_selected _ hsel3, ?_⟩
  rw [exec, execFillRect, hsel, if_neg Bool.false_ne_true, if_neg (not_or.2 ⟨hw, hh⟩), fillRectOp, ← ht]
  rfl

/-- Settles O27, as O25; the source is long enough for the window that was declared (rule R158). -/
theorem blitImageIsItsExpansion : Obligations.BlitImageIsItsExpansion := by
  intro s x y w h data hp hsel hw hh hlen
  obtain ⟨s1, t, hbegin, hwindow, ht, htparams, htsel, htwin⟩ := exec_begin_setWindow s x y w h hsel hw hh
  have htp : t.params.ok := htparams ▸ hp
  have hsource : streamBytes w.toNat h.toNat ≤ data.length := hlen
  have htlen : streamBytes t.win.w t.win.h ≤ data.length := by
    rw [htwin]
    exact hsource
  have hblit : exec (.blit data) { t with result := .none } = .next { blitOp data t with result := .none } := by
    rw [exec, execBlit, if_pos htsel, if_pos (by rw [htwin]), if_neg (Nat.not_lt.2 htlen), finish_eq,
      blitOp_result data .none t htp htlen]
  have hsel3 : (blitOp data t).busSel = true := by
    rw [blitOp_eq data t htp htlen]
    exact htsel
  refine ⟨s1, _, _, _, hbegin, hwindow, hblit, exec_endTx_of_selected _ hsel3, ?_⟩
  rw [exec, execBlitImage, hsel, if_neg Bool.false_ne_true, if_neg (not_or.2 ⟨hw, hh⟩), if_neg (Nat.not_lt.2 hsource),
    blitImageOp, ← ht]
  rfl

end Sys2Proof.Machine
end

section
/-! The Bus Transport and the bracket law: BEGIN, END and WRITE, what the law says of a trace, and that every step keeps it (rules R111
to R114, R229, R236). -/

namespace Sys2Proof.Machine

/-! ## BEGIN, END, WRITE -/

/-- Settles O9: BEGIN is its one event and the select bit. -/
theorem beginOpensTheBracket : Obligations.BeginOpensTheBracket := by
  refine fun s => ⟨fun rest => rfl, fun hsel => ?_, fun hsel => ?_⟩
  · rw [exec, execBeginTx, hsel, if_neg Bool.false_ne_true, finish_eq]
    rfl
  · rw [exec, execBeginTx, if_pos hsel]

/-- Settles O10: END is its one event, the select bit and the closed window. -/
theorem endClosesTheBracket : Obligations.EndClosesTheBracket := by
  refine fun s => ⟨fun rest => rfl, fun hsel => ?_, fun hsel => ?_⟩
  · rw [exec_endTx_of_selected s hsel]
    rfl
  · rw [exec, execEndTx, hsel, if_neg Bool.false_ne_true]

/-- A bus write is one event, or none when it has no bytes (rule R113; decision D29). -/
theorem writeOp_eq (dc : DC) (bs : List Byte) (s : State) :
    writeOp dc bs s = emitAll (if bs = [] then [] else [.wr dc bs]) s := by
  by_cases h : bs = []
  · rw [h, writeOp_nil, if_pos rfl, emitAll_nil]
  · rw [writeOp_of_ne dc bs s h, if_neg h, emit_eq_emitAll]

/-- WRITE in a bracket, with a tag that rule R94 gives a meaning. -/
theorem exec_write_of_selected (dc : Byte) (d : DC) (bs : List Byte) (s : State) (htag : tagOf dc = some d) (hsel : s.busSel = true) :
    exec (.write dc bs) s = .next { emitAll (if bs = [] then [] else [.wr d bs]) s with result := .none } := by
  simp only [exec, execWrite, htag]
  rw [if_pos hsel, finish_eq, writeOp_eq]

/-- Settles O11, the two tags by one lemma. -/
theorem writeSendsItsBytes : Obligations.WriteSendsItsBytes := by
  refine fun s bs => ⟨exec_write_of_selected 0 .cmd bs s rfl, exec_write_of_selected 1 .dat bs s rfl, fun dc hsel => ?_⟩
  rw [exec, execWrite, hsel, if_neg Bool.false_ne_true]

/-! ## What the bracket law says of a trace -/

/-- `Sel` moves the level: it is refused at the level it asks for. -/
theorem selAfter_sel_eq_some (level c b : Bool) : selAfter level (.sel c) = some b ↔ level = !c ∧ b = c := by
  revert level c b
  decide

/-- A write needs the bracket open and leaves it open. -/
theorem selAfter_wr_eq_some (level b : Bool) (dc : DC) (bs : List Byte) :
    selAfter level (.wr dc bs) = some b ↔ level = true ∧ b = true := by
  cases level <;> simp [selAfter, eq_comm]

theorem traceSel_concat_eq_some (t : List Event) (e : Event) (b : Bool) :
    traceSel (t ++ [e]) = some b ↔ ∃ level, traceSel t = some level ∧ selAfter level e = some b := by
  rw [traceSel_append]
  exact Option.bind_eq_some_iff

/-- The level is the number of brackets opened less the number closed. -/
theorem traceSel_counts (t : List Event) (b : Bool) (h : traceSel t = some b) :
    t.count (.sel true) = t.count (.sel false) + b.toNat := by
  induction t using List.reverseRecOn generalizing b with
  | nil =>
    cases h
    rfl
  | append_singleton t e ih =>
    obtain ⟨level, hlevel, he⟩ := (traceSel_concat_eq_some t e b).1 h
    have hcount := ih level hlevel
    cases e with
    | sel c =>
      obtain ⟨rfl, rfl⟩ := (selAfter_sel_eq_some level c b).1 he
      cases b <;> simpa using hcount
    | wr dc bs =>
      obtain ⟨rfl, rfl⟩ := (selAfter_wr_eq_some level b dc bs).1 he
      simpa using hcount
    | rst c =>
      cases he
      simpa using hcount
    | wait n =>
      cases he
      simpa using hcount

/-- A trace that leaves the bracket open has a last `Sel(1)`, and no `Sel(0)` after it. -/
theorem exists_open_bracket (t : List Event) (h : traceSel t = some true) :
    ∃ before inside : List Event, t = before ++ .sel true :: inside ∧ Event.sel false ∉ inside := by
  induction t using List.reverseRecOn with
  | nil => cases h
  | append_singleton t e ih =>
    obtain ⟨level, hlevel, he⟩ := (traceSel_concat_eq_some t e true).1 h
    -- an event that leaves the level alone belongs to the bracket that was open before it
    have keeps : level = true → e ≠ .sel false →
        ∃ before inside : List Event, t ++ [e] = before ++ .sel true :: inside ∧ Event.sel false ∉ inside := by
      rintro rfl hne
      obtain ⟨before, inside, rfl, hinside⟩ := ih hlevel
      exact ⟨before, inside ++ [e], by simp, by simp [hinside, hne.symm]⟩
    cases e with
    | sel c =>
      obtain ⟨-, rfl⟩ := (selAfter_sel_eq_some level c true).1 he
      exact ⟨t, [], rfl, List.not_mem_nil⟩
    | wr dc bs =>
      obtain ⟨hopen, -⟩ := (selAfter_wr_eq_some level true dc bs).1 he
      exact keeps hopen (by simp)
    | rst c => exact keeps (Option.some.inj he) (by simp)
    | wait n => exact keeps (Option.some.inj he) (by simp)

/-- The front of a trace that keeps the law keeps it. -/
theorem traceSel_of_append (t es : List Event) (b : Bool) (h : traceSel (t ++ es) = some b) : ∃ level, traceSel t = some level := by
  refine Option.ne_none_iff_exists'.1 fun hnone => ?_
  rw [traceSel_append, hnone, selFrom_none] at h
  cases h

/-- Before a write the bracket is open. -/
theorem traceSel_before_wr (front back : List Event) (dc : DC) (bs : List Byte) (b : Bool)
    (h : traceSel (front ++ .wr dc bs :: back) = some b) : traceSel front = some true := by
  rw [List.append_cons] at h
  obtain ⟨after, hafter⟩ := traceSel_of_append _ back b h
  obtain ⟨level, hlevel, hwr⟩ := (traceSel_concat_eq_some front _ after).1 hafter
  obtain ⟨rfl, -⟩ := (selAfter_wr_eq_some level after dc bs).1 hwr
  exact hlevel

/-- Settles O40: the counts by the level, the place of a write by the bracket that is open before it. -/
theorem bracketLawCounts : Obligations.BracketLawCounts := by
  intro t b h
  refine ⟨traceSel_counts t b h, ?_⟩
  rintro front back dc bs rfl
  exact exists_open_bracket front (traceSel_before_wr front back dc bs b h)

/-! ## Every instruction keeps the bracket law -/

/-- Events that take the level from the old `BUS.sel` to the new one keep the law. -/
theorem bracketLaw_of_append {s t : State} (es : List Event) (hs : s.bracketLaw) (htrace : t.trace = s.trace ++ es)
    (hlevel : selFrom (some s.busSel) es = some t.busSel) : t.bracketLaw := by
  rw [State.bracketLaw, htrace, traceSel_append, hs, hlevel]

/-- Rectangles leave a closed bracket closed, even when there are none. -/
theorem drawRects_busSel (rs : List Rect) (s : State) (hp : s.params.ok) (hsel : s.busSel = false) :
    (drawRects rs s).busSel = false := by
  rw [drawRects_eq rs s hp]
  exact ite_eq_right_iff.2 fun _ => hsel

/-- The rectangles of a drawing operation are one bracket each. -/
theorem drawRects_bracketLaw (rs : List Rect) (s : State) (hp : s.params.ok) (hsel : s.busSel = false) (hs : s.bracketLaw) :
    (drawRects rs s).bracketLaw := by
  obtain ⟨-, htrace, -⟩ := emits_drawRects rs s hp
  refine bracketLaw_of_append _ hs htrace ?_
  rw [hsel, drawRects_busSel rs s hp hsel, selFrom_rects]

/-- A write without bytes leaves no event, and one with bytes finds the bracket open. -/
theorem selFrom_write (dc : DC) (bs : List Byte) :
    selFrom (some true) (if bs = [] then [] else [.wr dc bs]) = some true := by
  split <;> rfl

/-- Every instruction keeps the bracket law: the public operations from the closed bracket they need, the others from the open one. -/
theorem exec_bracketLaw (i : Instr) (s t : State) (hp : s.params.ok) (hs : s.bracketLaw) (hexec : exec i s = .next t) :
    t.bracketLaw := by
  obtain ⟨-, hsel, rfl⟩ | ⟨on, cs, -, hsel, -, rfl⟩ | ⟨x, y, w, h, color, -, hsel, -, -, rfl⟩ |
    ⟨x, y, w, h, data, -, hsel, -, -, -, rfl⟩ | ⟨x, y, g, fg, bg, scale, c, r, rs, -, hsel, -, -, -, rfl⟩ |
    ⟨x, y, fg, bg, scale, text, c, r, rs, -, hsel, -, -, -, rfl⟩ | ⟨-, hsel, rfl⟩ | ⟨-, hsel, rfl⟩ |
    ⟨dc, d, bs, -, -, hsel, rfl⟩ | ⟨x, y, w, h, -, hsel, -, -, rfl⟩ | ⟨color, -, hsel, -, rfl⟩ | ⟨data, -, hsel, -, -, rfl⟩ |
    ⟨b, -, rfl⟩ | ⟨g, c, -, rfl⟩ | ⟨c, ps, -, hsel, rfl⟩ := exec_next i s t hp hexec
  · exact bracketLaw_of_append _ hs rfl (hsel ▸ selFrom_init _) -- init
  · exact bracketLaw_of_append _ hs rfl (hsel ▸ selFrom_power _) -- setPower
  · exact bracketLaw_of_append _ hs rfl (hsel ▸ selFrom_rect _ _ _ _ _ _) -- fillRect
  · exact bracketLaw_of_append _ hs rfl (hsel ▸ selFrom_image _ _ _ _ _ _) -- blitImage
  · exact drawRects_bracketLaw rs s hp hsel hs -- drawChar
  · exact drawRects_bracketLaw rs s hp hsel hs -- printLine
  · exact bracketLaw_of_append _ hs rfl (hsel ▸ rfl) -- beginTx
  · exact bracketLaw_of_append _ hs rfl (hsel ▸ rfl) -- endTx
  · exact bracketLaw_of_append _ hs rfl (hsel ▸ selFrom_write d bs) -- write
  · exact bracketLaw_of_append _ hs rfl (hsel ▸ selFrom_window _ _ _ _) -- setWindow
  · exact bracketLaw_of_append _ hs rfl (hsel ▸ selFrom_stream _ _) -- fill
  · exact bracketLaw_of_append _ hs rfl (hsel ▸ selFrom_stream _ _) -- blit
  · exact hs -- decode
  · exact hs -- glyphCol
  · exact bracketLaw_of_append _ hs rfl (hsel ▸ selFrom_frame _ _) -- bus commands

/-- Settles O39: the fetch touches neither the trace nor `BUS.sel`, and every instruction keeps the law. -/
theorem stepKeepsTheBracketLaw : Obligations.StepKeepsTheBracketLaw := by
  intro s t hp hs hstep
  obtain rfl | ⟨i, u, hexec, ⟨rest, -, rfl⟩ | ⟨-, rfl⟩⟩ := step_next s t hstep
  · exact hs
  · exact exec_bracketLaw i { s with prog := rest } t hp hs hexec
  · exact exec_bracketLaw i { s with busPort := none } t hp hs hexec

/-! ## The public operations -/

/-- The public surface is part of the operation set (rule R95): no bus command is public. -/
theorem isOperation_of_isPublic (i : Instr) (hpublic : i.isPublic = true) : i.isOperation = true := by
  cases i with
  | init | setPower | fillRect | blitImage | drawChar | printLine => rfl
  | _ => cases hpublic

/-- A public operation that completes found the bracket closed and leaves it closed. -/
theorem exec_public_busSel (i : Instr) (s t : State) (hp : s.params.ok) (hpublic : i.isPublic = true) (hexec : exec i s = .next t) :
    s.busSel = false ∧ t.busSel = false := by
  obtain ⟨-, hsel, rfl⟩ | ⟨on, cs, -, hsel, -, rfl⟩ | ⟨x, y, w, h, color, -, hsel, -, -, rfl⟩ |
    ⟨x, y, w, h, data, -, hsel, -, -, -, rfl⟩ | ⟨x, y, g, fg, bg, scale, c, r, rs, -, hsel, -, -, -, rfl⟩ |
    ⟨x, y, fg, bg, scale, text, c, r, rs, -, hsel, -, -, -, rfl⟩ | ⟨rfl, -⟩ | ⟨rfl, -⟩ | ⟨dc, d, bs, rfl, -⟩ |
    ⟨x, y, w, h, rfl, -⟩ | ⟨color, rfl, -⟩ | ⟨data, rfl, -⟩ | ⟨b, rfl, -⟩ | ⟨g, c, rfl, -⟩ | ⟨c, ps, hbus, -⟩ :=
    exec_next i s t hp hexec
  · exact ⟨hsel, rfl⟩ -- init
  · exact ⟨hsel, rfl⟩ -- setPower
  · exact ⟨hsel, rfl⟩ -- fillRect
  · exact ⟨hsel, rfl⟩ -- blitImage
  · exact ⟨hsel, drawRects_busSel rs s hp hsel⟩ -- drawChar
  · exact ⟨hsel, drawRects_busSel rs s hp hsel⟩ -- printLine
  case inr.inr.inr.inr.inr.inr.inr.inr.inr.inr.inr.inr.inr.inr => -- bus commands
    rw [isOperation_of_isPublic i hpublic] at hbus
    cases hbus
  all_goals cases hpublic -- the other operations are not public

/-- From a closed bracket a public operation is refused for its operands only (rules R94, R140, R158, R178, R229). -/
theorem exec_public_refused (i : Instr) (s : State) (r : Refusal) (hpublic : i.isPublic = true) (hsel : s.busSel = false)
    (hexec : exec i s = .refused r) : r ∈ [Refusal.badOperand, .zeroArea, .shortSource, .zeroScale] := by
  cases i with
  | init =>
    rw [exec, execInit, hsel, if_neg Bool.false_ne_true] at hexec
    cases hexec
  | setPower on =>
    rw [exec, execSetPower, hsel, if_neg Bool.false_ne_true] at hexec
    split_ifs at hexec <;> cases hexec
    decide
  | fillRect x y w h color =>
    rw [exec, execFillRect, hsel, if_neg Bool.false_ne_true] at hexec
    split_ifs at hexec <;> cases hexec
    decide
  | blitImage x y w h data =>
    rw [exec, execBlitImage, hsel, if_neg Bool.false_ne_true] at hexec
    split_ifs at hexec <;> cases hexec <;> decide
  | drawChar x y g fg bg scale =>
    rw [exec, execDrawChar, hsel, if_neg Bool.false_ne_true] at hexec
    split_ifs at hexec <;> cases hexec
    decide
  | printLine x y fg bg scale text =>
    rw [exec, execPrintLine, hsel, if_neg Bool.false_ne_true] at hexec
    split_ifs at hexec <;> cases hexec
    decide
  | _ => cases hpublic

/-- Settles O41. -/
theorem publicOperationsAreBracketed : Obligations.PublicOperationsAreBracketed := by
  intro i s hp hpublic
  refine ⟨fun t hexec => exec_public_busSel i s t hp hpublic hexec, fun hsel => ?_⟩
  have apart : ∀ r, r ∉ [Refusal.badOperand, .zeroArea, .shortSource, .zeroScale] → exec i s ≠ .refused r :=
    fun r hr hexec => hr (exec_public_refused i s r hpublic hsel hexec)
  exact ⟨apart _ (by decide), apart _ (by decide), apart _ (by decide)⟩

end Sys2Proof.Machine
end

section
/-! The Controller Protocol: INIT, SETPOWER and SETWINDOW, the window law, and how a controller takes their commands (rules R134 to
R148, R241). -/

namespace Sys2Proof.Machine

/-! ## INIT -/

/-- INIT outside a bracket completes (rule R134). -/
theorem exec_init_of_unselected (s : State) (hsel : s.busSel = false) :
    exec .init s =
      .next { emitAll (initEvents s.params) s with
        busSel := false
        rstl := false
        win := { s.win with isOpen := false }
        idx := if s.params.initCfg = [] then s.idx else s.params.initCfg.length - 1
        result := .none } := by
  rw [exec, execInit, hsel, if_neg Bool.false_ne_true, initOp_eq, finish_eq]

/-- Settles O12. -/
theorem initCompletes : Obligations.InitCompletes := by
  refine fun s => ⟨fun rest => rfl, exec_init_of_unselected s, fun hsel => ?_⟩
  rw [exec, execInit, if_pos hsel]

theorem traceBytes_frames (es : List CfgEntry) :
    traceBytes (es.flatMap (fun e => frameEvents e.cmd e.params)) =
      es.flatMap (fun e => (DC.cmd, e.cmd) :: e.params.map (fun b => (DC.dat, b))) := by
  induction es with
  | nil => rfl
  | cons e es ih => rw [List.flatMap_cons, traceBytes_append, traceBytes_frame, ih, List.flatMap_cons]

/-- Settles O13: the reset pulse and the bracket send no byte, and each frame sends its command and its parameters. -/
theorem initSendsTheGoldenSequence : Obligations.InitSendsTheGoldenSequence := by
  refine fun s hsel => ⟨_, _, exec_init_of_unselected s hsel, rfl, ?_⟩
  rw [initEvents, traceBytes_append, traceBytes_append, traceBytes_frames]
  rfl

/-- Settles O14: none of the registers INIT writes belongs to the decoder, `TXBUF` or the recorded window. -/
theorem initLeavesTheBlockAlone : Obligations.InitLeavesTheBlockAlone :=
  fun s hsel => ⟨_, exec_init_of_unselected s hsel, rfl, fun _ => rfl, rfl⟩

/-- A controller that is not marked takes the reset pulse, then the frames of `INIT_CFG`, sleep-out and display-on as configuration
frames, and is configured when select is released (rules R134, R148, R241; log entries 13, 18). -/
theorem observe_init (q : Params) (p : Panel) (hp : p.phase ≠ .offPanel) :
    (initEvents q).foldl (Panel.observe q) p =
      Panel.configured { p.blur with
        phase := .configuring
        mode := .idle
        config := q.initCfg ++ [{ cmd := q.cmdSleepOut, params := [] }, { cmd := q.cmdDisplayOn, params := [] }] } := by
  have hpulse : [.rst true, .wait q.tRstAssert, .rst false, .wait q.tRstRelease, .sel true].foldl (Panel.observe q) p =
      { p.blur with phase := .configuring, mode := .idle, config := [] } := by
    simp [Panel.observe, hp]
  rw [initEvents, List.foldl_append, List.foldl_append, hpulse,
    observe_frames q q.initCfg { p.blur with phase := .configuring, mode := .idle, config := [] } rfl]
  simp [Panel.observe]

/-- Settles O55. -/
theorem initReadiesThePanel : Obligations.InitReadiesThePanel := by
  intro s hsel hp
  refine ⟨_, exec_init_of_unselected s hsel, ?_⟩
  rw [emitAll_panel, observe_init s.params s.panel hp]
  exact ⟨rfl, rfl, rfl, rfl, rfl⟩

/-! ## SETPOWER -/

/-- SETPOWER outside a bracket completes, for the two values of `on` that rule R94 gives a meaning (rule R143). -/
theorem exec_setPower_of_unselected (s : State) (hsel : s.busSel = false) (on : Byte) (cs : List Byte)
    (hcs : on = 1 ∧ cs = s.params.pwrOnCmds ∨ on = 0 ∧ cs = s.params.pwrOffCmds) :
    exec (.setPower on) s =
      .next { emitAll (powerEvents cs) s with busSel := false, win := { s.win with isOpen := false }, result := .none } := by
  rw [exec, execSetPower, hsel, if_neg Bool.false_ne_true]
  obtain ⟨rfl, rfl⟩ | ⟨rfl, rfl⟩ := hcs
  · rw [if_neg (by decide), if_pos rfl, setPowerOp_eq, finish_eq, if_pos rfl]
  · rw [if_pos rfl, setPowerOp_eq, finish_eq, if_neg Bool.false_ne_true]

/-- Settles O15. -/
theorem setPowerCompletes : Obligations.SetPowerCompletes := by
  obtain ⟨-, hbad, -⟩ := reservedEncodingsAreRefused
  refine fun s => ⟨fun hsel => exec_setPower_of_unselected s hsel 1 _ (.inl ⟨rfl, rfl⟩),
    fun hsel => exec_setPower_of_unselected s hsel 0 _ (.inr ⟨rfl, rfl⟩), fun on hsel => ?_, hbad s⟩
  rw [exec, execSetPower, if_pos hsel]

/-! ## SETWINDOW and the window law -/

/-- SETWINDOW of a window that is not empty completes inside a bracket (rule R140). -/
theorem exec_setWindow_of_selected (s : State) (x y w h : Half) (hsel : s.busSel = true) (hw : w ≠ 0) (hh : h ≠ 0) :
    exec (.setWindow x y w h) s =
      .next { emitAll (windowEvents x.toNat y.toNat w.toNat h.toNat) (judgeWindow x.toNat y.toNat w.toNat h.toNat s) with
        win := { x := x.toNat, y := y.toNat, w := w.toNat, h := h.toNat, isOpen := true }, result := .none } := by
  rw [exec, execSetWindow, if_pos hsel, if_neg (not_or.2 ⟨hw, hh⟩), setWindowOp_eq, finish_eq]

/-- The eleven bytes of a window (rule R141). -/
theorem traceBytes_window (x y w h : Nat) :
    traceBytes (windowEvents x y w h) =
      [(.cmd, 0x2A), (.dat, 0x00), (.dat, lo8 x), (.dat, 0x00), (.dat, lo8 (x + w - 1)), (.cmd, 0x2B), (.dat, 0x00),
        (.dat, lo8 y), (.dat, 0x00), (.dat, lo8 (y + h - 1)), (.cmd, 0x2C)] := rfl

/-- Settles O16. -/
theorem setWindowCompletes : Obligations.SetWindowCompletes := by
  refine fun s x y w h => ⟨fun hsel hw hh => ⟨exec_setWindow_of_selected s x y w h hsel hw hh, traceBytes_window _ _ _ _⟩,
    fun hsel => ?_, fun hsel hzero => ?_⟩
  · rw [exec, execSetWindow, hsel, if_neg Bool.false_ne_true]
  · rw [exec, execSetWindow, if_pos hsel, if_pos hzero]

/-- The law speaks of open windows only. -/
theorem windowLaw_of_closed {s : State} (h : s.win.isOpen = false) : s.windowLaw :=
  fun hopen => absurd (h.symm.trans hopen) Bool.false_ne_true

/-- Where the law holds, no window is open outside a bracket. -/
theorem win_closed_of_unselected {s : State} (hs : s.windowLaw) (hsel : s.busSel = false) : s.win.isOpen = false := by
  refine Bool.eq_false_iff.2 fun hopen => ?_
  obtain ⟨hsel', -⟩ := hs hopen
  exact absurd (hsel.symm.trans hsel') Bool.false_ne_true

/-- Every FILLRECT closes its window. -/
theorem drawRects_win_closed (rs : List Rect) (s : State) (hp : s.params.ok) (h : s.win.isOpen = false) :
    (drawRects rs s).win.isOpen = false := by
  rw [drawRects_eq rs s hp]
  cases hlast : rs.getLast? with
  | none => simpa using h
  | some r => rfl

/-- A window just declared is the last thing sent (rule R141). -/
theorem windowLaw_of_declared {s : State} (t : List Event) (x y w h : Nat) (hsel : s.busSel = true)
    (htrace : s.trace = t ++ windowEvents x y w h) : s.windowLaw := by
  refine fun _ => ⟨hsel, ?_⟩
  rw [htrace, traceBytes_append, traceBytes_window, List.getLast?_append]
  rfl

/-- Settles O42: SETWINDOW ends with its command 0x2C, what sends nothing changes nothing, and every other instruction leaves the
window closed: BEGIN and the drawing operations start outside a bracket, where they find it closed. -/
theorem windowLawKept : Obligations.WindowLawKept := by
  intro i s t hp hwrite hs hexec
  obtain ⟨-, -, rfl⟩ | ⟨on, cs, -, -, -, rfl⟩ | ⟨x, y, w, h, color, -, -, -, -, rfl⟩ | ⟨x, y, w, h, data, -, -, -, -, -, rfl⟩ |
    ⟨x, y, g, fg, bg, scale, c, r, rs, -, hsel, -, -, -, rfl⟩ | ⟨x, y, fg, bg, scale, text, c, r, rs, -, hsel, -, -, -, rfl⟩ |
    ⟨-, hsel, rfl⟩ | ⟨-, -, rfl⟩ | ⟨dc, d, bs, hi, -, -, -⟩ | ⟨x, y, w, h, -, hsel, -, -, rfl⟩ | ⟨color, -, -, -, rfl⟩ |
    ⟨data, -, -, -, -, rfl⟩ | ⟨b, -, rfl⟩ | ⟨g, c, -, rfl⟩ | ⟨c, ps, -, -, rfl⟩ := exec_next i s t hp hexec
  · exact windowLaw_of_closed rfl -- init
  · exact windowLaw_of_closed rfl -- setPower
  · exact windowLaw_of_closed rfl -- fillRect
  · exact windowLaw_of_closed rfl -- blitImage
  · exact windowLaw_of_closed (drawRects_win_closed rs s hp (win_closed_of_unselected hs hsel)) -- drawChar
  · exact windowLaw_of_closed (drawRects_win_closed rs s hp (win_closed_of_unselected hs hsel)) -- printLine
  · exact windowLaw_of_closed (win_closed_of_unselected (s := s) hs hsel) -- beginTx
  · exact windowLaw_of_closed rfl -- endTx
  · exact absurd hi (hwrite dc bs) -- write
  · exact windowLaw_of_declared s.trace _ _ _ _ hsel rfl -- setWindow
  · exact windowLaw_of_closed rfl -- fill
  · exact windowLaw_of_closed rfl -- blit
  · exact hs -- decode
  · exact hs -- glyphCol
  · exact windowLaw_of_closed rfl -- bus commands

/-! ## The sleep and display commands at a ready controller -/

/-- What each of the four OPEN commands makes of the sleep and the display register, in this order (rule R147). -/
inductive PowerCommand (q : Params) : Byte → Bool → Bool → Bool → Bool → Prop where
  | sleepIn (asleep shown : Bool) : PowerCommand q q.cmdSleepIn asleep shown true shown
  | sleepOut (asleep shown : Bool) : PowerCommand q q.cmdSleepOut asleep shown false shown
  | displayOn (asleep shown : Bool) : PowerCommand q q.cmdDisplayOn asleep shown asleep true
  | displayOff (asleep shown : Bool) : PowerCommand q q.cmdDisplayOff asleep shown asleep false

/-- From `p` to `p'` the sleep and the display register take the values given and every other register is kept, the frame memory
under `frameKept` only (note N14; log entry 14). -/
def Switches (q : Params) (sleeps shows : Bool) (p p' : Panel) : Prop :=
  p' = { p with asleep := sleeps, displayOn := shows, frame := p'.frame, epoch := p'.epoch, free := p'.free } ∧
    (q.frameKept = true → ∀ px py, p'.pixel px py = p.pixel px py)

theorem Switches.trans {q : Params} {a b c d : Bool} {p p' p'' : Panel} (h : Switches q a b p p') (h' : Switches q c d p' p'') :
    Switches q c d p p'' := by
  obtain ⟨hregs, hframe⟩ := h
  obtain ⟨hregs', hframe'⟩ := h'
  refine ⟨?_, fun hkept px py => (hframe' hkept px py).trans (hframe hkept px py)⟩
  calc p'' = { p' with asleep := c, displayOn := d, frame := p''.frame, epoch := p''.epoch, free := p''.free } := hregs'
    _ = { p with asleep := c, displayOn := d, frame := p''.frame, epoch := p''.epoch, free := p''.free } := by rw [hregs]

/-- A switched controller keeps its phase and its mode, and its two registers are the ones given. -/
theorem Switches.registers {q : Params} {sleeps shows : Bool} {p p' : Panel} (h : Switches q sleeps shows p p') :
    p'.phase = p.phase ∧ p'.mode = p.mode ∧ p'.asleep = sleeps ∧ p'.displayOn = shows := by
  rw [h.1]
  exact ⟨rfl, rfl, rfl, rfl⟩

theorem Switches.setAsleep {q : Params} {sleeps shows : Bool} {p p' : Panel} (h : Switches q sleeps shows p p') (b : Bool) :
    Switches q b shows p { p' with asleep := b } := ⟨congrArg (fun r : Panel => { r with asleep := b }) h.1, h.2⟩

theorem Switches.setDisplayOn {q : Params} {sleeps shows : Bool} {p p' : Panel} (h : Switches q sleeps shows p p') (b : Bool) :
    Switches q sleeps b p { p' with displayOn := b } := ⟨congrArg (fun r : Panel => { r with displayOn := b }) h.1, h.2⟩

/-- The frame memory is carried over or becomes free, and no register is touched. -/
theorem switches_carry (q : Params) (p : Panel) : Switches q p.asleep p.displayOn p (Panel.carry q p) := by
  rw [Panel.carry]
  split
  case isTrue => exact ⟨rfl, fun _ _ _ => rfl⟩
  case isFalse hlost => exact ⟨rfl, fun hkept => absurd hkept hlost⟩

/-- When the seven command bytes differ, each of the four OPEN ones means the command of its own row (log entry 16). -/
theorem openCommand_of_distinct (q : Params) (hq : q.distinctCmds) :
    openCommand q q.cmdSleepIn = some .sleepIn ∧ openCommand q q.cmdSleepOut = some .sleepOut ∧
      openCommand q q.cmdDisplayOn = some .displayOn ∧ openCommand q q.cmdDisplayOff = some .displayOff := by
  simp only [Params.distinctCmds, List.nodup_cons, List.mem_cons, List.not_mem_nil, or_false, not_or] at hq
  obtain ⟨-, -, -, ⟨hinOut, hinOn, hinOff⟩, ⟨houtOn, houtOff⟩, honOff, -⟩ := hq
  simp [openCommand, openCommands, hinOut, hinOn, hinOff, houtOn, houtOff, honOff, Ne.symm hinOut, Ne.symm hinOn,
    Ne.symm hinOff, Ne.symm houtOn, Ne.symm houtOff, Ne.symm honOff]

/-- A command byte that is none of the three fixed ones, at a ready controller that waits for no data. -/
theorem observe_open (q : Params) (p : Panel) (hph : p.phase = .ready) (hm : p.mode = .idle) (c : Byte)
    (hc : c ∉ [0x2A, 0x2B, 0x2C]) : Panel.observe q p (.wr .cmd [c]) = p.power q c (openCommand q c) := by
  simp only [List.mem_cons, List.not_mem_nil, or_false, not_or] at hc
  obtain ⟨hcol, hrow, hmem⟩ := hc
  rw [observe_cmd q p hph hm, if_neg hcol, if_neg hrow, if_neg hmem]

/-- When the seven command bytes differ, the byte of one of the four commands is none of the three fixed ones. -/
theorem PowerCommand.not_fixed {q : Params} {c : Byte} {asleep shown sleeps shows : Bool}
    (hc : PowerCommand q c asleep shown sleeps shows) (hq : q.distinctCmds) : c ∉ [0x2A, 0x2B, 0x2C] := by
  have hopen : c ∈ [q.cmdSleepIn, q.cmdSleepOut, q.cmdDisplayOn, q.cmdDisplayOff] := by cases hc <;> simp
  exact fun hfixed => List.disjoint_of_nodup_append (l₁ := [0x2A, 0x2B, 0x2C]) hq hfixed hopen

/-- Each of the four commands switches its own register (rules R143, R147). -/
theorem observe_powerCommand (q : Params) (hq : q.distinctCmds) (p : Panel) (hph : p.phase = .ready) (hm : p.mode = .idle)
    (c : Byte) (sleeps shows : Bool) (hc : PowerCommand q c p.asleep p.displayOn sleeps shows) :
    Switches q sleeps shows p (Panel.observe q p (.wr .cmd [c])) := by
  obtain ⟨hin, hout, hon, hoff⟩ := openCommand_of_distinct q hq
  rw [observe_open q p hph hm c (hc.not_fixed hq)]
  cases hc with
  | sleepIn => rw [hin]; exact (switches_carry q p).setAsleep true
  | sleepOut => rw [hout]; exact (switches_carry q p).setAsleep false
  | displayOn => rw [hon]; exact (switches_carry q p).setDisplayOn true
  | displayOff => rw [hoff]; exact (switches_carry q p).setDisplayOn false

/-- A bracket with two of the commands: the second finds the registers as the first left them, and the release of select finds no
command in progress. -/
theorem observe_powerEvents (q : Params) (hq : q.distinctCmds) (p : Panel) (hph : p.phase = .ready) (hm : p.mode = .idle)
    {c d : Byte} {asleep shown sleeps shows : Bool} (hc : PowerCommand q c p.asleep p.displayOn asleep shown)
    (hd : PowerCommand q d asleep shown sleeps shows) :
    Switches q sleeps shows p ((powerEvents [c, d]).foldl (Panel.observe q) p) := by
  have hfirst := observe_powerCommand q hq p hph hm c asleep shown hc
  obtain ⟨hph1, hm1, hasleep, hshown⟩ := hfirst.registers
  have hboth := hfirst.trans (observe_powerCommand q hq _ (hph1.trans hph) (hm1.trans hm) d sleeps shows
    (by rw [hasleep, hshown]; exact hd))
  obtain ⟨hph2, hm2, -⟩ := hboth.registers
  have hrelease : ∀ r : Panel, r.phase = .ready → r.mode = .idle → Panel.observe q r (.sel false) = r := by
    intro r hr hidle
    simp only [Panel.observe, hr, endCommand_idle r hidle]
  rw [← hrelease _ (hph2.trans hph) (hm2.trans hm)] at hboth
  exact hboth

/-- The two lists of SETPOWER, in either order (rule R6, note N6). -/
theorem observe_setPower (q : Params) (hok : q.ok) (hq : q.distinctCmds) (p : Panel) (hph : p.phase = .ready)
    (hm : p.mode = .idle) :
    Switches q false true p ((powerEvents q.pwrOnCmds).foldl (Panel.observe q) p) ∧
      Switches q true false p ((powerEvents q.pwrOffCmds).foldl (Panel.observe q) p) := by
  obtain ⟨-, -, -, -, hon, hoff⟩ := hok
  constructor
  · obtain hon | hon := hon <;> rw [hon]
    · exact observe_powerEvents q hq p hph hm (.sleepOut _ _) (.displayOn _ _)
    · exact observe_powerEvents q hq p hph hm (.displayOn _ _) (.sleepOut _ _)
  · obtain hoff | hoff := hoff <;> rw [hoff]
    · exact observe_powerEvents q hq p hph hm (.sleepIn _ _) (.displayOff _ _)
    · exact observe_powerEvents q hq p hph hm (.displayOff _ _) (.sleepIn _ _)

/-- Settles O56: SETPOWER by its list, each bus command by its one event. -/
theorem setPowerSwitchesThePanel : Obligations.SetPowerSwitchesThePanel := by
  intro s hok hq hph hm i sleeps shows hrow
  obtain ⟨hpowerOn, hpowerOff⟩ := observe_setPower s.params hok hq s.panel hph hm
  have command : ∀ (c : Byte), s.busSel = true → exec i s = frameOp c [] s →
      PowerCommand s.params c s.panel.asleep s.panel.displayOn sleeps shows →
      ∃ t, exec i s = .next t ∧ Switches s.params sleeps shows s.panel t.panel := by
    intro c hsel hexec hc
    exact ⟨_, hexec.trans (frameOp_of_selected c [] s hsel), observe_powerCommand s.params hq s.panel hph hm c sleeps shows hc⟩
  obtain ⟨hsel, rfl, rfl, rfl⟩ | ⟨hsel, rfl, rfl, rfl⟩ | ⟨hsel, rfl, rfl, rfl⟩ | ⟨hsel, rfl, rfl, rfl⟩ |
    ⟨hsel, rfl, rfl, rfl⟩ | ⟨hsel, rfl, rfl, rfl⟩ := hrow
  · exact ⟨_, exec_setPower_of_unselected s hsel 1 _ (.inl ⟨rfl, rfl⟩), hpowerOn⟩
  · exact ⟨_, exec_setPower_of_unselected s hsel 0 _ (.inr ⟨rfl, rfl⟩), hpowerOff⟩
  · exact command _ hsel rfl (.sleepIn _ _)
  · exact command _ hsel rfl (.sleepOut _ _)
  · exact command _ hsel rfl (.displayOn _ _)
  · exact command _ hsel rfl (.displayOff _ _)

/-! ## The address commands, MEM_WRITE and configuration frames at a ready controller -/

/-- A byte that none of the four OPEN commands has means none of them (log entry 16). -/
theorem openCommand_eq_none (q : Params) (c : Byte)
    (hc : c ∉ [q.cmdSleepIn, q.cmdSleepOut, q.cmdDisplayOn, q.cmdDisplayOff]) :
    (openCommands q).all (fun m => m.1 != c) = true ∧ openCommand q c = none := by
  simp only [List.mem_cons, List.not_mem_nil, or_false, not_or] at hc
  obtain ⟨hin, hout, hon, hoff⟩ := hc
  simp [openCommand, openCommands, Ne.symm hin, Ne.symm hout, Ne.symm hon, Ne.symm hoff]

/-- The command of an entry of `INIT_CFG` that is none of the seven opens a configuration frame (rule R148). -/
theorem observe_cfgCommand (q : Params) (p : Panel) (hph : p.phase = .ready) (hm : p.mode = .idle) (e : CfgEntry)
    (he : e ∈ q.initCfg) (hfixed : e.cmd ∉ [0x2A, 0x2B, 0x2C])
    (hopen : e.cmd ∉ [q.cmdSleepIn, q.cmdSleepOut, q.cmdDisplayOn, q.cmdDisplayOff]) :
    Panel.observe q p (.wr .cmd [e.cmd]) =
      { p.blur with mode := .config, config := p.config ++ [{ cmd := e.cmd, params := [] }] } := by
  obtain ⟨hall, hnone⟩ := openCommand_eq_none q e.cmd hopen
  have hany : q.initCfg.any (fun f => f.cmd == e.cmd) = true := List.any_eq_true.2 ⟨e, he, beq_self_eq_true e.cmd⟩
  rw [observe_open q p hph hm e.cmd hfixed, hnone,
    show p.power q e.cmd none = p.configure q e.cmd from rfl, Panel.configure, hany, hall]
  rfl

/-- The whole frame of such an entry, with its parameters, is recorded (rule R148; log entry 18). -/
theorem observe_cfgFrame (q : Params) (p : Panel) (hph : p.phase = .ready) (hm : p.mode = .idle) (e : CfgEntry)
    (he : e ∈ q.initCfg) (hfixed : e.cmd ∉ [0x2A, 0x2B, 0x2C])
    (hopen : e.cmd ∉ [q.cmdSleepIn, q.cmdSleepOut, q.cmdDisplayOn, q.cmdDisplayOff]) :
    (frameEvents e.cmd e.params).foldl (Panel.observe q) p =
      { p.blur with mode := .config, config := p.config ++ [e] } := by
  rw [frameEvents, List.foldl_cons, observe_cfgCommand q p hph hm e he hfixed hopen]
  obtain ⟨c, ps⟩ := e
  by_cases hps : ps = []
  · rw [hps, if_pos rfl, List.foldl_nil]
  · rw [if_neg hps, List.foldl_cons, List.foldl_nil,
      observe_dat q { p.blur with mode := .config, config := p.config ++ [{ cmd := c, params := [] }] } hph]
    simp only [Panel.data, addParams_append, List.nil_append]

/-- An ordered pair of columns and one of rows below 240 are a window on the panel (rules R58, R63). -/
theorem window_ne_none (p : Panel) (hcols : p.cols.declared = true) (hrows : p.rows.declared = true)
    (hc : p.cols.first.toNat ≤ p.cols.last.toNat) (hcw : p.cols.last.toNat < 240)
    (hr : p.rows.first.toNat ≤ p.rows.last.toNat) (hrh : p.rows.last.toNat < 240) : p.window ≠ none := by
  have hdeclared : p.declared = true := by rw [Panel.declared, hcols, hrows, Bool.and_self]
  rw [Panel.window, if_pos ⟨hdeclared, hc, hr, hcw, hrh⟩]
  exact Option.some_ne_none _

/-- Settles O57: each bus command is one frame, and the controller has taken it. -/
theorem addressCommandsDeclare : Obligations.AddressCommandsDeclare := by
  intro s sh sl eh el hsel hph hm
  refine ⟨⟨_, frameOp_of_selected _ _ s hsel, observe_col s.params s.panel hph hm sh sl eh el⟩,
    ⟨_, frameOp_of_selected _ _ s hsel, observe_row s.params s.panel hph hm sh sl eh el⟩, ?_,
    be16_toNat sh sl, be16_toNat eh el, ?_⟩
  · intro hcols hrows hc hcw hr hrh
    exact ⟨_, frameOp_of_selected _ _ s hsel,
      observe_memWrite s.params s.panel hph hm (window_ne_none s.panel hcols hrows hc hcw hr hrh)⟩
  · intro n e hentry hcmd
    have hexec : exec (.cfg n) s = frameOp e.cmd e.params s := by simp only [exec, execCfg, hentry]
    have hapart : e.cmd ∉ [0x2A, 0x2B, 0x2C] ∧ e.cmd ∉ [s.params.cmdSleepIn, s.params.cmdSleepOut, s.params.cmdDisplayOn,
        s.params.cmdDisplayOff] := not_or.1 (fun h => hcmd (List.mem_append.2 h))
    refine ⟨_, hexec.trans (frameOp_of_selected _ _ s hsel), ?_⟩
    rw [emitAll_panel, observe_cfgFrame s.params s.panel hph hm e (List.mem_of_getElem? hentry) hapart.1 hapart.2]
    exact ⟨hph, rfl, rfl, rfl, rfl, rfl⟩

end Sys2Proof.Machine
end

section
/-! The Pixel Streamer: the chunks of a stream, what `TXBUF` holds after it, and FILL, BLIT, FILLRECT and BLITIMAGE (rules R151 to
R158). -/

namespace Sys2Proof.Machine

/-! ## The chunks of a stream -/

/-- Chunk `k` is what the stream has from byte `cap × k` on, up to the capacity (rule R151). -/
theorem cutChunks_getElem? (cap fuel : Nat) (bs : List Byte) (k : Nat) (c : List Byte)
    (hc : (cutChunks cap fuel bs)[k]? = some c) : c = (bs.drop (cap * k)).take cap := by
  induction fuel generalizing bs k with
  | zero => cases hc
  | succ fuel ih =>
    by_cases hbs : bs = []
    · rw [hbs, cutChunks_nil] at hc
      cases hc
    · rw [cutChunks, if_neg hbs] at hc
      cases k with
      | zero => exact (Option.some.inj hc).symm
      | succ k => rw [ih (bs.drop cap) k hc, List.drop_drop, Nat.mul_succ, Nat.add_comm]

/-- The number of chunks (rule R151). -/
theorem chunksOf_length (cap : Nat) (hcap : 1 ≤ cap) (bs : List Byte) :
    (chunksOf cap bs).length = (bs.length + cap - 1) / cap :=
  cutChunks_length cap hcap _ bs (Nat.le_refl _)

/-- A byte count that is not 0 is some full chunks and a last one, which is not empty; the ceiling of rule R151 counts them all. -/
theorem exists_fullChunks_lastChunk (cap n : Nat) (hcap : 1 ≤ cap) (hn : 1 ≤ n) :
    ∃ full last, n = cap * full + last ∧ 1 ≤ last ∧ last ≤ cap ∧ (n + cap - 1) / cap = full + 1 := by
  have hdiv := Nat.div_add_mod (n - 1) cap
  have hmod := Nat.mod_lt (n - 1) hcap
  refine ⟨(n - 1) / cap, (n - 1) % cap + 1, by omega, by omega, hmod, ?_⟩
  rw [show n + cap - 1 = n - 1 + cap by omega, Nat.add_div_right _ hcap]

/-- Settles O18: chunk `k` starts at byte `cap × k`, and only the last one finds less than the capacity there. -/
theorem chunksCutTheStream : Obligations.ChunksCutTheStream := by
  refine fun cap bs hcap => ⟨chunksOf_flatten cap hcap bs, chunksOf_length cap hcap bs, fun k c hc => ?_⟩
  have hlen : c.length = min cap (bs.length - cap * k) := by
    rw [cutChunks_getElem? cap _ bs k c hc, List.length_take, List.length_drop]
  have hn : 1 ≤ bs.length := by
    refine List.length_pos_of_ne_nil fun hbs => ?_
    rw [hbs] at hc
    cases hc
  obtain ⟨full, last, hsplit, hpos, hle, hcount⟩ := exists_fullChunks_lastChunk cap bs.length hcap hn
  rw [chunksOf_length cap hcap, hcount]
  constructor
  · intro hk
    have := Nat.mul_le_mul_left cap (Nat.lt_of_succ_lt_succ hk)
    rw [Nat.mul_succ] at this
    omega
  · intro hk
    obtain rfl := Nat.succ.inj hk
    omega

/-! ## What `TXBUF` holds after a stream -/

/-- After a stream, an address below the capacity holds the last byte of the stream whose number leaves that address modulo the
capacity, if there is one (rule R156). -/
theorem loadChunks_cutChunks_read (cap : Nat) (hcap : 1 ≤ cap) (fuel : Nat) (bs : List Byte) (hf : bs.length ≤ fuel) (m : Memory)
    (a : Nat) (ha : a < cap) :
    (loadChunks (cutChunks cap fuel bs) m).read a =
      if a < bs.length then bs[cap * ((bs.length - 1 - a) / cap) + a]? else m.read a := by
  induction fuel generalizing bs m with
  | zero => rw [if_neg (by omega)]; rfl
  | succ fuel ih =>
    by_cases hbs : bs = []
    · subst hbs; rfl
    · have hload : loadChunks (cutChunks cap (fuel + 1) bs) m =
          loadChunks (cutChunks cap fuel (bs.drop cap)) (m.writeRun 0 (bs.take cap)) := by
        rw [cutChunks, if_neg hbs]; rfl
      have hpos := List.length_pos_of_ne_nil hbs
      rw [hload, ih (bs.drop cap) (by rw [List.length_drop]; omega), List.length_drop, List.getElem?_drop,
        Memory.read_writeRun, List.length_take]
      by_cases hlater : a < bs.length - cap
      · -- a later chunk writes the address
        rw [if_pos hlater, if_pos (by omega), show bs.length - 1 - a = bs.length - cap - 1 - a + cap by omega,
          Nat.add_div_right _ hcap, Nat.mul_succ, Nat.add_comm cap, Nat.add_right_comm]
      · rw [if_neg hlater]
        by_cases hthis : a < bs.length
        · -- the chunk in front is the last that does
          rw [if_pos (by omega), if_pos hthis, Nat.div_eq_of_lt (by omega), Nat.sub_zero, List.getElem?_take_of_lt ha,
            Nat.mul_zero, Nat.zero_add]
        · rw [if_neg (by omega), if_neg hthis]

/-- Settles O23: the addresses below the end of the last chunk get its bytes, those above it the bytes of the chunk before. -/
theorem txbufAfterAStream : Obligations.TxbufAfterAStream := by
  intro cap bs m hcap hbs k last
  obtain ⟨full, r, hsplit, hpos, hle, hcount⟩ :=
    exists_fullChunks_lastChunk cap bs.length hcap (List.length_pos_of_ne_nil hbs)
  have hk : k = full + 1 := hcount
  have hlast : last = r := by
    simp only [last, hk, Nat.add_sub_cancel]
    omega
  have hread (a : Nat) (ha : a < cap) := loadChunks_cutChunks_read cap hcap bs.length bs (Nat.le_refl _) m a ha
  rw [hlast, hk]
  refine ⟨fun a ha => ?_, fun a hra ha => ?_, fun a ha => ?_⟩
  · have hdiv : (bs.length - 1 - a) / cap = full := by
      rw [show bs.length - 1 - a = cap * full + (r - 1 - a) by omega, Nat.mul_add_div hcap, Nat.div_eq_of_lt (by omega),
        Nat.add_zero]
    rw [chunksOf, hread a (by omega), if_pos (by omega), hdiv, Nat.add_sub_cancel]
  · obtain ⟨before, rfl⟩ : ∃ before, full = before + 1 := by
      refine Nat.exists_eq_succ_of_ne_zero fun h0 => ?_
      rw [h0] at hsplit
      omega
    have hdiv : (bs.length - 1 - a) / cap = before := by
      rw [Nat.mul_succ] at hsplit
      rw [show bs.length - 1 - a = cap * before + (cap + r - 1 - a) by omega, Nat.mul_add_div hcap,
        Nat.div_eq_of_lt (by omega), Nat.add_zero]
    rw [chunksOf, hread a (by omega), if_pos (by omega), hdiv]
    rfl
  · by_cases hac : a < cap
    · rw [chunksOf, hread a hac, if_neg (by omega)]
    · exact loadChunks_read_ge _ m cap (cutChunks_le cap _ bs) a (Nat.not_lt.1 hac)

/-! ## FILL -/

/-- FILL completes in a bracket with a window open (rule R152). -/
theorem exec_fill_of_open (s : State) (color : Half) (hp : s.params.ok) (hsel : s.busSel = true) (hopen : s.win.isOpen = true) :
    exec (.fill color) s =
      .next { emitAll (streamEvents s.params.txbufCap (colorStream (s.win.w * s.win.h) color)) s with
        win := { s.win with isOpen := false }
        rem := 0
        txbuf := loadChunks (chunksOf s.params.txbufCap (colorStream (s.win.w * s.win.h) color)) s.txbuf
        result := .none } := by
  rw [exec, execFill, if_pos hsel, if_pos hopen, fillOp_eq color s hp, finish_eq]
  rfl

/-- Settles O19: the select bit is tested before the window. -/
theorem fillCompletes : Obligations.FillCompletes := by
  refine fun s color hp => ⟨exec_fill_of_open s color hp, fun hsel => ?_, fun hsel hclosed => ?_⟩
  · rw [exec, execFill, hsel, if_neg Bool.false_ne_true]
  · rw [exec, execFill, if_pos hsel, hclosed, if_neg Bool.false_ne_true]

/-- A pixel stream sends its bytes, all of them data (rules R84, R151). -/
theorem traceBytes_stream (cap : Nat) (hcap : 1 ≤ cap) (bs : List Byte) :
    traceBytes (streamEvents cap bs) = bs.map (fun b => (DC.dat, b)) := by
  rw [streamEvents, traceBytes_chunks, chunksOf_flatten cap hcap]

/-- The number of events of a pixel stream (rule R151). -/
theorem streamEvents_length (cap : Nat) (hcap : 1 ≤ cap) (bs : List Byte) :
    (streamEvents cap bs).length = (bs.length + cap - 1) / cap := by
  rw [streamEvents, List.length_map, chunksOf_length cap hcap]

/-- Settles O20: the stream has one colour, of two bytes, for every pixel. -/
theorem fillStreamLaw : Obligations.FillStreamLaw := by
  intro s color hp hsel hopen
  have hcap : 1 ≤ s.params.txbufCap := Nat.le_of_succ_le hp.2.1
  refine ⟨_, _, exec_fill_of_open s color hp hsel hopen, rfl, ?_, ?_⟩
  · rw [traceBytes_stream _ hcap, colorStream, List.map_flatten, List.map_replicate]
    rfl
  · rw [streamEvents_length _ hcap, colorStream_length, Nat.mul_assoc]

/-! ## BLIT -/

/-- BLIT completes in a bracket with a window open, if the buffer has enough bytes for it (rule R154). -/
theorem exec_blit_of_open (s : State) (data : List Byte) (hp : s.params.ok) (hsel : s.busSel = true) (hopen : s.win.isOpen = true)
    (hlen : 2 * s.win.w * s.win.h ≤ data.length) :
    exec (.blit data) s =
      .next { emitAll (streamEvents s.params.txbufCap (data.take (2 * s.win.w * s.win.h))) s with
        win := { s.win with isOpen := false }
        rem := 0
        off := 2 * s.win.w * s.win.h
        txbuf := loadChunks (chunksOf s.params.txbufCap (data.take (2 * s.win.w * s.win.h))) s.txbuf
        result := .none } := by
  have hbytes : streamBytes s.win.w s.win.h ≤ data.length := hlen
  rw [exec, execBlit, if_pos hsel, if_pos hopen, if_neg (Nat.not_lt.2 hbytes), blitOp_eq data s hp hbytes, finish_eq]
  rfl

/-- Settles O21: the select bit is tested first, then the window, then the length of the buffer. -/
theorem blitCompletes : Obligations.BlitCompletes := by
  refine fun s data hp => ⟨exec_blit_of_open s data hp, fun hsel => ?_, fun hsel hclosed => ?_, fun hsel hopen hshort => ?_⟩
  · rw [exec, execBlit, hsel, if_neg Bool.false_ne_true]
  · rw [exec, execBlit, if_pos hsel, hclosed, if_neg Bool.false_ne_true]
  · have hbytes : data.length < streamBytes s.win.w s.win.h := hshort
    rw [exec, execBlit, if_pos hsel, if_pos hopen, if_pos hbytes]

/-- Settles O22: the front of the buffer that BLIT sends is the whole buffer, cut into its chunks. -/
theorem blitRoundTrip : Obligations.BlitRoundTrip := by
  intro s data hp hsel hopen hlen
  have hcap : 1 ≤ s.params.txbufCap := Nat.le_of_succ_le hp.2.1
  have hbytes : data.length = 2 * s.win.w * s.win.h := by rw [hlen, Nat.mul_assoc]
  refine ⟨_, chunksOf s.params.txbufCap data, exec_blit_of_open s data hp hsel hopen hbytes.ge, ?_,
    chunksOf_flatten _ hcap data, ?_⟩
  · rw [← hbytes, List.take_length]
    rfl
  · rw [chunksOf_length _ hcap, hlen]

/-! ## FILLRECT and BLITIMAGE -/

/-- A bracket around a window and a stream sends the eleven bytes of the window and the stream (rules R141, R157, R158). -/
theorem traceBytes_rectangle_length (cap x y w h : Nat) (hcap : 1 ≤ cap) (bs : List Byte) :
    (traceBytes (.sel true :: (windowEvents x y w h ++ streamEvents cap bs ++ [.sel false]))).length = 11 + bs.length := by
  rw [traceBytes_cons, traceBytes_append, traceBytes_append, traceBytes_window, traceBytes_stream cap hcap]
  simp only [eventBytes, traceBytes_cons, traceBytes_nil, List.length_append, List.length_map, List.length_cons, List.length_nil]
  omega

/-- Settles O24: the colour stream of the rectangle has two bytes a pixel, after the eleven of its window. -/
theorem fillRectCompletes : Obligations.FillRectCompletes := by
  intro s x y w h color hp
  have hcap : 1 ≤ s.params.txbufCap := Nat.le_of_succ_le hp.2.1
  refine ⟨fun hsel hw hh => ⟨?_, ?_⟩, fun hsel => ?_, fun hsel hzero => ?_⟩
  · rw [exec, execFillRect, hsel, if_neg Bool.false_ne_true, if_neg (not_or.2 ⟨hw, hh⟩), fillRectOp_eq _ _ _ _ _ _ hp, finish_eq]
  · rw [rectEvents, traceBytes_rectangle_length _ _ _ _ _ hcap, colorStream_length, Nat.mul_assoc]
  · rw [exec, execFillRect, if_pos hsel]
  · rw [exec, execFillRect, hsel, if_neg Bool.false_ne_true, if_pos hzero]

/-- Settles O26, as O24, with the front of the buffer as the stream. -/
theorem blitImageCompletes : Obligations.BlitImageCompletes := by
  intro s x y w h data hp
  have hcap : 1 ≤ s.params.txbufCap := Nat.le_of_succ_le hp.2.1
  refine ⟨fun hsel hw hh hlen => ⟨?_, ?_⟩, fun hsel => ?_, fun hsel hzero => ?_, fun hsel hw hh hshort => ?_⟩
  · have hbytes : streamBytes w.toNat h.toNat ≤ data.length := hlen
    rw [exec, execBlitImage, hsel, if_neg Bool.false_ne_true, if_neg (not_or.2 ⟨hw, hh⟩), if_neg (Nat.not_lt.2 hbytes),
      blitImageOp_eq _ _ _ _ _ _ hp hbytes, finish_eq]
    rfl
  · rw [imageEvents, traceBytes_rectangle_length _ _ _ _ _ hcap, List.length_take_of_le hlen]
  · rw [exec, execBlitImage, if_pos hsel]
  · rw [exec, execBlitImage, hsel, if_neg Bool.false_ne_true, if_pos hzero]
  · have hbytes : data.length < streamBytes w.toNat h.toNat := hshort
    rw [exec, execBlitImage, hsel, if_neg Bool.false_ne_true, if_neg (not_or.2 ⟨hw, hh⟩), if_pos hbytes]

end Sys2Proof.Machine
end

section
/-! GLYPHCOL and DRAWCHAR complete or are refused, and what one DRAWCHAR appends to the trace (rules R176, R178, R180). -/

namespace Sys2Proof.Machine

/-- Settles O28: the layout of the descriptor, and the meaning on either side of the last column. -/
theorem glyphColReadsTheRom : Obligations.GlyphColReadsTheRom := by
  refine fun s g c => ⟨fun _ => rfl, fun hc => ?_, fun hc => ?_⟩
  · have hcol : c.toNat < Config.glyphCols := Nat.lt_succ_of_le hc
    rw [exec, execGlyphCol, if_pos hcol, finish_eq]
    rfl
  · have hcol : ¬ c.toNat < Config.glyphCols := Nat.not_lt.2 hc
    rw [exec, execGlyphCol, if_neg hcol]

/-! ## DRAWCHAR as an instruction -/

theorem drawnGlyph_eq_false {g : Byte} (hg : g.toNat < 32) : drawnGlyph g = false :=
  decide_eq_false (Nat.not_le.2 hg)

theorem drawnGlyph_eq_true {g : Byte} (hg : 32 ≤ g.toNat) : drawnGlyph g = true := decide_eq_true hg

/-- DRAWCHAR completes outside a bracket at a scale that is not 0 (rule R178). -/
theorem exec_drawChar_of_unselected (s : State) (x y : Half) (g : Byte) (fg bg scale : Half) (hsel : s.busSel = false)
    (hscale : scale ≠ 0) :
    exec (.drawChar x y g fg bg scale) s =
      .next { drawCharOp { x := x.toNat, y := y.toNat, g := g, fg := fg, bg := bg, scale := scale.toNat } s with
        result := .drawn (drawnGlyph g) } := by
  rw [exec, execDrawChar, hsel, if_neg Bool.false_ne_true, if_neg hscale, finish_eq]

/-- The rectangles of a drawn glyph write none of the registers of a composer, so DRAWCHAR adds to them its own two registers only. -/
theorem drawCharOp_of_drawn (a : CharArgs) (s : State) (hp : s.params.ok) (hg : 32 ≤ a.g.toNat) :
    drawCharOp a s = { drawRects (charRects a s) s with col := 4, row := 7 } := by
  rw [drawCharOp_eq a s hp, if_neg (Nat.not_lt.2 hg), drawRects_eq _ s hp]
  rfl

/-- Settles O29: the bracket is tested before the scale, and a control index leaves the state as it was. -/
theorem drawCharCompletes : Obligations.DrawCharCompletes := by
  intro s x y g fg bg scale hp
  refine ⟨fun hsel hscale hg => ?_, fun hsel hscale hg => ?_, fun hsel => ?_, fun hsel hscale => ?_⟩
  · rw [exec_drawChar_of_unselected s x y g fg bg scale hsel hscale, drawCharOp_eq _ s hp, if_pos hg, drawnGlyph_eq_false hg]
  · rw [exec_drawChar_of_unselected s x y g fg bg scale hsel hscale, drawCharOp_of_drawn _ s hp hg, drawnGlyph_eq_true hg]
  · rw [exec, execDrawChar, if_pos hsel]
  · rw [exec, execDrawChar, hsel, if_neg Bool.false_ne_true, if_pos hscale]

/-! ## The rectangles of a glyph, in order -/

/-- The cells are numbered down each column, the columns left to right (rule R178). -/
theorem cellOrder_eq_range : cellOrder = (List.range 40).map (fun k => (k / 8, k % 8)) := by decide

/-- An opaque glyph is the square of every cell, in the colour its bit says, and the spacing column (rule R178). -/
theorem charRects_opaque (a : CharArgs) (s : State) (hg : 32 ≤ a.g.toNat) (hopaque : a.bg ≠ a.fg) :
    charRects a s =
      (List.range 40).map (fun k => a.square (k / 8) (k % 8) (if cellSet a (k / 8) (k % 8) s then a.fg else a.bg)) ++
        [a.spacing] := by
  have hcell : cellRect a s = fun cr => some (a.square cr.1 cr.2 (if cellSet a cr.1 cr.2 s then a.fg else a.bg)) :=
    funext fun cr => (cellRect_eq_some a s cr.1 cr.2 _).2 ⟨.inr hopaque, rfl⟩
  rw [charRects, if_neg (Nat.not_lt.2 hg), if_neg hopaque, hcell, List.filterMap_eq_map', cellOrder_eq_range, List.map_map]
  rfl

/-- A transparent glyph is the squares of its set bits (rule R178). -/
theorem charRects_transparent (a : CharArgs) (s : State) (hg : 32 ≤ a.g.toNat) (hclear : a.bg = a.fg) :
    charRects a s =
      ((List.range 40).filter (fun k => cellSet a (k / 8) (k % 8) s)).map (fun k => a.square (k / 8) (k % 8) a.fg) := by
  rw [charRects, if_neg (Nat.not_lt.2 hg), if_pos hclear, List.append_nil, cellOrder_eq_range, List.filterMap_map,
    ← List.filterMap_eq_map, List.filterMap_filter]
  refine List.filterMap_congr fun k _ => ?_
  rw [Function.comp_apply, cellRect, if_pos hclear]
  rfl

/-! ## The number of rectangles of a glyph -/

/-- A column shows as many set bits from the top down as from the bottom up (rule R57). -/
theorem countP_rows (p : Nat → Bool) (top : Bool) :
    (List.range 8).countP (fun r => p (if top then r else 7 - r)) = (List.range 8).countP p := by
  cases top with
  | true => rfl
  | false =>
    have hreverse : (List.range 8).map (fun r => 7 - r) = (List.range 8).reverse := by decide
    rw [← List.countP_reverse (l := List.range 8), ← hreverse, List.countP_map]
    rfl

/-- As many cells of a glyph are set as there are set bits in its five bytes (rule R178). -/
theorem countP_cellSet (a : CharArgs) (s : State) :
    (List.range 40).countP (fun k => cellSet a (k / 8) (k % 8) s) = glyphPopcount s a.g := by
  have hcolumn (c : Nat) :
      ((List.range 8).map (fun r => (c, r))).countP (fun cr => cellSet a cr.1 cr.2 s) =
        (List.range 8).countP (fun b => romBit s a.g c b) := by
    rw [← countP_rows _ s.params.glyphBit0IsTop, List.countP_map]
    exact List.countP_congr fun r _ => by rw [Function.comp_apply, cellSet_eq, romBit]
  calc (List.range 40).countP (fun k => cellSet a (k / 8) (k % 8) s)
    _ = cellOrder.countP (fun cr => cellSet a cr.1 cr.2 s) := by rw [cellOrder_eq_range, List.countP_map]; rfl
    _ = glyphPopcount s a.g := by
      rw [cellOrder, List.countP_flatMap, glyphPopcount]
      exact congrArg List.sum (List.map_congr_left fun c _ => hcolumn c)

theorem charRects_opaque_length (a : CharArgs) (s : State) (hg : 32 ≤ a.g.toNat) (hopaque : a.bg ≠ a.fg) :
    (charRects a s).length = 41 := by
  rw [charRects_opaque a s hg hopaque, List.length_append, List.length_map, List.length_range, List.length_singleton]

theorem charRects_transparent_length (a : CharArgs) (s : State) (hg : 32 ≤ a.g.toNat) (hclear : a.bg = a.fg) :
    (charRects a s).length = glyphPopcount s a.g := by
  rw [charRects_transparent a s hg hclear, List.length_map, ← List.countP_eq_length_filter, countP_cellSet]

/-! ## The events of rectangles filled one after the other -/

/-- A pixel stream has no event of the bracket. -/
theorem count_sel_stream (b : Bool) (cap : Nat) (bs : List Byte) : (streamEvents cap bs).count (.sel b) = 0 := by
  rw [List.count_eq_zero, streamEvents, List.mem_map]
  rintro ⟨_, _, h⟩
  cases h

/-- A rectangle is one bracket (rule R157). -/
theorem count_sel_rect (b : Bool) (cap : Nat) (r : Rect) : (rectEvents cap r.x r.y r.w r.h r.color).count (.sel b) = 1 := by
  rw [rectEvents, List.count_cons, List.count_append, List.count_append, count_sel_stream]
  cases b <;> rfl

/-- Rectangles open and close one bracket each. -/
theorem count_sel_rects (b : Bool) (cap : Nat) (rs : List Rect) :
    (rs.flatMap (fun r => rectEvents cap r.x r.y r.w r.h r.color)).count (.sel b) = rs.length := by
  induction rs with
  | nil => rfl
  | cons r rs ih => rw [List.flatMap_cons, List.count_append, count_sel_rect, ih, Nat.add_comm, List.length_cons]

/-- The number of bytes of a rectangle: eleven for its window, two for each pixel (rule R157). -/
def Rect.busBytes (r : Rect) : Nat := 11 + 2 * (r.w * r.h)

theorem traceBytes_rects_length (cap : Nat) (hcap : 1 ≤ cap) (rs : List Rect) :
    (traceBytes (rs.flatMap (fun r => rectEvents cap r.x r.y r.w r.h r.color))).length = (rs.map Rect.busBytes).sum := by
  induction rs with
  | nil => rfl
  | cons r rs ih =>
    rw [List.flatMap_cons, traceBytes_append, List.length_append, ih, rectEvents, traceBytes_rectangle_length _ _ _ _ _ hcap,
      colorStream_length, List.map_cons, List.sum_cons, Rect.busBytes]

theorem busBytes_square (a : CharArgs) (c r : Nat) (color : Half) : (a.square c r color).busBytes = 11 + 2 * a.scale ^ 2 := by
  rw [Rect.busBytes, CharArgs.square, Nat.pow_two]

theorem busBytes_spacing (a : CharArgs) : a.spacing.busBytes = 11 + 16 * a.scale ^ 2 := by
  rw [Rect.busBytes, CharArgs.spacing]
  ring

/-- Squares of one scale send the same number of bytes each. -/
theorem sum_busBytes_squares (a : CharArgs) (color : Nat → Half) (ks : List Nat) :
    ((ks.map (fun k => a.square (k / 8) (k % 8) (color k))).map Rect.busBytes).sum = ks.length * (11 + 2 * a.scale ^ 2) := by
  have hconst : Rect.busBytes ∘ (fun k => a.square (k / 8) (k % 8) (color k)) = fun _ => 11 + 2 * a.scale ^ 2 :=
    funext fun k => busBytes_square a (k / 8) (k % 8) (color k)
  rw [List.map_map, hconst, List.map_const', List.sum_replicate, smul_eq_mul]

/-! ## What DRAWCHAR appends and the window it leaves -/

theorem drawCharOp_trace (a : CharArgs) (s : State) (hp : s.params.ok) (hg : 32 ≤ a.g.toNat) :
    (drawCharOp a s).trace =
      s.trace ++ (charRects a s).flatMap (fun r => rectEvents s.params.txbufCap r.x r.y r.w r.h r.color) := by
  rw [drawCharOp_of_drawn a s hp hg, drawRects_eq _ s hp]
  rfl

/-- DRAWCHAR leaves the window of its last rectangle, or the one before it when there is none (rules R22, R180). -/
theorem drawCharOp_win (a : CharArgs) (s : State) (hp : s.params.ok) (hg : 32 ≤ a.g.toNat) :
    (drawCharOp a s).win =
      ((charRects a s).getLast?.map (fun r => ({ x := r.x, y := r.y, w := r.w, h := r.h, isOpen := false } : Window))).getD
        s.win := by
  rw [drawCharOp_of_drawn a s hp hg, drawRects_eq _ s hp]

/-- Settles O30: an opaque glyph has 41 rectangles, a transparent one as many as set bits, and each is one bracket with its bytes. -/
theorem drawCharCounts : Obligations.DrawCharCounts := by
  intro a s hp hg isSet
  have hcap : 1 ≤ s.params.txbufCap := Nat.le_of_succ_le hp.2.1
  have hset (c r : Nat) : isSet c r = cellSet a c r s := (cellSet_eq a c r s).symm
  have hbrackets := count_sel_rects true s.params.txbufCap (charRects a s)
  have hbytes := traceBytes_rects_length s.params.txbufCap hcap (charRects a s)
  have hwin := drawCharOp_win a s hp hg
  refine ⟨⟨_, drawCharOp_trace a s hp hg, rfl, ?_, fun hopaque => ⟨?_, ?_, ?_⟩, fun hclear => ⟨?_, ?_⟩⟩,
    fun hopaque => ⟨?_, fun c r hc hr => ?_, ?_⟩, fun hclear => ?_, fun r hr => ?_, fun hnone => ?_, ?_⟩
  · rw [hbrackets, count_sel_rects]
  · rw [hbrackets, charRects_opaque_length a s hg hopaque]
  · rw [hbytes, charRects_opaque a s hg hopaque, List.map_append, List.sum_append, sum_busBytes_squares, List.map_singleton,
      List.sum_singleton, busBytes_spacing, List.length_range]
  · rw [hwin, charRects_opaque a s hg hopaque, List.getLast?_concat]
    rfl
  · rw [hbrackets, charRects_transparent_length a s hg hclear]
  · rw [hbytes, charRects_transparent a s hg hclear, sum_busBytes_squares, ← List.countP_eq_length_filter, countP_cellSet]
  · exact charRects_opaque_length a s hg hopaque
  · have hk : 8 * c + r < 40 := by omega
    have hcol : (8 * c + r) / 8 = c := by omega
    have hrow : (8 * c + r) % 8 = r := by omega
    rw [charRects_opaque a s hg hopaque, List.getElem?_append_left (by simpa using hk), List.getElem?_map,
      List.getElem?_range hk, Option.map_some, hcol, hrow, hset]
    rfl
  · rw [charRects_opaque a s hg hopaque]
    rfl
  · rw [charRects_transparent a s hg hclear]
    simp only [hset]
    rfl
  · rw [hwin, hr]
    rfl
  · rw [hwin, hnone]
    rfl
  · rintro x y scale hx hy hs hsel hscale
    obtain ⟨ax, ay, g, fg, bg, ascale⟩ := a
    subst hx hy hs
    exact ⟨_, exec_drawChar_of_unselected s x y g fg bg scale hsel hscale, rfl, rfl⟩

end Sys2Proof.Machine
end

section
/-! The Character Decoder: the rows of its table, the cut of a text into characters, and what a pending lead byte is (rules R196 to
R201). -/

namespace Sys2Proof.Machine

/-! ## One byte -/

/-- DECODE completes from every state (rule R197). -/
theorem exec_decode (b : Byte) (s : State) :
    exec (.decode b) s = .next { s with dec := decodeNext b s.dec, result := .glyph (decodeGlyph b s) } := rfl

/-- The first row of the table: a control byte is rejected. -/
theorem exec_decode_of_control (s : State) (b : Byte) (hidle : s.dec = .idle) (hb : b.toNat < 32) :
    exec (.decode b) s = .next { s with result := .glyph none } := by
  have hlead : b.toNat < 127 := by omega
  simp only [exec_decode, decodeNext, decodeGlyph, hidle, if_pos hb, if_pos hlead]

/-- The second row: a printable byte is its own glyph index. -/
theorem exec_decode_of_printable (s : State) (b : Byte) (hidle : s.dec = .idle) (hlow : 32 ≤ b.toNat) (hhigh : b.toNat < 127) :
    exec (.decode b) s = .next { s with result := .glyph (some b) } := by
  simp only [exec_decode, decodeNext, decodeGlyph, hidle, if_neg (Nat.not_lt.2 hlow), if_pos hhigh]

/-- The third row: a lead byte is stored. -/
theorem exec_decode_of_lead (s : State) (b : Byte) (hidle : s.dec = .idle) (hb : 127 ≤ b.toNat) :
    exec (.decode b) s = .next { s with dec := .await b, result := .glyph none } := by
  have hcontrol : ¬ b.toNat < 32 := by omega
  simp only [exec_decode, decodeNext, decodeGlyph, hidle, if_neg hcontrol, if_neg (Nat.not_lt.2 hb)]

/-- The fourth row: the byte after a lead byte is its trail, whatever it is (decision D22). -/
theorem exec_decode_of_await (s : State) (lead b : Byte) (hawait : s.dec = .await lead) :
    exec (.decode b) s = .next { s with dec := .idle, result := .glyph (remapLookup lead b s) } := by
  simp only [exec_decode, decodeNext, decodeGlyph, hawait]

/-- Settles O31, one lemma for each row. -/
theorem decodeFollowsTheTable : Obligations.DecodeFollowsTheTable := fun s b =>
  ⟨exec_decode_of_control s b, exec_decode_of_printable s b, exec_decode_of_lead s b,
    fun lead => exec_decode_of_await s lead b⟩

/-! ## A lead byte and its trail -/

theorem remapLookup_of_hit {lead trail : Byte} {s : State} {e : RemapEntry}
    (h : s.remapRom.find? (fun e => e.lead == lead && e.trail == trail) = some e) : remapLookup lead trail s = some e.glyph := by
  rw [remapLookup, h, Option.map_some]

theorem remapLookup_of_miss {lead trail : Byte} {s : State}
    (h : s.remapRom.find? (fun e => e.lead == lead && e.trail == trail) = none) : remapLookup lead trail s = none := by
  rw [remapLookup, h, Option.map_none]

/-- Settles O32: the rows for one byte, and for a pair the third row followed by the fourth, which reads the same table. -/
theorem decoderProperties : Obligations.DecoderProperties := by
  refine fun s hidle => ⟨fun b hlow hhigh => ?_, fun b hb => ?_, fun lead trail hlead => ?_⟩
  · exact ⟨_, exec_decode_of_printable s b hidle hlow hhigh, rfl, hidle⟩
  · exact ⟨_, exec_decode_of_control s b hidle hb, rfl, hidle⟩
  · exact ⟨_, _, exec_decode_of_lead s lead hidle hlead, exec_decode_of_await _ lead trail rfl, rfl,
      fun e he => congrArg Result.glyph (remapLookup_of_hit he), fun hmiss => congrArg Result.glyph (remapLookup_of_miss hmiss)⟩

/-! ## A text -/

theorem decAfter_concat (d : DecState) (text : List Byte) (b : Byte) :
    decAfter d (text ++ [b]) = decodeNext b (decAfter d text) := List.foldl_concat ..

theorem decodeAll_cons (b : Byte) (text : List Byte) (s : State) :
    decodeAll (b :: text) s =
      (decodeAll text { s with dec := decodeNext b s.dec, result := .glyph (decodeGlyph b s) }).map
        (fun r => ((decodeGlyph b s).toList ++ r.1, r.2)) := rfl

theorem glyphsFrom_nil (remap : Byte → Byte → Option Byte) (d : DecState) : glyphsFrom remap d [] = [] := by
  cases d with
  | idle => rw [glyphsFrom, textGlyphs]
  | await lead => rw [glyphsFrom]

/-- The bytes of a text, decoded one after the other, report the glyphs of its characters and send nothing (rules R195, R199). -/
theorem decodeAll_eq_some (text : List Byte) (s : State) :
    ∃ t, decodeAll text s = some (glyphsFrom (fun l c => remapLookup l c s) s.dec text, t) ∧
      t.dec = decAfter s.dec text ∧ t.trace = s.trace := by
  induction text generalizing s with
  | nil => exact ⟨s, by rw [glyphsFrom_nil, decodeAll], rfl, rfl⟩
  | cons b text ih =>
    obtain ⟨t, hglyphs, hdec, htrace⟩ := ih { s with dec := decodeNext b s.dec, result := .glyph (decodeGlyph b s) }
    refine ⟨t, ?_, hdec, htrace⟩
    rw [decodeAll_cons, hglyphs, glyphsFrom_cons, Option.map_some]
    rfl

/-- A decoder waits for the trail of the last byte it took, and that byte is at least 127; before the first byte, for what it waited
for already. -/
theorem decAfter_eq_await {d : DecState} {text : List Byte} {lead : Byte} (h : decAfter d text = .await lead) :
    text = [] ∧ d = .await lead ∨ text.getLast? = some lead ∧ 127 ≤ lead.toNat := by
  obtain rfl | ⟨front, b, rfl⟩ := text.eq_nil_or_concat'
  · exact .inl ⟨rfl, h⟩
  · rw [decAfter_concat] at h
    obtain ⟨rfl, hlead⟩ := decodeNext_await b lead _ h
    exact .inr ⟨List.getLast?_concat, hlead⟩

/-- Settles O33: the glyphs by induction on the text, the waiting by its last byte. -/
theorem decoderCutsTheText : Obligations.DecoderCutsTheText := by
  intro text s
  obtain ⟨t, hglyphs, hdec, htrace⟩ := decodeAll_eq_some text s
  refine ⟨t, hglyphs, hdec, htrace, fun lead hidle hawait => ?_⟩
  obtain ⟨-, hpending⟩ | hlast := decAfter_eq_await (hdec.symm.trans hawait)
  · rw [hidle] at hpending
    cases hpending
  · exact hlast

/-! ## The pending lead byte -/

/-- PRINTLINE leaves the decoder where its text takes it (rule R214). -/
theorem exec_printLine_dec {x y fg bg scale : Half} {text : List Byte} {s t : State} (hp : s.params.ok)
    (hexec : exec (.printLine x y fg bg scale text) s = .next t) : t.dec = decAfter s.dec text := by
  rw [exec, execPrintLine] at hexec
  split at hexec
  · cases hexec -- in a bracket: refused
  · split at hexec
    · cases hexec -- scale 0: refused
    · rw [finish_next, printLineOp_eq _ _ _ hp] at hexec
      rw [hexec]
      rfl

/-- Every instruction moves the decoder as some text would: DECODE as its byte, PRINTLINE as its text, any other as no byte at all
(rule R21). -/
theorem exec_dec (i : Instr) (s t : State) (hp : s.params.ok) (hexec : exec i s = .next t) :
    ∃ text, t.dec = decAfter s.dec text := by
  by_cases hdecode : ∃ b, i = .decode b
  · obtain ⟨b, rfl⟩ := hdecode
    cases hexec
    exact ⟨[b], rfl⟩
  by_cases hprint : ∃ x y fg bg scale text, i = .printLine x y fg bg scale text
  · obtain ⟨x, y, fg, bg, scale, text, rfl⟩ := hprint
    exact ⟨text, exec_printLine_dec hp hexec⟩
  · simp only [not_exists] at hdecode hprint
    obtain ⟨hdec, -⟩ := exec_registers i s t hp hexec
    exact ⟨[], hdec hdecode hprint⟩

/-- No instruction leaves a lead byte below 127 pending: one is kept, or taken from a text (rules R197, R198). -/
theorem exec_leadOk (i : Instr) (s t : State) (hp : s.params.ok) (hs : s.leadOk) (hexec : exec i s = .next t) : t.leadOk := by
  intro lead hlead
  obtain ⟨text, hdec⟩ := exec_dec i s t hp hexec
  obtain ⟨-, hpending⟩ | ⟨-, hlarge⟩ := decAfter_eq_await (hdec.symm.trans hlead)
  · exact hs lead hpending
  · exact hlarge

/-- Settles O45: the fetch does not touch the decoder, and every instruction keeps the bound. -/
theorem stepKeepsTheLeadByte : Obligations.StepKeepsTheLeadByte := by
  intro s t hp hs hstep
  obtain rfl | ⟨i, u, hexec, ⟨rest, -, rfl⟩ | ⟨-, rfl⟩⟩ := step_next s t hstep
  · exact hs
  · exact exec_leadOk i { s with prog := rest } t hp hs hexec
  · exact exec_leadOk i { s with busPort := none } t hp hs hexec

end Sys2Proof.Machine
end

section
/-! The Line Composer: what PRINTLINE leaves, where its glyphs are drawn, and the decoder from one PRINTLINE to the next (rules R210
to R216). -/

namespace Sys2Proof.Machine

/-! ## PRINTLINE as an instruction -/

/-- PRINTLINE completes outside a bracket at a scale that is not 0 (rule R212). -/
theorem exec_printLine_of_unselected (s : State) (x y fg bg scale : Half) (text : List Byte) (hsel : s.busSel = false)
    (hscale : scale ≠ 0) :
    exec (.printLine x y fg bg scale text) s =
      .next { printLineOp { x := x.toNat, y := y.toNat, fg := fg, bg := bg, scale := scale.toNat } text s with
        result := .none } := by
  rw [exec, execPrintLine, hsel, if_neg Bool.false_ne_true, if_neg hscale, finish_eq]

/-- Settles O34: the bracket is tested before the scale, and the loop over the text is the DRAWCHAR calls of its glyphs. -/
theorem printLineCompletes : Obligations.PrintLineCompletes := by
  intro s x y fg bg scale text hp a gs
  refine ⟨fun hsel hscale => ?_, fun hsel => ?_, fun hsel hscale => ?_⟩
  · rw [exec_printLine_of_unselected s x y fg bg scale text hsel hscale, printLineOp_eq _ _ s hp]
    rfl
  · rw [exec, execPrintLine, if_pos hsel]
  · rw [exec, execPrintLine, hsel, if_neg Bool.false_ne_true, if_pos hscale]

/-! ## The layout law -/

/-- The DRAWCHAR call of a glyph of the line at a position. -/
def LineArgs.callAt (a : LineArgs) (pos : Nat × Nat) (g : Byte) : CharArgs :=
  { x := pos.1, y := pos.2, g := g, fg := a.fg, bg := a.bg, scale := a.scale }

/-- The positions after the first are those of a line that starts one glyph to the right of it (rule R213). -/
theorem layoutPos_succ (x y scale k : Nat) :
    layoutPos x y scale (k + 1) =
      layoutPos ((layoutPos x y scale 0).1 + 6 * scale) (layoutPos x y scale 0).2 scale k := by
  induction k with
  | zero => rfl
  | succ k ih => rw [layoutPos.eq_2 x y, ih, ← layoutPos.eq_2]

/-- A glyph that is drawn is called at the first position of the law, and the next one starts one glyph to the right of it. -/
theorem lineCalls_zero_cons (a : LineArgs) (x y : Nat) (g : Byte) (gs : List Byte) (hg : 32 ≤ g.toNat) :
    lineCalls a .zero x y (g :: gs) =
      a.callAt (layoutPos x y a.scale 0) g ::
        lineCalls a .zero ((layoutPos x y a.scale 0).1 + 6 * a.scale) (layoutPos x y a.scale 0).2 gs := by
  rw [lineCalls, if_neg (Nat.not_lt.2 hg), layoutPos]
  by_cases hx : x < 234
  · simp only [if_pos hx, if_neg (Nat.not_le.2 hx), LineArgs.callAt]
  · simp only [if_neg hx, if_pos (Nat.not_lt.1 hx), LineArgs.callAt, restartX]

/-- With `WRAP_X_MODE = ZERO`, glyphs that are all drawn are called each at its position of the law (rule R213). -/
theorem lineCalls_zero (a : LineArgs) (x y : Nat) (gs : List Byte) (hgs : ∀ g ∈ gs, 32 ≤ g.toNat) :
    lineCalls a .zero x y gs = gs.mapIdx (fun k g => a.callAt (layoutPos x y a.scale k) g) := by
  induction gs generalizing x y with
  | nil => rfl
  | cons g gs ih =>
    obtain ⟨hg, hrest⟩ := List.forall_mem_cons.1 hgs
    rw [lineCalls_zero_cons a x y g gs hg, ih _ _ hrest, List.mapIdx_cons]
    simp only [layoutPos_succ x y]

/-- Settles O35: the `k`-th call is the one of the `k`-th glyph, at the `k`-th position. -/
theorem printLineLayoutLaw : Obligations.PrintLineLayoutLaw := by
  intro a x y gs hgs
  rw [lineCalls_zero a x y gs hgs]
  refine ⟨List.length_mapIdx, fun k c hc => ?_⟩
  rw [List.getElem?_mapIdx, Option.map_eq_some_iff] at hc
  obtain ⟨g, hg, rfl⟩ := hc
  exact ⟨rfl, hg, rfl, rfl, rfl⟩

/-! ## From one PRINTLINE to the next -/

theorem decAfter_append (d : DecState) (text text' : List Byte) :
    decAfter d (text ++ text') = decAfter (decAfter d text) text' := List.foldl_append

/-- An instruction that completes keeps the parameters well-formed. -/
theorem exec_params_ok (i : Instr) (s t : State) (hp : s.params.ok) (hexec : exec i s = .next t) : t.params.ok := by
  obtain ⟨hparams, -⟩ := exec_frame i s t hp hexec
  rwa [hparams]

/-- Settles O36: each PRINTLINE takes the decoder from where it stands over its own text, and neither INIT nor SETPOWER writes it. -/
theorem decoderRemembersAcrossCalls : Obligations.DecoderRemembersAcrossCalls := by
  intro s t u v w x y fg bg scale x' y' fg' bg' scale' text text' on hs hline hinit hpower hline'
  have ht := exec_params_ok _ s t hs hline
  have hu := exec_params_ok _ t u ht hinit
  have hv := exec_params_ok _ u v hu hpower
  have hfirst : t.dec = decAfter s.dec text := exec_printLine_dec hs hline
  have hkeepInit : u.dec = t.dec :=
    onlyDecodeAndPrintLineWriteTheDecoder .init t u ht (fun _ => nofun) (fun _ _ _ _ _ _ => nofun) hinit
  have hkeepPower : v.dec = u.dec :=
    onlyDecodeAndPrintLineWriteTheDecoder (.setPower on) u v hu (fun _ => nofun) (fun _ _ _ _ _ _ => nofun) hpower
  have hsecond : w.dec = decAfter v.dec text' := exec_printLine_dec hv hline'
  exact ⟨hfirst, by rw [hsecond, hkeepPower, hkeepInit, hfirst, decAfter_append]⟩

end Sys2Proof.Machine
end

section
/-! Every instruction is done or refused, as the list of refusals says (rules R229, R230). -/

namespace Sys2Proof.Machine

/-- The outcome is the refusal the list gives, or a next state where it gives none. -/
def Answers : Option Refusal → Host.Outcome State Fault Refusal → Prop
  | some r, o => o = .refused r
  | none, o => ∃ t, o = .next t

theorem answers_refused (r : Refusal) : Answers (some r) (.refused r) := rfl

theorem answers_finish (r : Result) (s : State) : Answers none (finish r s) := ⟨_, rfl⟩

/-- A list and a meaning that make the same test agree when they agree after it. -/
theorem Answers.ite {c d : Prop} {_ : Decidable c} {_ : Decidable d} {x y : Option Refusal}
    {o p : Host.Outcome State Fault Refusal} (hcd : c ↔ d) (hpos : Answers x o) (hneg : Answers y p) :
    Answers (if c then x else y) (if d then o else p) := by
  by_cases hd : d
  · rwa [if_pos (hcd.2 hd), if_pos hd]
  · rwa [if_neg (mt hcd.1 hd), if_neg hd]

/-! ## The tests of the operands -/

theorem half_toNat_eq_zero (v : Half) : v.toNat = 0 ↔ v = 0 := BitVec.toNat_inj (y := 0)

theorem zeroArea_iff (w h : Half) : w.toNat = 0 ∨ h.toNat = 0 ↔ w = 0 ∨ h = 0 :=
  or_congr (half_toNat_eq_zero w) (half_toNat_eq_zero h)

/-- A flag byte has one of the two values rule R94 gives a meaning, or is above them. -/
theorem flag_cases (v : Byte) : v = 0 ∨ v = 1 ∨ 2 ≤ v.toNat := by bv_omega

/-! ## The meanings, test by test -/

/-- SETPOWER's test of its flag, after that of the bracket (rules R143, R230). -/
theorem answers_flag (v : Byte) (r q : Result) (s t : State) :
    Answers (if 2 ≤ v.toNat then some .badOperand else none)
      (if v = 0 then finish r s else if v = 1 then finish q t else .refused .badOperand) := by
  obtain rfl | rfl | hv := flag_cases v
  · exact answers_finish r s
  · exact answers_finish q t
  · obtain ⟨h0, h1⟩ := flag_out_of_range hv
    rw [if_pos hv, if_neg h0, if_neg h1]
    exact answers_refused _

/-- WRITE tests the bracket before the tag (rules R113, R230). -/
theorem answers_write (dc : Byte) (bs : List Byte) (s : State) :
    Answers (refusalReason (.write dc bs) s) (exec (.write dc bs) s) := by
  refine .ite Iff.rfl ?_ (answers_refused _)
  obtain rfl | rfl | hdc := flag_cases dc
  · exact answers_finish _ _
  · exact answers_finish _ _
  · obtain ⟨h0, h1⟩ := flag_out_of_range hdc
    rw [if_pos hdc, tagOf, if_neg h0, if_neg h1]
    exact answers_refused _

theorem answers_frameOp (c : Byte) (ps : List Byte) (s : State) :
    Answers (if s.busSel then none else some .writeUnselected) (frameOp c ps s) :=
  .ite Iff.rfl (answers_finish _ _) (answers_refused _)

/-- The list tests the bracket before the index, the meaning the index before the bracket: the outcomes are the same (log
entries 24, 26). -/
theorem answers_cfg (n : Nat) (s : State) : Answers (refusalReason (.cfg n) s) (exec (.cfg n) s) := by
  by_cases hn : n < s.params.initCfg.length
  · simp only [refusalReason, exec, execCfg, if_pos hn, List.getElem?_eq_getElem hn]
    exact answers_frameOp _ _ s
  · simp only [refusalReason, exec, execCfg, if_neg hn, List.getElem?_eq_none (Nat.le_of_not_lt hn)]
    exact .ite Iff.rfl (answers_refused _) (answers_refused _)

/-- Every meaning makes the tests of the list, in its order (rule R230). -/
theorem exec_answers (i : Instr) (s : State) : Answers (refusalReason i s) (exec i s) := by
  cases i with
  | init => exact .ite Iff.rfl (answers_refused _) (answers_finish _ _)
  | setPower on => exact .ite Iff.rfl (answers_refused _) (answers_flag on _ _ _ _)
  | fillRect x y w h color =>
    exact .ite Iff.rfl (answers_refused _) (.ite (zeroArea_iff w h) (answers_refused _) (answers_finish _ _))
  | blitImage x y w h data =>
    exact .ite Iff.rfl (answers_refused _)
      (.ite (zeroArea_iff w h) (answers_refused _) (.ite Iff.rfl (answers_refused _) (answers_finish _ _)))
  | drawChar x y g fg bg scale =>
    exact .ite Iff.rfl (answers_refused _) (.ite (half_toNat_eq_zero scale) (answers_refused _) (answers_finish _ _))
  | printLine x y fg bg scale text =>
    exact .ite Iff.rfl (answers_refused _) (.ite (half_toNat_eq_zero scale) (answers_refused _) (answers_finish _ _))
  | beginTx => exact .ite Iff.rfl (answers_refused _) (answers_finish _ _)
  | endTx => exact .ite Iff.rfl (answers_finish _ _) (answers_refused _)
  | write dc bs => exact answers_write dc bs s
  | setWindow x y w h =>
    exact .ite Iff.rfl (.ite (zeroArea_iff w h) (answers_refused _) (answers_finish _ _)) (answers_refused _)
  | fill color => exact .ite Iff.rfl (.ite Iff.rfl (answers_finish _ _) (answers_refused _)) (answers_refused _)
  | blit data =>
    exact .ite Iff.rfl
      (.ite Iff.rfl (.ite Iff.rfl (answers_refused _) (answers_finish _ _)) (answers_refused _)) (answers_refused _)
  | decode b => exact answers_finish _ _
  | glyphCol g c =>
    rw [exec, execGlyphCol, ← ite_not]
    exact .ite Nat.not_lt.symm (answers_refused _) (answers_finish _ _)
  | colAddrSet | rowAddrSet | memWrite | sleepIn | sleepOut | displayOn | displayOff => exact answers_frameOp _ _ s
  | cfg n => exact answers_cfg n s

/-- Settles O8: where the list gives a reason, `Answers` is that refusal, and where it gives none, a next state. -/
theorem refusedExactlyAsListed : Obligations.RefusedExactlyAsListed := by
  intro i s
  have h := exec_answers i s
  exact ⟨fun r hr => by rwa [hr] at h, fun hn => by rwa [hn] at h⟩

end Sys2Proof.Machine
end

section
/-! The phases of the controller that no instruction but INIT, or none at all, leads out of: `unknown` and the mark of a refused panel
(rules R63, R229, R255; log entries 11, 15). -/

namespace Sys2Proof.Machine

/-! ## The mark is kept -/

/-- A panel with the mark takes no event, whatever its registers hold (log entry 11). -/
theorem observe_of_offPanel (q : Params) (p : Panel) (e : Event) (hp : p.phase = .offPanel) : Panel.observe q p e = p := by
  cases e with
  | rst b => cases b <;> exact if_pos hp
  | wait n => rfl
  | sel b => cases b <;> simp only [Panel.observe, hp]
  | wr d bs => simp only [Panel.observe, hp]

theorem observeAll_of_offPanel (q : Params) (es : List Event) (p : Panel) (hp : p.phase = .offPanel) :
    es.foldl (Panel.observe q) p = p :=
  List.foldl_fixed' (fun e => observe_of_offPanel q p e hp) es

theorem Emits.keeps_offPanel {es : List Event} {s t : State} (h : Emits es s t) (hs : s.panel.phase = .offPanel) :
    t.panel.phase = .offPanel := by
  obtain ⟨-, -, hmarked | hreacts⟩ := h
  · rw [hmarked]
    rfl
  · rw [hreacts, observeAll_of_offPanel s.params es s.panel hs, hs]

/-! ## The phase `unknown` is kept, or marked -/

theorem Emits.keeps_unknown {es : List Event} {s t : State} (h : Emits es s t) (hbus : BusOnly es)
    (hs : s.panel.phase = .unknown) : t.panel.phase = .unknown ∨ t.panel.phase = .offPanel := by
  obtain ⟨-, -, hmarked | hreacts⟩ := h
  · rw [hmarked]
    exact .inr rfl
  · rw [hreacts]
    exact .inl (observeAll_unknown s.params es s.panel hs (fun e he => (hbus e he).1))

/-! ## A window of the operands that leaves the panel -/

/-- The rectangle reaches beyond the last column or the last row of the panel (rule R63). -/
def Rect.leavesPanel (r : Rect) : Prop := 240 < r.x + r.w ∨ 240 < r.y + r.h

theorem Rect.onPanel_of_leavesPanel {r : Rect} (h : r.leavesPanel) : onPanel r.x r.y r.w r.h = false := by
  refine Bool.eq_false_iff.2 fun hon => ?_
  obtain ⟨-, -, hx, hy⟩ := (onPanel_iff r.x r.y r.w r.h).1 hon
  exact h.elim (Nat.not_lt.2 hx) (Nat.not_lt.2 hy)

/-- One declared rectangle that leaves the panel marks it, and the events after it change nothing. -/
theorem emitAll_judgeRects_offPanel (es : List Event) {rs : List Rect} {r : Rect} (s : State) (hr : r ∈ rs) (h : r.leavesPanel) :
    (emitAll es (judgeRects rs s)).panel.phase = .offPanel := by
  have hrefused : ¬ rs.all (fun r => onPanel r.x r.y r.w r.h) = true := by
    intro hall
    exact absurd (List.all_eq_true.1 hall r hr) (Bool.eq_false_iff.1 (Rect.onPanel_of_leavesPanel h))
  rw [emitAll_panel, judgeRects_panel, if_neg hrefused, observeAll_refused]
  rfl

theorem emitAll_judgeWindow_offPanel (es : List Event) {r : Rect} (s : State) (h : r.leavesPanel) :
    (emitAll es (judgeWindow r.x r.y r.w r.h s)).panel.phase = .offPanel := by
  have hone : judgeRects [r] s = judgeWindow r.x r.y r.w r.h s := by simp [judgeRects, judgeWindow]
  rw [← hone]
  exact emitAll_judgeRects_offPanel es s (List.mem_singleton_self r) h

theorem drawRects_offPanel {rs : List Rect} {r : Rect} (s : State) (hp : s.params.ok) (hr : r ∈ rs) (h : r.leavesPanel) :
    (drawRects rs s).panel.phase = .offPanel := by
  rw [drawRects_eq rs s hp]
  exact emitAll_judgeRects_offPanel _ s hr h

/-- The windows an instruction declares by its operands, each as a rectangle; the colour has no part in it (log entry 15). -/
def declaredRects (s : State) : Instr → List Rect
  | .setWindow x y w h | .fillRect x y w h _ | .blitImage x y w h _ =>
    [{ x := x.toNat, y := y.toNat, w := w.toNat, h := h.toNat, color := 0 }]
  | .drawChar x y g fg bg scale => charRects { x := x.toNat, y := y.toNat, g := g, fg := fg, bg := bg, scale := scale.toNat } s
  | .printLine x y fg bg scale text =>
    (lineCalls { x := x.toNat, y := y.toNat, fg := fg, bg := bg, scale := scale.toNat } s.params.wrapXMode x.toNat y.toNat
      (glyphsFrom (fun l c => remapLookup l c s) s.dec text)).flatMap (fun a => charRects a s)
  | _ => []

theorem declaredRects_of_busCommand (s : State) (i : Instr) (hi : i.isOperation = false) : declaredRects s i = [] := by
  cases i with
  | setWindow | fillRect | blitImage | drawChar | printLine => cases hi
  | _ => rfl

/-- An instruction that completes and declares a window that leaves the panel marks it (rules R63, R229). -/
theorem exec_declared_offPanel (i : Instr) (s t : State) (r : Rect) (hp : s.params.ok) (hexec : exec i s = .next t)
    (hr : r ∈ declaredRects s i) (hleaves : r.leavesPanel) : t.panel.phase = .offPanel := by
  obtain ⟨rfl, -, rfl⟩ | ⟨on, cs, rfl, -, -, rfl⟩ | ⟨x, y, w, h, color, rfl, -, -, -, rfl⟩ |
    ⟨x, y, w, h, data, rfl, -, -, -, -, rfl⟩ | ⟨x, y, g, fg, bg, scale, col, row, rs, rfl, -, -, -, rfl, rfl⟩ |
    ⟨x, y, fg, bg, scale, text, col, row, rs, rfl, -, -, -, rfl, rfl⟩ | ⟨rfl, -, rfl⟩ | ⟨rfl, -, rfl⟩ |
    ⟨dc, d, bs, rfl, -, -, rfl⟩ | ⟨x, y, w, h, rfl, -, -, -, rfl⟩ | ⟨color, rfl, -, -, rfl⟩ | ⟨data, rfl, -, -, -, rfl⟩ |
    ⟨b, rfl, rfl⟩ | ⟨g, c, rfl, rfl⟩ | ⟨c, ps, hi, -, rfl⟩ := exec_next i s t hp hexec
  case inr.inr.inl | inr.inr.inr.inl | inr.inr.inr.inr.inr.inr.inr.inr.inr.inl => -- fillRect, blitImage, setWindow
    obtain rfl := List.mem_singleton.1 hr
    exact emitAll_judgeWindow_offPanel _ s hleaves
  case inr.inr.inr.inr.inl | inr.inr.inr.inr.inr.inl => exact drawRects_offPanel s hp hr hleaves -- drawChar, printLine
  case inr.inr.inr.inr.inr.inr.inr.inr.inr.inr.inr.inr.inr.inr => -- bus commands
    rw [declaredRects_of_busCommand s i hi] at hr
    cases hr
  all_goals cases hr -- every other instruction declares nothing

/-! ## A window of the address commands that is not on the panel -/

/-- The end of a command that waits for no parameters leaves the phase and the address registers (log entries 17, 28). -/
theorem endCommand_registers (p : Panel) (hcol : ∀ got, p.mode ≠ .colParams got) (hrow : ∀ got, p.mode ≠ .rowParams got) :
    p.endCommand.phase = p.phase ∧ p.endCommand.cols = p.cols ∧ p.endCommand.rows = p.rows := by
  cases hmode : p.mode with
  | idle =>
    rw [endCommand_idle p hmode]
    exact ⟨rfl, rfl, rfl⟩
  | colParams got => exact absurd hmode (hcol got)
  | rowParams got => exact absurd hmode (hrow got)
  | config => simp only [Panel.endCommand, hmode, and_self]
  | stream k =>
    simp only [Panel.endCommand, hmode]
    split
    · exact ⟨rfl, rfl, rfl⟩
    · split <;> exact ⟨rfl, rfl, rfl⟩

/-- Addresses out of order, or beyond the last column or row, are no window on the panel (rules R58, R63). -/
theorem window_eq_none (p : Panel)
    (hoff : p.cols.last.toNat < p.cols.first.toNat ∨ 240 ≤ p.cols.last.toNat ∨ p.rows.last.toNat < p.rows.first.toNat ∨
      240 ≤ p.rows.last.toNat) : p.window = none := by
  refine if_neg fun ⟨_, hcols, hrows, hwidth, hheight⟩ => ?_
  change _ < 240 at hwidth hheight
  omega

/-- MEM_WRITE at a ready controller that waits for no parameters, whose declared window is not on the panel (rules R63, R146). -/
theorem observe_memWrite_refused (q : Params) (p : Panel) (hph : p.phase = .ready) (hcol : ∀ got, p.mode ≠ .colParams got)
    (hrow : ∀ got, p.mode ≠ .rowParams got) (hcols : p.cols.declared = true) (hrows : p.rows.declared = true)
    (hoff : p.cols.last.toNat < p.cols.first.toNat ∨ 240 ≤ p.cols.last.toNat ∨ p.rows.last.toNat < p.rows.first.toNat ∨
      240 ≤ p.rows.last.toNat) : Panel.observe q p (.wr .cmd [0x2C]) = Panel.refused := by
  obtain ⟨hphase, hcolsKept, hrowsKept⟩ := endCommand_registers p hcol hrow
  have hdeclared : p.endCommand.declared = true := by rw [Panel.declared, hcolsKept, hrowsKept, hcols, hrows, Bool.and_self]
  have hwindow : p.endCommand.window = none := window_eq_none _ (by rw [hcolsKept, hrowsKept]; exact hoff)
  have hmemWrite : p.endCommand.memWrite = Panel.refused := if_pos ⟨hdeclared, hwindow⟩
  simp only [Panel.observe, hph, List.foldl_cons, List.foldl_nil, Panel.command, hphase, if_true]
  exact hmemWrite

/-- The bus command and the raw write of its byte send the one event (rules R84, R113). -/
theorem exec_memWrite_panel (i : Instr) (s t : State) (hi : i = .memWrite ∨ i = .write 0 [0x2C]) (hexec : exec i s = .next t) :
    t.panel = Panel.observe s.params s.panel (.wr .cmd [0x2C]) := by
  obtain ⟨-, -, hunselected⟩ := writeSendsItsBytes s [0x2C]
  cases hsel : s.busSel with
  | false =>
    obtain rfl | rfl := hi
    · cases (frameOp_of_unselected _ _ s hsel).symm.trans hexec
    · cases (hunselected 0 hsel).symm.trans hexec
  | true =>
    obtain rfl | rfl := hi
    · cases (frameOp_of_selected _ _ s hsel).symm.trans hexec
      rfl
    · cases (exec_write_of_selected 0 .cmd [0x2C] s rfl hsel).symm.trans hexec
      rfl

/-- Settles O54: without a reset pulse `unknown` is kept or marked, a declared window that leaves the panel marks it, MEM_WRITE tests
the declared addresses, and a marked panel takes no event. -/
theorem onlyInitReadiesThePanel : Obligations.OnlyInitReadiesThePanel := by
  intro i s t hp hexec
  refine ⟨fun hi hunknown => ?_, ?_, ?_, ?_, ?_, fun hmarked => ?_⟩
  · obtain ⟨es, hbus, hes⟩ := exec_emits_busOnly i s t hp hi hexec
    exact hes.keeps_unknown hbus hunknown
  · intro x y w h hi hoff
    refine exec_declared_offPanel i s t { x := x.toNat, y := y.toNat, w := w.toNat, h := h.toNat, color := 0 } hp hexec ?_ hoff
    obtain rfl | ⟨c, rfl⟩ | ⟨d, rfl⟩ := hi <;> exact List.mem_singleton_self _
  · rintro x y g fg bg scale rfl ⟨r, hr, hoff⟩
    exact exec_declared_offPanel _ s t r hp hexec hr hoff
  · rintro x y fg bg scale text rfl ⟨a, ha, r, hr, hoff⟩
    exact exec_declared_offPanel _ s t r hp hexec (List.mem_flatMap.2 ⟨a, ha, hr⟩) hoff
  · intro hi hph hcol hrow hcols hrows hoff
    rw [exec_memWrite_panel i s t hi hexec, observe_memWrite_refused s.params s.panel hph hcol hrow hcols hrows hoff]
    rfl
  · obtain ⟨es, hes⟩ := exec_emits i s t hp hexec
    exact hes.keeps_offPanel hmarked

end Sys2Proof.Machine
end
